-- ==== Sys2Proof/Word.lean ====
section
/-!
DEFINITION. The words of the BBSPI block: bytes, 32-bit command words, 3-bit pin indices and device addresses, and
the direction of a pin. spec/00_scope.md R7, R9; spec/10_state.md R22; spec/30_encoding.md R80.
-/

namespace Sys2Proof

/-- A byte: a pin-state byte, an SPI word, a register datum (`BYTE` = 8 bits, 00 R7, R9). -/
abbrev Byte := BitVec 8

/-- A host command word or payload word (30 R81, R84). -/
abbrev Word := BitVec 32

/-- A pin index, 0 to 7 (`PinIx`, 30 R80; `NPINS` = 8, 00 R7). -/
abbrev PinIx := BitVec 3

/-- A device address, 0 to 7 (`NDEV` = 8, 00 R7). -/
abbrev DevAddr := BitVec 3

/-- The direction of a pin (10 R22): where an encoding is needed, 1 = output and 0 = input. -/
inductive Dir where
  | input
  | output
deriving DecidableEq, Repr, Inhabited

end Sys2Proof
end

