-- ==== Sys2Proof/Config.lean ====
section
/-!
DEFINITION. What an implementation fixes (spec/00_scope.md R7, R8; spec/10_state.md R35), the link's interface (the events of
the trace, spec/10_state.md R40, R41, and the driver's raw answers, spec/20_memory.md R66), and the values the spec leaves
open, each an opaque constant.
-/

namespace Sys2Proof

/-- A raw answer of the link's driver to one call in real mode (20 R66): a failure, or success with the number the driver
returns (the count of a WRITE, the snapshot of a READ, nothing of interest otherwise). -/
inductive Answer where
  | fail
  | ok (n : Nat)
deriving DecidableEq, Repr, Inhabited

/-- One event of the trace. The seven link events carry their answer (10 R40: `ok` is a Bool; `none` is `fail`); then come the
waits and the diagnostics (10 R41). -/
inductive Event where
  | openLink (deviceIndex : Nat) (ok : Bool)
  | resetLink (ok : Bool)
  | setClock (rate : Nat) (ok : Bool)
  | setBitMode (mask : Byte) (mode : Nat) (ok : Bool)
  | write (bytes : List Byte) (answer : Option Nat)
  | read (answer : Option Byte)
  | closeLink (ok : Bool)
  | delaySettle (delay : Nat)
  | delayBackoff (delay : Nat)
  | clkNotIdle
  | shortWrite (n len : Nat)
  | orderViolation (dev : DevAddr)
deriving DecidableEq, Repr, Inhabited

/-- Which function answers an input-snapshot read in simulation mode (`sim_source`, 00 R7, 20 R66), named as plain data: the
INJECT register (the default), the reference devices LB and RX of 95 section 1 on the given pins, or any other function,
`Config.otherSource n`. -/
inductive SimSource where
  | inject
  | loopBack (clk mosi miso : PinIx)
  | expanders (clk mosi miso cs rst : PinIx) (straps : List DevAddr)
  | other (n : Nat)
deriving DecidableEq, Repr, Inhabited

/-- The parameters of the block (00 R7). The constraints of 00 R8 and R7 are in the types: `MAX_PACKET` and `OPEN_ATTEMPTS` are
at least 1 (their predecessors are held), `OPC_NIBBLE` has 4 bits, `CTRL_REG` 5 bits, and `HAEN_MASK` is one-hot (the number of
its bit is held). -/
structure Params where
  maxPacketPred     : Nat
  histCap           : Nat
  clockRate         : Nat
  settleDelay       : Nat
  openAttemptsPred  : Nat
  openBackoff       : Nat
  deviceIndex       : Nat
  modeReset         : Nat
  modeAsyncBitbang  : Nat
  opcNibble         : BitVec 4
  ctrlReg           : BitVec 5
  haenBit           : BitVec 3
  ctrlDefault       : Byte
  simSource         : SimSource
deriving DecidableEq, Repr, Inhabited

/-- FREE VALUE (log 5): the parameters of the machine that starts at reset. The spec gives none of the OPEN values (00 R8). -/
opaque Config.params : Params

/-- FREE VALUE (log 6): the link's answer to the `n`-th real-mode call, where the state has no answer ready (20 R66, 93 I2). -/
opaque Config.linkAnswer : Nat → Answer

/-- FREE VALUE (log 7): the `sim_source` numbered `n`, a function of the `inject` register and the trace so far (20 R66). -/
opaque Config.otherSource : Nat → Byte → List Event → Byte

end Sys2Proof
end

