-- ==== Sys2Proof/Syntax.lean ====
section
/-!
DEFINITION. The abstract syntax: the entries of a pin list and ONE inductive of instructions with a constructor per row of
spec/opcode_table.json. The thirteen commands are spec/30_encoding.md R80; the last three rows are the payload entry word
(R84) and the two bus frames (R103, R104).
-/

namespace Sys2Proof

/-- One entry of PLANE_INIT's pin list (30 R80, R84). The index is 8 bits wide so that an out-of-range index can be
given and rejected (R80, 92 D38). -/
inductive Entry where
  | pin (index : Byte) (dir : Dir) (init : Bool) (name : Byte)
  | nonPin
deriving DecidableEq, Repr, Inhabited

/-- The instructions: one constructor per row of the opcode table. -/
inductive Instr where
  /-- PLANE_INIT with its whole payload (R83, R111). -/
  | planeInit (entries : List Entry) (sim : Bool)
  /-- CLOSE (R90, R128). -/
  | close
  /-- SET_PIN (R85, R118). -/
  | setPin (i : PinIx) (v : Bool)
  /-- GET_PIN (R86, R119). -/
  | getPin (i : PinIx)
  /-- SET_PINS (R87, R120). -/
  | setPins (flush : Bool)
  /-- GET_PINS (R88, R125). -/
  | getPins
  /-- INJECT (R89, R127). -/
  | inject (v : Byte)
  /-- SPI_BIND (R91, R150). -/
  | spiBind (clk mosi miso : PinIx)
  /-- SPI_SEND (R92, R153). -/
  | spiSend (v : Byte)
  /-- SPI_RECV (R93, R155). -/
  | spiRecv
  /-- REG_BIND (R94, R182). -/
  | regBind (clk mosi miso cs rst : PinIx)
  /-- REG_WRITE (R95, R188); `reg` is carried as 8 bits and masked when it runs (R181). -/
  | regWrite (dev : DevAddr) (reg data : Byte)
  /-- REG_READ (R96, R189). -/
  | regRead (dev : DevAddr) (reg : Byte)
  /-- PLANE_INIT_ENTRY: one pin entry word of PLANE_INIT's payload (R84). -/
  | planeInitEntry (index : Byte) (dir : Dir) (init : Bool) (name : Byte)
  /-- FRAME_WR: a write frame on the bus; its register byte carries 5 bits (R103, R104). -/
  | frameWr (dev : DevAddr) (reg : BitVec 5) (data : Byte)
  /-- FRAME_RD: a read frame on the bus (R103, R104). -/
  | frameRd (dev : DevAddr) (reg : BitVec 5)
deriving DecidableEq, Repr, Inhabited

end Sys2Proof
end

