-- ==== Sys2Proof/Machine/State.lean ====
section
/-!
DEFINITION. The state of the machine as plain data, its value at power-on, and the reasons a step can stop.
The block's state is spec/10_state.md R20 to R32, R40 to R43; the fields below the line "the model's own" are the machine's
surroundings that a step needs as data (assumption log 1, 2, 4, 5, 6, 10).
-/

namespace Sys2Proof.Machine

/-- How much of the stack is constructed (10 R20). -/
inductive Phase where
  | idle
  | plane
  | spi
  | ready
deriving DecidableEq, Repr, Inhabited

/-- A present pin slot's record (10 R22). -/
structure Pin where
  dir   : Dir
  value : Bool
  name  : Byte
deriving DecidableEq, Repr, Inhabited

/-- The SPI Link's binding (10 R29). -/
structure SpiPins where
  clk  : PinIx
  mosi : PinIx
  miso : PinIx
deriving DecidableEq, Repr, Inhabited

/-- The Register Protocol's own binding (10 R30). -/
structure RegPins where
  cs  : PinIx
  rst : PinIx
deriving DecidableEq, Repr, Inhabited

/-- The status of a response (60 R210). -/
inductive Status where
  | ok
  | cfgErr
  | fatalIo
  | ioErr
  | regAccessErr
  | refusedState
  | refusedEnc
  | noPin
deriving DecidableEq, Repr, Inhabited

/-- A command's response (10 R36, 30 R99). -/
structure Response where
  status : Status
  data   : Byte
deriving DecidableEq, Repr, Inhabited

/-- A PLANE_INIT whose payload is being received (30 R83, R100): its SIM bit, whether an illegal word was met (R97), how many
payload words are still to come, and the entries received so far in list order. -/
structure Intake where
  sim     : Bool
  illegal : Bool
  need    : Nat
  entries : List Entry
deriving DecidableEq, Repr, Inhabited

/-- The whole machine. -/
structure State where
  /-- `phase` (10 R20). -/
  phase     : Phase
  /-- `sim` (10 R21). -/
  sim       : Bool
  /-- `pin[0..7]`, each absent or a record (10 R22). -/
  pins      : Vector (Option Pin) 8
  /-- `txbuf`, oldest first (10 R27). -/
  txbuf     : List Byte
  /-- `history`, oldest first (10 R28). -/
  history   : List Byte
  /-- `spi` (10 R29). -/
  spi       : Option SpiPins
  /-- `reg` (10 R30). -/
  reg       : Option RegPins
  /-- `inject` (10 R31). -/
  inject    : Byte
  /-- the ghost `haen_ok` (10 R32). -/
  haenOk    : Bool
  /-- `trace`, oldest first (10 R40 to R42). -/
  trace     : List Event
  /-- the model's own: the parameters (10 R35), which no step changes (log 5). -/
  cfg       : Params
  /-- the model's own: the words at the host port that the block has not taken (log 1). -/
  port      : List Word
  /-- the model's own: the PLANE_INIT whose payload is being received (log 2). -/
  intake    : Option Intake
  /-- the model's own: the bytes of a bus frame that stands at the framer (log 10). -/
  busIn     : List Byte
  /-- the model's own: the responses given so far, oldest first (log 4). -/
  responses : List Response
  /-- the model's own: the link answers the environment has ready (log 6). -/
  answers   : List Answer
  /-- the model's own: how many real-mode link calls were answered (log 6). -/
  draws     : Nat
deriving DecidableEq, Repr

/-- The state at power-on: 10 R43 and 70 R240 for the block's state; the model's own fields as the log entries say. -/
def State.reset : State where
  phase := .idle
  sim := false
  pins := Vector.replicate 8 none
  txbuf := []
  history := []
  spi := none
  reg := none
  inject := 0#8
  haenOk := false
  trace := []
  cfg := Config.params
  port := []
  intake := none
  busIn := []
  responses := []
  answers := []
  draws := 0

/-- The faults of the model. Both are raised only in states no run reaches (an invariant rules them out). -/
inductive Fault where
  /-- Raised by SPI_SEND, SPI_RECV, REG_WRITE, REG_READ, FRAME_WR and FRAME_RD where the phase says that an SPI Link is bound
  and `spi` is absent; the spec gives no such state (10 R29). Safe: the model stops. -/
  | spiUnbound
  /-- Raised by REG_WRITE, REG_READ, FRAME_WR and FRAME_RD where the phase is READY and `reg` is absent; the spec gives no such
  state (10 R30). Safe: the model stops. -/
  | regUnbound
deriving DecidableEq, Repr

/-- The refusals of the model. -/
inductive Refusal where
  /-- Raised by an arm of `exec` whose instruction has no meaning yet; no arm does. Safe: the model stops. -/
  | notModelled (mnemonic : String)
  /-- Raised by the fetch, not by an instruction: the bytes at the framer open no frame of the block; the block never emits
  such an opcode byte and what a device does with it is not in the source (30 R104). Safe: the model stops. -/
  | notAFrame
deriving DecidableEq, Repr

end Sys2Proof.Machine
end

