-- ==== Sys2Proof/Machine/Operands.lean ====
section
/-!
DEFINITION. The value computations of the block: a byte from eight pin bits, the bits of a byte most significant first, the
receive accumulator, the opcode and register bytes of a frame, and the numeric codes of a response. Bitwise only
(spec/00_scope.md R12).
-/

/-! ## Parameters whose constraint is in the held type -/

namespace Sys2Proof

/-- `MAX_PACKET`, at least 1 (00 R7). -/
def Params.maxPacket (p : Params) : Nat := p.maxPacketPred + 1

/-- `OPEN_ATTEMPTS`, at least 1 (00 R7). -/
def Params.openAttempts (p : Params) : Nat := p.openAttemptsPred + 1

/-- `HAEN_MASK`, a byte with exactly one bit set (00 R7, R8). -/
def Params.haenMask (p : Params) : Byte := 1#8 <<< p.haenBit.toNat

end Sys2Proof

namespace Sys2Proof.Machine

/-! ## Bytes and bits -/

/-- The byte whose bit `i` is `f i` (20 R63: bit i is pin i). -/
def byteOf (f : PinIx → Bool) : Byte :=
  BitVec.ofBoolListLE [f 0, f 1, f 2, f 3, f 4, f 5, f 6, f 7]

/-- Bit `i` of a byte. -/
def bitAt (b : Byte) (i : PinIx) : Bool := b.getLsbD i.toNat

/-- The bits of `v`, most significant first (20 R64). -/
def bitsMsb (v : Byte) : List Bool :=
  [v.getLsbD 7, v.getLsbD 6, v.getLsbD 5, v.getLsbD 4, v.getLsbD 3, v.getLsbD 2, v.getLsbD 1, v.getLsbD 0]

/-- `((acc << 1) | b) & 0xFF` (41 R156). -/
def shiftIn (acc : Byte) (b : Bool) : Byte := (acc <<< 1) ||| (BitVec.ofBool b).zeroExtend 8

/-! ## Frame bytes -/

/-- `Opcode(dev, rw)` (42 R180); `read` is the read/write bit, 1 = read. -/
def opcode (nibble : BitVec 4) (dev : DevAddr) (read : Bool) : Byte := nibble ++ dev ++ BitVec.ofBool read

/-- `RegByte(reg)` (42 R181). -/
def regByte (reg : Byte) : Byte := reg &&& 0x1F#8

/-! ## Codes of a response -/

/-- The STATUS codes (60 R210). -/
def Status.code : Status → Byte
  | .ok => 0x00#8
  | .cfgErr => 0x10#8
  | .fatalIo => 0x20#8
  | .ioErr => 0x21#8
  | .regAccessErr => 0x22#8
  | .refusedState => 0x30#8
  | .refusedEnc => 0x31#8
  | .noPin => 0x32#8

/-- The 16-bit response word: STATUS in 15:8, DATA in 7:0 (30 R99). -/
def Response.word (r : Response) : BitVec 16 := r.status.code ++ r.data

/-- The reasons of a configuration error (60 R211). -/
inductive CfgReason where
  | empty
  | nonPin
  | range
  | dup
  | missing
  | direction
  | notDistinct
deriving DecidableEq, Repr, Inhabited

/-- The reason codes (60 R211). -/
def CfgReason.code : CfgReason → Byte
  | .empty => 0x01#8
  | .nonPin => 0x02#8
  | .range => 0x03#8
  | .dup => 0x04#8
  | .missing => 0x05#8
  | .direction => 0x06#8
  | .notDistinct => 0x07#8

/-- Which link call failed inside a command (40 R110, `LinkFailure(kind)`). -/
inductive LinkOp where
  | write
  | read
deriving DecidableEq, Repr, Inhabited

/-- The cause code of a link failure, the DATA of IO_ERR and REG_ACCESS_ERR (60 R210, R213, R214). -/
def LinkOp.code : LinkOp → Byte
  | .write => 0x01#8
  | .read => 0x02#8

/-- The DATA of FATAL_IO (60 R212): open attempts exhausted. -/
def fatalOpen : Byte := 0x01#8

/-- The DATA of FATAL_IO (60 R212): a configuration call failed. -/
def fatalConfigure : Byte := 0x02#8

/-- The DATA of FATAL_IO (60 R212): the first push failed. -/
def fatalFirstPush : Byte := 0x03#8

end Sys2Proof.Machine
end

