-- ==== Sys2Proof/Machine/Flags.lean ====
section
/-!
DEFINITION. What takes the place of flags: the block has no flags or condition codes (spec/10_state.md R34). Its commands write
the ghost `haen_ok` (R32) and append diagnostics to the trace (R41, spec/60_exceptions.md R222).
-/

namespace Sys2Proof.Machine

/-- Append one event to the trace: `Emit` and `Delay` (00 R10), and the recording half of `LinkCall` (10 R40). The trace is never
shortened (R42). -/
def State.record (s : State) (e : Event) : State := { s with trace := s.trace ++ [e] }

/-- The ghost's rule for a push of the byte `b`: with `reg` bound, a byte whose RST bit is 0 clears `haen_ok` (10 R32, 40
R120). -/
def State.noteReset (s : State) (b : Byte) : State :=
  match s.reg with
  | some r => if bitAt b r.rst then s else { s with haenOk := false }
  | none => s

/-- `DIAG(SHORT_WRITE, n, len)`, only for a short write (40 R122, R123). -/
def State.noteShortWrite (s : State) (n len : Nat) : State :=
  if n < len then s.record (.shortWrite n len) else s

/-- `OrderCheck(dev)`: a register access with `dev ≠ 0` while `haen_ok` is false is flagged, never refused (42 R191). -/
def State.orderCheck (s : State) (dev : DevAddr) : State :=
  if dev ≠ 0#3 ∧ s.haenOk = false then s.record (.orderViolation dev) else s

end Sys2Proof.Machine
end

