-- ==== Sys2Proof/Machine/SimSource.lean ====
section
/-!
DEFINITION. How simulation mode answers a READ (spec/20_memory.md R66): the function `sim_source(inject, trace)` that a
`SimSource` names. LB and RX are the reference devices of spec/95_test_vectors.md section 1; they are no part of the block and
see only the bytes written to the link, in order, as the adapter applies them (20 R68).
-/

namespace Sys2Proof.Machine

/-- The bytes that reached the pins, in order: the first `n` bytes of a WRITE answered `n` (20 R68). How many bytes of a WRITE
answered `fail` reached them the spec does not say: DESIGN CHOICE, unsafe: none did, so the reference devices see none (log 19). -/
def wireBytes : List Event → List Byte
  | [] => []
  | .write bytes (some n) :: es => bytes.take n ++ wireBytes es
  | _ :: es => wireBytes es

/-- The byte with bit `i` at `b` and 0 elsewhere. -/
def bitOnly (i : PinIx) (b : Bool) : Byte := byteOf fun j => b && j == i

/-! ## LB, the loop-back shift register -/

/-- LB's state: the byte last seen on the wire (0 before the first) and the shift register `sr`. -/
structure LbDev where
  prev : Byte
  sr   : Byte
deriving DecidableEq, Repr, Inhabited

/-- One byte on the wire: at a rising edge of CLK, MOSI is shifted in at bit 0. -/
def LbDev.see (clk mosi : PinIx) (d : LbDev) (x : Byte) : LbDev :=
  { prev := x, sr := if !bitAt d.prev clk && bitAt x clk then shiftIn d.sr (bitAt x mosi) else d.sr }

/-- LB after the bytes `bs`. -/
def LbDev.run (clk mosi : PinIx) (bs : List Byte) : LbDev :=
  bs.foldl (LbDev.see clk mosi) { prev := 0#8, sr := 0#8 }

/-! ## RX, the register expander -/

/-- The state of one RX device: its registers, its HAEN bit, and the frame in progress (how many rising edges it has seen, the
input shift register, what the opcode said, the register address, and the output shift register while it presents one). -/
structure RxDev where
  strap      : DevAddr
  regs       : Vector Byte 32
  haen       : Bool
  inFrame    : Bool
  edges      : Nat
  shift      : Byte
  matched    : Bool
  reading    : Bool
  addr       : BitVec 5
  presenting : Bool
  out        : Byte
deriving DecidableEq, Repr

/-- RX at power-on: every register 0, `haen` false, no frame. -/
def RxDev.powerOn (strap : DevAddr) : RxDev where
  strap := strap
  regs := Vector.replicate 32 0#8
  haen := false
  inFrame := false
  edges := 0
  shift := 0#8
  matched := false
  reading := false
  addr := 0#5
  presenting := false
  out := 0#8

/-- A CS fall: a frame starts. -/
def RxDev.startFrame (d : RxDev) : RxDev :=
  { d with inFrame := true, edges := 0, shift := 0#8, matched := false, reading := false, presenting := false, out := 0#8 }

/-- CS at 1: the frame, if any, ends. -/
def RxDev.endFrame (d : RxDev) : RxDev :=
  { d with inFrame := false, presenting := false, out := 0#8 }

/-- A completed input byte `b`, the one that ends with rising edge number `n`: the opcode, the register byte or the data byte. -/
def RxDev.takeByte (cfg : Params) (n : Nat) (b : Byte) (d : RxDev) : RxDev :=
  if n = 8 then
    { d with
      matched := b.extractLsb' 4 4 == cfg.opcNibble && b.extractLsb' 1 3 == (if d.haen then d.strap else 0#3)
      reading := b.getLsbD 0 }
  else if n = 16 then
    let a := b.extractLsb' 0 5
    if d.matched && d.reading then
      { d with addr := a, presenting := true, out := d.regs[a.toNat]'(a.isLt) }
    else { d with addr := a }
  else if n = 24 then
    if d.matched && !d.reading then
      { d with
        regs := d.regs.set d.addr.toNat b d.addr.isLt
        haen := if d.addr == cfg.ctrlReg then b &&& cfg.haenMask != 0#8 else d.haen }
    else d
  else d

/-- A rising edge of CLK within a frame: a presenting device shifts its output, any other shifts MOSI in. -/
def RxDev.edge (cfg : Params) (mosi : Bool) (d : RxDev) : RxDev :=
  if d.presenting then { d with edges := d.edges + 1, out := d.out <<< 1 }
  else
    let b := shiftIn d.shift mosi
    RxDev.takeByte cfg (d.edges + 1) b { d with edges := d.edges + 1, shift := b }

/-- One byte `x` on the wire, after the byte `prev`. Whether a rising edge of CLK in the very byte in which CS falls is within the
frame the spec does not say (95 section 1): DESIGN CHOICE, unsafe: it is, and is the frame's first edge (log 20). -/
def RxDev.see (cfg : Params) (p : SpiPins) (r : RegPins) (prev x : Byte) (d : RxDev) : RxDev :=
  if !bitAt x r.rst then RxDev.powerOn d.strap
  else if bitAt x r.cs then d.endFrame
  else
    let d1 := if bitAt prev r.cs then d.startFrame else d
    if d1.inFrame && (!bitAt prev p.clk && bitAt x p.clk) then d1.edge cfg (bitAt x p.mosi) else d1

/-- The bus of RX devices: the byte last seen on the wire and the devices. -/
structure RxBus where
  prev : Byte
  devs : List RxDev
deriving DecidableEq, Repr

/-- One byte on the wire, seen by every device. -/
def RxBus.see (cfg : Params) (p : SpiPins) (r : RegPins) (u : RxBus) (x : Byte) : RxBus :=
  { prev := x, devs := u.devs.map (RxDev.see cfg p r u.prev x) }

/-- The bus after the bytes `bs`, every device from power-on. -/
def RxBus.run (cfg : Params) (p : SpiPins) (r : RegPins) (straps : List DevAddr) (bs : List Byte) : RxBus :=
  bs.foldl (RxBus.see cfg p r) { prev := 0#8, devs := straps.map RxDev.powerOn }

/-- MISO: the OR of the bits of every device that presents one. -/
def RxBus.miso (u : RxBus) : Bool := u.devs.any fun d => d.presenting && d.out.getLsbD 7

/-! ## The answer -/

/-- `sim_source(inject, trace)` (20 R66). -/
def simRead (cfg : Params) (inject : Byte) (trace : List Event) : Byte :=
  match cfg.simSource with
  | .inject => inject
  | .loopBack clk mosi miso => bitOnly miso ((LbDev.run clk mosi (wireBytes trace)).sr.getLsbD 7)
  | .expanders clk mosi miso cs rst straps =>
    bitOnly miso (RxBus.run cfg ⟨clk, mosi, miso⟩ ⟨cs, rst⟩ straps (wireBytes trace)).miso
  | .other n => Config.otherSource n inject trace

end Sys2Proof.Machine
end

