-- ==== Sys2Proof/Machine/Ops.lean ====
section
/-!
DEFINITION. The named operations that every command is written over: the pin slots and masks, link calls, the push, flush and
refresh of the Pin Plane, responses, and error entry (the power-on state, the teardown of a fatal error). The spec has no traps
and no handlers; error entry and recovery take their place (spec/60_exceptions.md).
-/

namespace Sys2Proof.Machine

/-- The outcome of a meaning. -/
abbrev Out := Host.Outcome State Fault Refusal

/-! ## The pin arena -/

/-- `pin[i]` (00 R10, 10 R22). -/
def State.slot (s : State) (i : PinIx) : Option Pin := s.pins[i.toNat]'(i.isLt)

/-- The value of pin `i`; 0 for an absent slot, as in `PinValues` (40 R126). -/
def State.level (s : State) (i : PinIx) : Bool := ((s.slot i).map Pin.value).getD false

/-- `pin[i].value <- b` (00 R10): writes the value field of a present slot; no operation makes an absent slot present (10
R23). -/
def State.setValue (s : State) (i : PinIx) (b : Bool) : State :=
  { s with pins := s.pins.set i.toNat ((s.slot i).map fun p => { p with value := b }) i.isLt }

/-- Slot `i` holds a pin of direction `d`. -/
def State.hasDir (s : State) (i : PinIx) (d : Dir) : Bool := ((s.slot i).map Pin.dir) == some d

/-- `out_mask` (10 R24). -/
def State.outMask (s : State) : Byte := byteOf fun i => s.hasDir i .output

/-- `in_mask` (10 R24). -/
def State.inMask (s : State) : Byte := byteOf fun i => s.hasDir i .input

/-- `active_mask` (10 R24). -/
def State.activeMask (s : State) : Byte := s.outMask ||| s.inMask

/-- `PinByte()`: bit i is set iff pin i is an output and its value is 1 (40 R121, 30 R105). -/
def State.pinByte (s : State) : Byte := byteOf fun i => s.hasDir i .output && s.level i

/-- `PinValues()`: the values of all present pins (40 R126). -/
def State.pinValues (s : State) : Byte := byteOf s.level

/-- Every present input pin takes its bit of the snapshot `b`; outputs and absent slots keep what they have (40 R125). -/
def State.takeSnapshot (s : State) (b : Byte) : State :=
  { s with
    pins := Vector.ofFn fun i =>
      (s.pins[i]).map fun p => if p.dir = .input then { p with value := b.getLsbD i } else p }

/-! ## The link -/

/-- The driver's answer to the next real-mode call: one the environment has ready, else the free value (20 R66). -/
def State.nextAnswer (s : State) : Answer := s.answers.head?.getD (Config.linkAnswer s.draws)

/-- That answer is used up. -/
def State.drawn (s : State) : State := { s with answers := s.answers.tail, draws := s.draws + 1 }

/-- The answer to a link call: in simulation mode `simAnswer`, in real mode a draw (20 R66). -/
def State.takeAnswer (s : State) (simAnswer : Answer) : Answer × State :=
  if s.sim then (simAnswer, s) else (s.nextAnswer, s.drawn)

/-- `LinkCall` for the calls answered `ok | fail`: OPEN, RESET, SET_CLOCK, SET_BITMODE, CLOSE (10 R40, 20 R66). -/
def linkCall (event : Bool → Event) (s : State) : Bool × State :=
  match s.takeAnswer (.ok 0) with
  | (.fail, t) => (false, t.record (event false))
  | (.ok _, t) => (true, t.record (event true))

/-- `LinkCall(WRITE, bytes)`: `none` is `fail`; a count never exceeds the length (10 R40, 20 R66, 92 D48). -/
def linkWrite (bytes : List Byte) (s : State) : Option Nat × State :=
  match s.takeAnswer (.ok bytes.length) with
  | (.fail, t) => (none, t.record (.write bytes none))
  | (.ok n, t) => (some (min n bytes.length), t.record (.write bytes (some (min n bytes.length))))

/-- `LinkCall(READ)`: `none` is `fail`; in simulation mode the answer is `sim_source(inject, trace)` (10 R40, 20 R66). -/
def linkRead (s : State) : Option Byte × State :=
  match s.takeAnswer (.ok (simRead s.cfg s.inject s.trace).toNat) with
  | (.fail, t) => (none, t.record (.read none))
  | (.ok n, t) => (some (BitVec.ofNat 8 n), t.record (.read (some (BitVec.ofNat 8 n))))

/-! ## Procedures that a link failure may end -/

/-- The result of a procedure: it ran to its end, or `LinkFailure(kind)` was raised in the state reached so far (40 R110, 60
R219). -/
inductive Run (α : Type) where
  | done (a : α) (s : State)
  | failed (k : LinkOp) (s : State)
deriving Repr

/-- Run `f` after `r`, unless `r` failed. -/
def Run.andThen {α β : Type} (r : Run α) (f : α → State → Run β) : Run β :=
  match r with
  | .done a s => f a s
  | .failed k s => .failed k s

/-- `AppendHistory(bytes)`: append, then drop the oldest until `HIST_CAP` holds (40 R124). -/
def State.appendHistory (s : State) (bytes : List Byte) : State :=
  { s with history := (s.history ++ bytes).drop ((s.history ++ bytes).length - s.cfg.histCap) }

/-- `Flush()`: the whole buffer as one WRITE; a short write is only flagged (40 R122, R123). -/
def flush (s : State) : Run Unit :=
  match linkWrite s.txbuf s with
  | (none, t) => .failed .write t
  | (some n, t) =>
    .done () { ((t.appendHistory s.txbuf).noteShortWrite n s.txbuf.length) with txbuf := [] }

/-- The buffering half of `PushState`: append `PinByte()` and keep the ghost (40 R120). -/
def State.buffer (s : State) : State :=
  ({ s with txbuf := s.txbuf ++ [s.pinByte] } : State).noteReset s.pinByte

/-- `PushState(flush)` (40 R120). -/
def pushState (force : Bool) (s : State) : Run Unit :=
  if force || s.cfg.maxPacket ≤ s.buffer.txbuf.length then flush s.buffer else .done () s.buffer

/-- `Refresh()`: flush what is pending, READ, and let the input pins take the snapshot (40 R125). -/
def refresh (s : State) : Run Unit :=
  (if s.txbuf = [] then .done () s else flush s).andThen fun _ t =>
    match linkRead t with
    | (none, u) => .failed .read u
    | (some b, u) => .done () (u.takeSnapshot b)

/-! ## Responses and error entry -/

/-- End the command with a response (10 R36, 30 R99). -/
def State.respond (s : State) (status : Status) (data : Byte) : State :=
  { s with responses := s.responses ++ [⟨status, data⟩] }

/-- `return v`: status OK and a data byte (00 R10). -/
def reply (data : Byte) (s : State) : Out := .next (s.respond .ok data)

/-- A non-fatal error: the response alone (60 R219). -/
def refuse (status : Status) (data : Byte) (s : State) : Out := .next (s.respond status data)

/-- REFUSED_STATE: the phase does not accept the command (60 R215). -/
def refuseState (s : State) : Out := refuse .refusedState 0x00#8 s

/-- REFUSED_ENC: an illegal or unassigned word (60 R216). -/
def refuseEnc (s : State) : Out := refuse .refusedEnc 0x00#8 s

/-- `ResetToPowerOn()`: the block's state at its power-on values; the trace, and what is not block state, stay (70 R240, 10
R42). -/
def State.powerOn (s : State) : State :=
  { s with
    phase := .idle
    sim := false
    pins := Vector.replicate 8 none
    txbuf := []
    history := []
    spi := none
    reg := none
    inject := 0#8
    haenOk := false }

/-- CLOSE the link, ignoring the answer, and return to power-on (40 R128, 60 R220). -/
def State.closeDown (s : State) : State := (linkCall .closeLink s).2.powerOn

/-- Error entry, `Fatal(e)`: the teardown, then the error response (60 R220). -/
def fatal (status : Status) (data : Byte) (s : State) : Out := .next (s.closeDown.respond status data)

/-- End a command whose procedure may have failed on the link: OK with the data byte, or the fatal error `status` with the inner
cause (60 R213, R214). -/
def finish (status : Status) (r : Run Byte) : Out :=
  match r with
  | .done v s => reply v s
  | .failed k s => fatal status k.code s

end Sys2Proof.Machine
end

