-- ==== Sys2Proof/Machine/PinPlane.lean ====
section
/-!
DEFINITION. The Pin Plane commands (spec/40_pin_plane.md): PLANE_INIT and its payload entry, SET_PIN, GET_PIN, SET_PINS,
GET_PINS, INJECT and CLOSE.
-/

namespace Sys2Proof.Machine

/-! ## Construction -/

/-- The checks of `Validate` on the entries after those whose indices are `seen` (40 R112). -/
def validateFrom (seen : List Byte) : List Entry → Option CfgReason
  | [] => none
  | .nonPin :: _ => some .nonPin
  | .pin index _ _ _ :: es =>
    if 7 < index.toNat then some .range
    else if index ∈ seen then some .dup
    else validateFrom (index :: seen) es

/-- `Validate(entries)`: the first reason that applies, if one does (40 R112). -/
def validate (entries : List Entry) : Option CfgReason :=
  if entries.isEmpty then some .empty else validateFrom [] entries

/-- `pin[e.index] <- {dir, value, name}` (40 R113). -/
def placeEntry (pins : Vector (Option Pin) 8) : Entry → Vector (Option Pin) 8
  | .pin index dir init name =>
    if h : index.toNat < 8 then pins.set index.toNat (some { dir := dir, value := init, name := name }) h else pins
  | .nonPin => pins

/-- `BuildArena(entries, simflag)` (40 R113). -/
def State.buildArena (s : State) (entries : List Entry) (sim : Bool) : State :=
  { s with
    pins := entries.foldl placeEntry (Vector.replicate 8 none)
    sim := sim
    inject := 0#8
    txbuf := []
    history := []
    spi := none
    reg := none
    haenOk := false }

/-- `OpenLink()` with `attempts` attempts left: true as soon as one is answered `ok`; the backoff follows every failed attempt but
the last (40 R114). -/
def openLink : Nat → State → Bool × State
  | 0, s => (false, s)
  | attempts + 1, s =>
    match linkCall (.openLink s.cfg.deviceIndex) s with
    | (true, t) => (true, t)
    | (false, t) => if attempts = 0 then (false, t) else openLink attempts (t.record (.delayBackoff t.cfg.openBackoff))

/-- `ConfigureLink()`: RESET, SET_CLOCK, SET_BITMODE in this order, up to the first that fails (40 R115). -/
def configureLink (s : State) : Bool × State :=
  match linkCall .resetLink s with
  | (false, t) => (false, t)
  | (true, t) =>
    match linkCall (.setClock t.cfg.clockRate) t with
    | (false, u) => (false, u)
    | (true, u) => linkCall (.setBitMode u.outMask u.cfg.modeAsyncBitbang) u

/-- PLANE_INIT from the open link on: configure, settle, first push (40 R111, R115, R116). -/
def bringUp (s : State) : Out :=
  match configureLink s with
  | (false, t) => fatal .fatalIo fatalConfigure t
  | (true, t) =>
    match pushState true (t.record (.delaySettle t.cfg.settleDelay)) with
    | .done _ u => reply 0x00#8 u
    | .failed _ u => fatal .fatalIo fatalFirstPush u

/-- PLANE_INIT after its checks: arena, link, bring-up. When every open attempt failed, nothing is open, so nothing is closed
(40 R111, R114). -/
def construct (entries : List Entry) (sim : Bool) (s : State) : Out :=
  match openLink s.cfg.openAttempts (s.buildArena entries sim) with
  | (false, t) => .next (t.powerOn.respond .fatalIo fatalOpen)
  | (true, t) => bringUp { t with phase := .plane }

/-- PLANE_INIT (40 R111). -/
def execPlaneInit (entries : List Entry) (sim : Bool) (s : State) : Out :=
  if s.phase = .idle then
    match validate entries with
    | some reason => refuse .cfgErr reason.code s
    | none => construct entries sim s
  else refuseState s

/-- PLANE_INIT_ENTRY: a pin entry word. In the payload position it is the next entry of the PLANE_INIT being received (30 R83,
R84); anywhere else its OP 0x50 is unassigned (30 R98). -/
def execPlaneInitEntry (index : Byte) (dir : Dir) (init : Bool) (name : Byte) (s : State) : Out :=
  match s.intake with
  | none => refuseEnc s
  | some k =>
    match k.need with
    | 0 => refuseEnc s
    | need + 1 =>
      .next { s with intake := some { k with need := need, entries := k.entries ++ [.pin index dir init name] } }

/-! ## Pins, pushes and reads -/

/-- A plane exists: the phase is PLANE, SPI or READY (10 R20, 60 R215). -/
def State.open (s : State) : Bool := s.phase != .idle

/-- SET_PIN (40 R118). -/
def execSetPin (i : PinIx) (v : Bool) (s : State) : Out :=
  if s.open then
    if (s.slot i).isSome then reply 0x00#8 (s.setValue i v) else refuse .noPin (i.zeroExtend 8) s
  else refuseState s

/-- GET_PIN's answer: bit 0 present, bit 1 the direction, bit 2 the value; 0x00 for an absent slot (40 R119, 30 R86). -/
def pinReport : Option Pin → Byte
  | none => 0x00#8
  | some p => 0#5 ++ BitVec.ofBool p.value ++ BitVec.ofBool (p.dir == .output) ++ 1#1

/-- GET_PIN (40 R119). -/
def execGetPin (i : PinIx) (s : State) : Out :=
  if s.open then reply (pinReport (s.slot i)) s else refuseState s

/-- SET_PINS (40 R120). -/
def execSetPins (force : Bool) (s : State) : Out :=
  if s.open then finish .ioErr ((pushState force s).andThen fun _ t => .done 0x00#8 t) else refuseState s

/-- GET_PINS (40 R125, R126). -/
def execGetPins (s : State) : Out :=
  if s.open then finish .ioErr ((refresh s).andThen fun _ t => .done t.pinValues t) else refuseState s

/-- INJECT, only in simulation mode (40 R127). -/
def execInject (v : Byte) (s : State) : Out :=
  if s.open && s.sim then reply 0x00#8 { s with inject := v } else refuseState s

/-- CLOSE (40 R128). -/
def execClose (s : State) : Out :=
  if s.open then reply 0x00#8 s.closeDown else refuseState s

end Sys2Proof.Machine
end

