-- ==== Sys2Proof/Machine/Spi.lean ====
section
/-!
DEFINITION. The Bit-Bang SPI commands, mode 0 (spec/41_spi.md): SPI_BIND, SPI_SEND, SPI_RECV.
-/

namespace Sys2Proof.Machine

/-! ## Binding -/

/-- The check of one bound pin: `MISSING` if the slot is absent, `DIRECTION` if it is not `d` (41 R151). -/
def State.checkPin (s : State) (i : PinIx) (d : Dir) : Option CfgReason :=
  match s.slot i with
  | none => some .missing
  | some p => if p.dir = d then none else some .direction

/-- `CheckSpiPins(c, mo, mi)`: the first failing reason, if any (41 R151). -/
def State.checkSpiPins (s : State) (p : SpiPins) : Option CfgReason :=
  if p.clk = p.mosi ∨ p.clk = p.miso ∨ p.mosi = p.miso then some .notDistinct
  else (s.checkPin p.clk .output).or ((s.checkPin p.mosi .output).or (s.checkPin p.miso .input))

/-- SPI_BIND (41 R150); a failing check is fatal (60 R210, R220). -/
def execSpiBind (clk mosi miso : PinIx) (s : State) : Out :=
  if s.phase = .plane ∨ s.phase = .spi then
    match s.checkSpiPins ⟨clk, mosi, miso⟩ with
    | some reason => fatal .cfgErr reason.code s
    | none => reply 0x00#8 { s with spi := some ⟨clk, mosi, miso⟩, phase := .spi }
  else refuseState s

/-! ## Transfers -/

/-- `ClockIdleFix()`: a clock that is not low is corrected, flagged and pushed without a flush (41 R152). -/
def clockIdleFix (p : SpiPins) (s : State) : Run Unit :=
  if s.level p.clk then pushState false ((s.record .clkNotIdle).setValue p.clk false) else .done () s

/-- One bit of a send: clock low with the bit on MOSI, then clock high, neither flushed (41 R153). -/
def sendBit (p : SpiPins) (b : Bool) (s : State) : Run Unit :=
  (pushState false ((s.setValue p.clk false).setValue p.mosi b)).andThen fun _ t =>
    pushState false (t.setValue p.clk true)

/-- The bits of a send, in order (41 R153). -/
def sendBits (p : SpiPins) : List Bool → State → Run Unit
  | [], s => .done () s
  | b :: bs, s => (sendBit p b s).andThen fun _ t => sendBits p bs t

/-- `SpiSend(v)` (41 R153). -/
def spiSend (p : SpiPins) (v : Byte) (s : State) : Run Unit :=
  (clockIdleFix p s).andThen fun _ t =>
    (sendBits p (bitsMsb v) t).andThen fun _ u => pushState true (u.setValue p.clk false)

/-- One bit of a receive: Refresh, sample MISO into the accumulator, rising edge, falling edge, each flushed (41 R155, R156). -/
def recvBit (p : SpiPins) (acc : Byte) (s : State) : Run Byte :=
  (refresh s).andThen fun _ t =>
    (pushState true (t.setValue p.clk true)).andThen fun _ u =>
      (pushState true (u.setValue p.clk false)).andThen fun _ w => .done (shiftIn acc (t.level p.miso)) w

/-- `k` bits of a receive (41 R155). -/
def recvBits (p : SpiPins) : Nat → Byte → State → Run Byte
  | 0, acc, s => .done acc s
  | k + 1, acc, s => (recvBit p acc s).andThen fun acc' t => recvBits p k acc' t

/-- `SpiRecv()` (41 R155). -/
def spiRecv (p : SpiPins) (s : State) : Run Byte :=
  (clockIdleFix p s).andThen fun _ t => recvBits p 8 0x00#8 t

/-- An SPI Link is bound: the phase is SPI or READY (10 R20, 60 R215). -/
def State.linked (s : State) : Bool := s.phase == .spi || s.phase == .ready

/-- SPI_SEND (41 R153). -/
def execSpiSend (v : Byte) (s : State) : Out :=
  if s.linked then
    match s.spi with
    | none => .fault .spiUnbound
    | some p => finish .ioErr ((spiSend p v s).andThen fun _ t => .done 0x00#8 t)
  else refuseState s

/-- SPI_RECV (41 R155). -/
def execSpiRecv (s : State) : Out :=
  if s.linked then
    match s.spi with
    | none => .fault .spiUnbound
    | some p => finish .ioErr (spiRecv p s)
  else refuseState s

end Sys2Proof.Machine
end

