-- ==== Sys2Proof/Machine/RegProtocol.lean ====
section
/-!
DEFINITION. The Register Protocol commands (spec/42_register_protocol.md): REG_BIND with the device reset and the HAEN broadcast,
REG_WRITE, REG_READ, and the two bus frames by themselves.
-/

namespace Sys2Proof.Machine

/-! ## Frames -/

/-- `CsAssert()`: chip-select low, buffered (42 R187). -/
def csAssert (r : RegPins) (s : State) : Run Unit := pushState false (s.setValue r.cs false)

/-- `CsRelease()`: chip-select high, flushed (42 R187). -/
def csRelease (r : RegPins) (s : State) : Run Unit := pushState true (s.setValue r.cs true)

/-- `RegWriteFrame(dev, reg, data)` (42 R188). -/
def writeFrame (p : SpiPins) (r : RegPins) (dev : DevAddr) (reg data : Byte) (s : State) : Run Unit :=
  (csAssert r s).andThen fun _ s1 =>
    (spiSend p (opcode s1.cfg.opcNibble dev false) s1).andThen fun _ s2 =>
      (spiSend p (regByte reg) s2).andThen fun _ s3 =>
        (spiSend p data s3).andThen fun _ s4 => csRelease r s4

/-- The read frame of REG_READ (42 R189). -/
def readFrame (p : SpiPins) (r : RegPins) (dev : DevAddr) (reg : Byte) (s : State) : Run Byte :=
  (csAssert r s).andThen fun _ s1 =>
    (spiSend p (opcode s1.cfg.opcNibble dev true) s1).andThen fun _ s2 =>
      (spiSend p (regByte reg) s2).andThen fun _ s3 =>
        (spiRecv p s3).andThen fun v s4 => (csRelease r s4).andThen fun _ s5 => .done v s5

/-! ## Binding -/

/-- `CheckRegPins(c, mo, mi, cs, rst)`: the first failing reason, if any (42 R182). -/
def State.checkRegPins (s : State) (p : SpiPins) (r : RegPins) : Option CfgReason :=
  if ¬ [p.clk, p.mosi, p.miso, r.cs, r.rst].Nodup then some .notDistinct
  else (s.checkPin r.cs .output).or ((s.checkPin r.rst .output).or (s.checkSpiPins p))

/-- `DeviceReset()`: CS inactive and RST low, then RST high, each flushed (42 R184). -/
def deviceReset (r : RegPins) (s : State) : Run Unit :=
  (pushState true ((s.setValue r.cs true).setValue r.rst false)).andThen fun _ t =>
    pushState true (t.setValue r.rst true)

/-- `HaenBroadcast()`: one register write to device 0, then the ghost is set (42 R185). -/
def haenBroadcast (p : SpiPins) (r : RegPins) (s : State) : Run Unit :=
  (writeFrame p r 0#3 (s.cfg.ctrlReg.zeroExtend 8) (s.cfg.ctrlDefault ||| s.cfg.haenMask) s).andThen fun _ t =>
    .done () { t with haenOk := true }

/-- REG_BIND once its checks pass: both bindings, the device reset, the broadcast, phase READY (42 R182, R183). -/
def bindAndBroadcast (p : SpiPins) (r : RegPins) (s : State) : Run Byte :=
  (deviceReset r { s with spi := some p, reg := some r }).andThen fun _ t =>
    (haenBroadcast p r t).andThen fun _ u => .done 0x00#8 { u with phase := .ready }

/-- REG_BIND (42 R182); a failing check is fatal, and so is a link failure (42 R190). -/
def execRegBind (clk mosi miso cs rst : PinIx) (s : State) : Out :=
  if s.open then
    match s.checkRegPins ⟨clk, mosi, miso⟩ ⟨cs, rst⟩ with
    | some reason => fatal .cfgErr reason.code s
    | none => finish .regAccessErr (bindAndBroadcast ⟨clk, mosi, miso⟩ ⟨cs, rst⟩ s)
  else refuseState s

/-! ## Register access -/

/-- What REG_WRITE, REG_READ and the frames need: phase READY (60 R215) and both bindings (10 R29, R30). -/
def State.withBus (s : State) (k : SpiPins → RegPins → Out) : Out :=
  if s.phase = .ready then
    match s.spi, s.reg with
    | none, _ => .fault .spiUnbound
    | some _, none => .fault .regUnbound
    | some p, some r => k p r
  else refuseState s

/-- REG_WRITE (42 R188). -/
def execRegWrite (dev : DevAddr) (reg data : Byte) (s : State) : Out :=
  s.withBus fun p r =>
    finish .regAccessErr ((writeFrame p r dev reg data (s.orderCheck dev)).andThen fun _ t => .done 0x00#8 t)

/-- REG_READ (42 R189). -/
def execRegRead (dev : DevAddr) (reg : Byte) (s : State) : Out :=
  s.withBus fun p r => finish .regAccessErr (readFrame p r dev reg (s.orderCheck dev))

/-- FRAME_WR: the write frame of R188 by itself, which follows REG_WRITE's order check (30 R104, 42 R188). -/
def execFrameWr (dev : DevAddr) (reg : BitVec 5) (data : Byte) (s : State) : Out :=
  s.withBus fun p r =>
    finish .regAccessErr ((writeFrame p r dev (reg.zeroExtend 8) data s).andThen fun _ t => .done 0x00#8 t)

/-- FRAME_RD: the read frame of R189 by itself, which follows REG_READ's order check (30 R104, 42 R189). -/
def execFrameRd (dev : DevAddr) (reg : BitVec 5) (s : State) : Out :=
  s.withBus fun p r => finish .regAccessErr (readFrame p r dev (reg.zeroExtend 8) s)

end Sys2Proof.Machine
end

