-- ==== Sys2Proof/Machine/Dispatch.lean ====
section
/-!
DEFINITION. One arm per constructor of Instr, each a direct call of that instruction's meaning.
-/

namespace Sys2Proof.Machine

def exec (i : Instr) (s : State) : Host.Outcome State Fault Refusal :=
  match i with
  | .planeInit entries sim => Sys2Proof.Machine.execPlaneInit entries sim s
  | .close => Sys2Proof.Machine.execClose s
  | .setPin n v => Sys2Proof.Machine.execSetPin n v s
  | .getPin n => Sys2Proof.Machine.execGetPin n s
  | .setPins flush => Sys2Proof.Machine.execSetPins flush s
  | .getPins => Sys2Proof.Machine.execGetPins s
  | .inject v => Sys2Proof.Machine.execInject v s
  | .spiBind clk mosi miso => Sys2Proof.Machine.execSpiBind clk mosi miso s
  | .spiSend v => Sys2Proof.Machine.execSpiSend v s
  | .spiRecv => Sys2Proof.Machine.execSpiRecv s
  | .regBind clk mosi miso cs rst => Sys2Proof.Machine.execRegBind clk mosi miso cs rst s
  | .regWrite dev reg data => Sys2Proof.Machine.execRegWrite dev reg data s
  | .regRead dev reg => Sys2Proof.Machine.execRegRead dev reg s
  | .planeInitEntry index dir init name => Sys2Proof.Machine.execPlaneInitEntry index dir init name s
  | .frameWr dev reg data => Sys2Proof.Machine.execFrameWr dev reg data s
  | .frameRd dev reg => Sys2Proof.Machine.execFrameRd dev reg s

end Sys2Proof.Machine
end

