-- ==== Sys2Proof/WellFormed.lean ====
section
/-!
DEFINITION. Which instruction terms an encoding exists for. Every operand width is in its type; the one bound left is the
payload count N of PLANE_INIT, which is the 8-bit operand A (spec/30_encoding.md R83).
-/

namespace Sys2Proof

/-- `i` has an encoding: PLANE_INIT carries at most 255 entries (R83, R111). -/
def Instr.wellFormed : Instr → Bool
  | .planeInit entries _ => entries.length ≤ 255
  | .close => true
  | .setPin _ _ => true
  | .getPin _ => true
  | .setPins _ => true
  | .getPins => true
  | .inject _ => true
  | .spiBind _ _ _ => true
  | .spiSend _ => true
  | .spiRecv => true
  | .regBind _ _ _ _ _ => true
  | .regWrite _ _ _ => true
  | .regRead _ _ => true
  | .planeInitEntry _ _ _ _ => true
  | .frameWr _ _ _ => true
  | .frameRd _ _ => true

end Sys2Proof
end

