-- ==== Sys2Proof/Decode.lean ====
section
/-!
DEFINITION. The decoders of the spec's three formats (spec/30_encoding.md): the command word with PLANE_INIT's payload
(CMD32, R81 to R83, R85 to R98), the payload entry word (ENTRY32, R84) and the opcode byte of a bus frame with the bytes
that follow it (BUSOP8, R103, R104); and after them the encoder, written from the same tables.
A word decodes to a row iff its bits under the row's mask are the row's match (R82); everything else is refused.
-/

namespace Sys2Proof

/-! ## Fields of a word -/

/-- `word[31:24]`, the OP of a command word and the TAG of an entry word (R81, R84). -/
def Word.op (w : Word) : Byte := w.extractLsb' 24 8

/-- `word[23:16]`, operand A (R81). -/
def Word.fieldA (w : Word) : Byte := w.extractLsb' 16 8

/-- `word[15:8]`, operand B (R81). -/
def Word.fieldB (w : Word) : Byte := w.extractLsb' 8 8

/-- `word[7:0]`, operand C (R81). -/
def Word.fieldC (w : Word) : Byte := w.extractLsb' 0 8

/-- The direction a DIR bit names (R84): 1 = output, 0 = input. -/
def Dir.ofBit (b : Bool) : Dir := if b then .output else .input

/-- The DIR bit of a direction (R84). -/
def Dir.bit : Dir → Bool
  | .input => false
  | .output => true

/-! ## The payload entry word -/

/-- The entry a payload word stands for (R84): a TAG other than 0x50 is a non-pin entry; with TAG 0x50, a reserved bit
15:10 makes the word an illegal pin entry (`none`, R97). -/
def decodeEntry (w : Word) : Option Entry :=
  if Word.op w = 0x50#8 then
    if w &&& 0xFF00FC00#32 = 0x50000000#32 then
      some (.pin (Word.fieldA w) (Dir.ofBit (w.getLsbD 8)) (w.getLsbD 9) (Word.fieldC w))
    else none
  else some .nonPin

/-! ## The command word -/

/-- What a word in the command position is. -/
inductive Head where
  /-- A whole command of one word. -/
  | one (i : Instr)
  /-- A PLANE_INIT word (OP 0x01): `n` payload words follow; `legal` says that no reserved bit is set (R83, R97). -/
  | planeInit (n : Nat) (sim legal : Bool)
  /-- An unassigned OP (R98) or a reserved bit set (R97). -/
  | illegal
deriving DecidableEq, Repr

/-- The opcode map (R82): the word's OP selects the row, and the row's mask and match decide. An OP that is not in the map
is unassigned (R98). PLANE_INIT's length comes from OP and A alone (R100). -/
def decodeCommand (w : Word) : Head :=
  if Word.op w = 0x01#8 then
    .planeInit (Word.fieldA w).toNat (w.getLsbD 8) (w &&& 0xFF00FEFF#32 = 0x01000000#32)
  else if w &&& 0xFFFFFFFF#32 = 0x02000000#32 then .one .close
  else if w &&& 0xFFF8FEFF#32 = 0x03000000#32 then .one (.setPin (w.extractLsb' 16 3) (w.getLsbD 8))
  else if w &&& 0xFFF8FFFF#32 = 0x04000000#32 then .one (.getPin (w.extractLsb' 16 3))
  else if w &&& 0xFFFEFFFF#32 = 0x05000000#32 then .one (.setPins (w.getLsbD 16))
  else if w &&& 0xFFFFFFFF#32 = 0x06000000#32 then .one .getPins
  else if w &&& 0xFF00FFFF#32 = 0x07000000#32 then .one (.inject (Word.fieldA w))
  else if w &&& 0xFFF8F8F8#32 = 0x10000000#32 then
    .one (.spiBind (w.extractLsb' 16 3) (w.extractLsb' 8 3) (w.extractLsb' 0 3))
  else if w &&& 0xFF00FFFF#32 = 0x11000000#32 then .one (.spiSend (Word.fieldA w))
  else if w &&& 0xFFFFFFFF#32 = 0x12000000#32 then .one .spiRecv
  else if w &&& 0xFFFF8000#32 = 0x20000000#32 then
    .one (.regBind (w.extractLsb' 12 3) (w.extractLsb' 9 3) (w.extractLsb' 6 3) (w.extractLsb' 3 3) (w.extractLsb' 0 3))
  else if w &&& 0xFFF80000#32 = 0x21000000#32 then
    .one (.regWrite (w.extractLsb' 16 3) (Word.fieldB w) (Word.fieldC w))
  else if w &&& 0xFFF800FF#32 = 0x22000000#32 then .one (.regRead (w.extractLsb' 16 3) (Word.fieldB w))
  else .illegal

/-- The entries of a payload, in list order; `none` if one word is an illegal pin entry (R97). -/
def decodePayload : List Word → Option (List Entry)
  | [] => some []
  | w :: ws =>
    match decodeEntry w, decodePayload ws with
    | some e, some es => some (e :: es)
    | _, _ => none

/-- A command from all of its words (R100): one word, or a PLANE_INIT word and its `N` payload words. -/
def decodeWords : List Word → Option Instr
  | [] => none
  | w :: payload =>
    match decodeCommand w with
    | .one i => if payload.isEmpty then some i else none
    | .planeInit n sim legal =>
      if legal = true ∧ payload.length = n then (decodePayload payload).map (.planeInit · sim) else none
    | .illegal => none

/-! ## The bus frame -/

/-- What the bytes at the framer are. -/
inductive BusHead where
  /-- A frame of the block, and the bytes after it. -/
  | frame (i : Instr) (rest : List Byte)
  /-- The opcode byte, but not yet every byte that its frame has. -/
  | incomplete
  /-- An opcode byte with another high nibble, or a register byte with a bit of 7:5 set: no frame of the block (R103,
  R104). -/
  | foreign
deriving DecidableEq, Repr

/-- A frame from its bytes (R103, R104): the opcode byte `{OPC_NIBBLE, dev, rw}`, the register byte `{0b000, reg}` and, for
a write, the data byte. -/
def decodeBus (nibble : BitVec 4) : List Byte → BusHead
  | [] => .incomplete
  | op :: rest =>
    if op.extractLsb' 4 4 = nibble then
      match op.getLsbD 0, rest with
      | false, r :: d :: more =>
        if r.extractLsb' 5 3 = 0#3 then .frame (.frameWr (op.extractLsb' 1 3) (r.extractLsb' 0 5) d) more else .foreign
      | true, r :: more =>
        if r.extractLsb' 5 3 = 0#3 then .frame (.frameRd (op.extractLsb' 1 3) (r.extractLsb' 0 5)) more else .foreign
      | _, _ => .incomplete
    else .foreign

/-! ## The three formats together -/

/-- An instruction as it is laid out in its format: the words of a command at the host port, one payload entry word, or the
bytes of a bus frame. -/
inductive Wire where
  | command (ws : List Word)
  | entry (w : Word)
  | bus (bs : List Byte)
deriving DecidableEq, Repr

/-- The instruction a layout stands for; total, and `none` wherever the spec refuses. A bus frame depends on the parameter
`OPC_NIBBLE` (R103). -/
def decodeWire (nibble : BitVec 4) : Wire → Option Instr
  | .command ws => decodeWords ws
  | .entry w =>
    match decodeEntry w with
    | some (.pin index dir init name) => some (.planeInitEntry index dir init name)
    | _ => none
  | .bus bs =>
    match decodeBus nibble bs with
    | .frame i [] => some i
    | _ => none

/-- The high nibble that opcode_table.json's BUSOP8 rows are written with (the spec's default, R104, 93 G1). -/
def tableNibble : BitVec 4 := 0b0100#4

/-- The layout of a table row's bits `w`, every bit above `nbits` being 0: 8-bit rows are the opcode byte of a frame whose
other bytes are 0; a word with TAG 0x50 is a payload entry; any other word is a command, PLANE_INIT with `N` zero payload
words. -/
def tableWire (nbits w : Nat) : Wire :=
  if nbits ≤ 8 then
    let b := BitVec.ofNat 8 w
    .bus (if b.getLsbD 0 then [b, 0#8] else [b, 0#8, 0#8])
  else
    let x := BitVec.ofNat 32 w
    if Word.op x = 0x50#8 then .entry x
    else if Word.op x = 0x01#8 then .command (x :: List.replicate (Word.fieldA x).toNat 0#32)
    else .command [x]

end Sys2Proof

/-- The instruction the decoder reads from a row of opcode_table.json, numbered as the table numbers its bits. -/
def Sys2Proof.decodeTableWord (nbits w : Nat) : Option Instr :=
  decodeWire tableNibble (tableWire nbits w)

namespace Sys2Proof

/-! ## The encoder -/

/-- A word from its four fields (R81). -/
def Word.pack (op a b c : Byte) : Word := op ++ a ++ b ++ c

/-- A bit as a byte, the bit at position 0. -/
def bitByte (b : Bool) : Byte := (BitVec.ofBool b).zeroExtend 8

/-- A payload word (R84): a pin entry with its reserved bits 0; a non-pin entry, whose bits 23:0 are ignored, as 0. -/
def encodeEntry : Entry → Word
  | .pin index dir init name =>
    Word.pack 0x50#8 index (0#6 ++ BitVec.ofBool init ++ BitVec.ofBool dir.bit) name
  | .nonPin => 0#32

/-- The layout of an instruction in its format (R82 to R96, R103). -/
def encode (nibble : BitVec 4) : Instr → Wire
  | .planeInit entries sim =>
    .command (Word.pack 0x01#8 (BitVec.ofNat 8 entries.length) (bitByte sim) 0#8 :: entries.map encodeEntry)
  | .close => .command [Word.pack 0x02#8 0#8 0#8 0#8]
  | .setPin i v => .command [Word.pack 0x03#8 (i.zeroExtend 8) (bitByte v) 0#8]
  | .getPin i => .command [Word.pack 0x04#8 (i.zeroExtend 8) 0#8 0#8]
  | .setPins flush => .command [Word.pack 0x05#8 (bitByte flush) 0#8 0#8]
  | .getPins => .command [Word.pack 0x06#8 0#8 0#8 0#8]
  | .inject v => .command [Word.pack 0x07#8 v 0#8 0#8]
  | .spiBind clk mosi miso =>
    .command [Word.pack 0x10#8 (clk.zeroExtend 8) (mosi.zeroExtend 8) (miso.zeroExtend 8)]
  | .spiSend v => .command [Word.pack 0x11#8 v 0#8 0#8]
  | .spiRecv => .command [Word.pack 0x12#8 0#8 0#8 0#8]
  | .regBind clk mosi miso cs rst =>
    .command [0x20#8 ++ 0#9 ++ clk ++ mosi ++ miso ++ cs ++ rst]
  | .regWrite dev reg data => .command [Word.pack 0x21#8 (dev.zeroExtend 8) reg data]
  | .regRead dev reg => .command [Word.pack 0x22#8 (dev.zeroExtend 8) reg 0#8]
  | .planeInitEntry index dir init name => .entry (encodeEntry (.pin index dir init name))
  | .frameWr dev reg data => .bus [nibble ++ dev ++ 0#1, 0#3 ++ reg, data]
  | .frameRd dev reg => .bus [nibble ++ dev ++ 1#1, 0#3 ++ reg]

end Sys2Proof
end

