-- ==== Sys2Proof/Machine/Fetch.lean ====
section
/-!
DEFINITION. What the next step takes: the block runs no code (spec/20_memory.md R74), so an instruction comes from the host port,
a word at a time (spec/30_encoding.md R81, R100), or stands at the framer as a bus frame. Assumption log 1, 2, 3, 10, 15.
-/

namespace Sys2Proof.Machine

/-- What the next step finds. -/
inductive Fetched where
  /-- Nothing to take, or a frame whose bytes are not all there: the block is idle (60 R229). -/
  | idle
  /-- Instruction `i`, to run in `s`, which has taken its words. -/
  | run (i : Instr) (s : State)
  /-- A word was received that completes no command. -/
  | receive (s : State)
  /-- A command refused with REFUSED_ENC, in `s`, which has taken its words (30 R97, R98). -/
  | refuse (s : State)
  /-- No frame of the block. -/
  | stop (r : Refusal)
deriving DecidableEq, Repr

/-- The frame that stands at the framer (30 R103, R104). -/
def fetchFrame (s : State) : Fetched :=
  match decodeBus s.cfg.opcNibble s.busIn with
  | .frame i rest => .run i { s with busIn := rest }
  | .incomplete => .idle
  | .foreign => .stop .notAFrame

/-- The payload of a PLANE_INIT: its words one by one (30 R83, R84); when all are there, the command, or its refusal if its word or
one of its entries is illegal (R97). -/
def fetchPayload (k : Intake) (s : State) : Fetched :=
  match k.need with
  | 0 =>
    if k.illegal then .refuse { s with intake := none }
    else .run (.planeInit k.entries k.sim) { s with intake := none }
  | need + 1 =>
    match s.port with
    | [] => .idle
    | w :: ws =>
      match decodeEntry w with
      | some (.pin index dir init name) => .run (.planeInitEntry index dir init name) { s with port := ws }
      | some .nonPin =>
        .receive { s with port := ws, intake := some { k with need := need, entries := k.entries ++ [.nonPin] } }
      | none => .receive { s with port := ws, intake := some { k with need := need, illegal := true } }

/-- A word in the command position (30 R82, R83, R98). -/
def fetchCommand (s : State) : Fetched :=
  match s.port with
  | [] => .idle
  | w :: ws =>
    match decodeCommand w with
    | .one i => .run i { s with port := ws }
    | .planeInit n sim legal =>
      .receive { s with port := ws, intake := some { sim := sim, illegal := !legal, need := n, entries := [] } }
    | .illegal => .refuse { s with port := ws }

/-- What the next step finds: a frame at the framer first, then the payload being received, then the next command. -/
def fetch (s : State) : Fetched :=
  match s.busIn, s.intake with
  | _ :: _, _ => fetchFrame s
  | [], some k => fetchPayload k s
  | [], none => fetchCommand s

/-- Place the layout of one instruction where `fetch` takes its next one: a command word at the front of the port; a PLANE_INIT with
its payload received; an entry word in the payload position of a PLANE_INIT that has one word to come; a frame at the framer, with
the table's nibble as the machine's `OPC_NIBBLE`. -/
def State.place (s : State) : Wire → State
  | .bus bs => { s with busIn := bs, cfg := { s.cfg with opcNibble := tableNibble } }
  | .entry w =>
    { s with
      busIn := [], port := w :: s.port
      intake := some { sim := false, illegal := false, need := 1, entries := [] } }
  | .command [] => s
  | .command (w :: payload) =>
    match decodeCommand w with
    | .planeInit n sim legal =>
      { s with
        busIn := []
        intake := some
          { sim := sim, illegal := !legal || (decodePayload payload).isNone, need := n - payload.length
            entries := (decodePayload payload).getD [] } }
    | _ => { s with busIn := [], intake := none, port := w :: s.port }

end Sys2Proof.Machine
end

