-- ==== Sys2Proof/Machine/Step.lean ====
section
/-!
DEFINITION. One step of the machine: run what the fetch finds.
-/

namespace Sys2Proof.Machine

/-- One step: the next instruction in the state that has taken its words; a received word; a refused command's response; or, with
nothing to take, no change (spec/60_exceptions.md R229). -/
def step (s : State) : Host.Outcome State Fault Refusal :=
  match fetch s with
  | .idle => .next s
  | .run i t => exec i t
  | .receive t => .next t
  | .refuse t => refuseEnc t
  | .stop r => .refused r

/-- `s` with the instruction of a table row placed where the next step takes it. -/
def State.withFetchWord (s : State) (nbits w : Nat) : State := s.place (tableWire nbits w)

end Sys2Proof.Machine
end

