-- ==== Sys2Proof/Safety.lean ====
section
/-!
DEFINITION. What claims are stated in: which commands a phase accepts, what the link will answer, the bytes on the wire, the pin
states that a transfer and a frame push, what a command leaves alone, and the invariant of the machine.
-/

namespace Sys2Proof.Machine

/-! ## The opcode map as rows -/

/-- The one-word rows of the opcode map: OP, mask, match (30 R82). -/
def commandRows : List (Byte × Word × Word) :=
  [(0x02#8, 0xFFFFFFFF#32, 0x02000000#32), (0x03#8, 0xFFF8FEFF#32, 0x03000000#32), (0x04#8, 0xFFF8FFFF#32, 0x04000000#32),
   (0x05#8, 0xFFFEFFFF#32, 0x05000000#32), (0x06#8, 0xFFFFFFFF#32, 0x06000000#32), (0x07#8, 0xFF00FFFF#32, 0x07000000#32),
   (0x10#8, 0xFFF8F8F8#32, 0x10000000#32), (0x11#8, 0xFF00FFFF#32, 0x11000000#32), (0x12#8, 0xFFFFFFFF#32, 0x12000000#32),
   (0x20#8, 0xFFFF8000#32, 0x20000000#32), (0x21#8, 0xFFF80000#32, 0x21000000#32), (0x22#8, 0xFFF800FF#32, 0x22000000#32)]

/-- The assigned OP values (30 R82, R98). -/
def assignedOps : List Byte :=
  [0x01#8, 0x02#8, 0x03#8, 0x04#8, 0x05#8, 0x06#8, 0x07#8, 0x10#8, 0x11#8, 0x12#8, 0x20#8, 0x21#8, 0x22#8]

/-- The machine waits for a command word: no frame at the framer, no PLANE_INIT being received. -/
def State.AwaitsCommand (s : State) : Prop := s.busIn = [] ∧ s.intake = none

/-! ## The phase table -/

/-- The phase, and for INJECT the mode, accepts the instruction (60 R215). The bus frames go with REG_WRITE and REG_READ; a payload
entry is no command, so no phase refuses it. -/
def accepts : Instr → State → Bool
  | .planeInit _ _, s => s.phase == .idle
  | .close, s => s.phase != .idle
  | .setPin _ _, s => s.phase != .idle
  | .getPin _, s => s.phase != .idle
  | .setPins _, s => s.phase != .idle
  | .getPins, s => s.phase != .idle
  | .inject _, s => s.phase != .idle && s.sim
  | .spiBind _ _ _, s => s.phase == .plane || s.phase == .spi
  | .spiSend _, s => s.phase == .spi || s.phase == .ready
  | .spiRecv, s => s.phase == .spi || s.phase == .ready
  | .regBind _ _ _ _ _, s => s.phase != .idle
  | .regWrite _ _ _, s => s.phase == .ready
  | .regRead _ _, s => s.phase == .ready
  | .planeInitEntry _ _ _ _, _ => true
  | .frameWr _ _ _, s => s.phase == .ready
  | .frameRd _ _, s => s.phase == .ready

/-! ## The link's answers -/

/-- The driver's answer to the `n`-th real-mode call from now on, counting from 0 (20 R66). -/
def State.answerAt (s : State) (n : Nat) : Answer := s.answers[n]?.getD (Config.linkAnswer (s.draws + n))

/-- None of the next `k` link calls fails: simulation mode (20 R66), or no `fail` among the next `k` answers. -/
abbrev State.linkGood (s : State) (k : Nat) : Prop := s.sim = true ∨ ∀ n, n < k → s.answerAt n ≠ .fail

/-! ## Bytes and events -/

/-- The bytes of every WRITE that did not fail, in order (40 R122, R124). -/
def sent : List Event → List Byte
  | [] => []
  | .write bytes (some _) :: es => bytes ++ sent es
  | _ :: es => sent es

/-- Every byte pushed and not lost to a failed WRITE: the bytes sent, then those still buffered (20 R71). -/
def State.stream (s : State) : List Byte := sent s.trace ++ s.txbuf

/-- The answers of the READs, in order (`none` is `fail`). -/
def readAnswers : List Event → List (Option Byte)
  | [] => []
  | .read a :: es => a :: readAnswers es
  | _ :: es => readAnswers es

/-- The WRITEs, in order. -/
def writeCalls : List Event → List (List Byte)
  | [] => []
  | .write bytes _ :: es => bytes :: writeCalls es
  | _ :: es => writeCalls es

/-- The last `n` elements of a list. -/
def lastOf {α : Type} (n : Nat) (l : List α) : List α := l.drop (l.length - n)

/-- The link is open after these events, if it was as `was` before them (10 R39): a successful OPEN opens it, CLOSE closes it. -/
def linkOpenFrom (was : Bool) : List Event → Bool
  | [] => was
  | .openLink _ true :: es => linkOpenFrom true es
  | .closeLink _ :: es => linkOpenFrom false es
  | _ :: es => linkOpenFrom was es

/-- The bytes sent since the last successful OPEN, where `acc` were sent before these events (40 R124). -/
def sentSinceOpen (acc : List Byte) : List Event → List Byte
  | [] => acc
  | .openLink _ true :: es => sentSinceOpen [] es
  | .write bytes (some _) :: es => sentSinceOpen (acc ++ bytes) es
  | _ :: es => sentSinceOpen acc es

/-- A WRITE carries 1 to `MAX_PACKET` bytes and is answered with at most that many (10 R40, 40 R122). -/
def Event.legal (maxPacket : Nat) : Event → Bool
  | .write bytes answer => 1 ≤ bytes.length && bytes.length ≤ maxPacket && (answer.getD 0) ≤ bytes.length
  | _ => true

/-- The trace without its ORDER_VIOLATION diagnostics (10 R41). -/
def withoutOrderFlags : List Event → List Event
  | [] => []
  | .orderViolation _ :: es => withoutOrderFlags es
  | e :: es => e :: withoutOrderFlags es

/-- The READs and WRITEs, in order, whatever they were answered. -/
def linkOps : List Event → List LinkOp
  | [] => []
  | .write _ _ :: es => .write :: linkOps es
  | .read _ :: es => .read :: linkOps es
  | _ :: es => linkOps es

/-! ## The link calls of a command -/

/-- How many WRITEs `pushed` bytes take whose last one is flushed: ceil(pushed / MAX_PACKET) (41 R154). -/
def State.writesOf (s : State) (pushed : Nat) : List LinkOp :=
  List.replicate ((pushed + (s.cfg.maxPacket - 1)) / s.cfg.maxPacket) .write

/-- One more state for a clock that is not low (41 R152). -/
def State.fixCount (s : State) (clk : PinIx) : Nat := if s.level clk then 1 else 0

/-- The calls of a receive with nothing pending: a READ and two one-byte WRITEs for each bit (41 R157). -/
def recvOps : List LinkOp := (List.replicate 8 [LinkOp.read, .write, .write]).flatten

/-- The WRITEs of CS low and the opcode, with `pending` bytes buffered before (42 R187, 41 R154). -/
def State.headOps (s : State) (clk : PinIx) (pending : Nat) : List LinkOp := s.writesOf (pending + 1 + s.fixCount clk + 17)

/-- The calls of a write frame with `pending` bytes buffered before (42 R188). -/
def State.writeFrameOps (s : State) (clk : PinIx) (pending : Nat) : List LinkOp :=
  s.headOps clk pending ++ s.writesOf 17 ++ s.writesOf 17 ++ [.write]

/-- The calls of a read frame (42 R189). -/
def State.readFrameOps (s : State) (clk : PinIx) : List LinkOp :=
  s.headOps clk s.txbuf.length ++ s.writesOf 17 ++ recvOps ++ [.write]

/-- The READs and WRITEs that an instruction makes over the bound clock `clk` when none fails (40 R120, R125; 41 R154, R157; 42 R184,
R185, R188, R189). PLANE_INIT's calls are stated of it by themselves. -/
def State.linkCalls (s : State) (clk : PinIx) : Instr → List LinkOp
  | .planeInit _ _ => []
  | .close => []
  | .setPin _ _ => []
  | .getPin _ => []
  | .setPins flush => if flush = true ∨ s.cfg.maxPacket ≤ s.txbuf.length + 1 then [.write] else []
  | .getPins => (if s.txbuf = [] then [] else [.write]) ++ [.read]
  | .inject _ => []
  | .spiBind _ _ _ => []
  | .spiSend _ => s.writesOf (s.txbuf.length + s.fixCount clk + 17)
  | .spiRecv => (if s.txbuf.length + s.fixCount clk = 0 then [] else [.write]) ++ recvOps
  | .regBind c _ _ _ _ => [.write, .write] ++ s.writeFrameOps c 0
  | .regWrite _ _ _ => s.writeFrameOps clk s.txbuf.length
  | .regRead _ _ => s.readFrameOps clk
  | .planeInitEntry _ _ _ _ => []
  | .frameWr _ _ _ => s.writeFrameOps clk s.txbuf.length
  | .frameRd _ _ => s.readFrameOps clk

/-- The instructions whose link failure is REG_ACCESS_ERR, not IO_ERR (42 R190; the frames: log 10). -/
def ofRegisterLayer : Instr → Bool
  | .planeInit _ _ => false
  | .close => false
  | .setPin _ _ => false
  | .getPin _ => false
  | .setPins _ => false
  | .getPins => false
  | .inject _ => false
  | .spiBind _ _ _ => false
  | .spiSend _ => false
  | .spiRecv => false
  | .regBind _ _ _ _ _ => true
  | .regWrite _ _ _ => true
  | .regRead _ _ => true
  | .planeInitEntry _ _ _ _ => false
  | .frameWr _ _ _ => true
  | .frameRd _ _ => true

/-- The call of kind `op`, failed. -/
def Event.isFailed (op : LinkOp) : Event → Bool
  | .write _ none => op == .write
  | .read none => op == .read
  | _ => false

/-! ## Pin lists and construction -/

/-- The index of a pin entry. -/
def Entry.index? : Entry → Option Byte
  | .pin index _ _ _ => some index
  | .nonPin => none

/-- A pin list with none of the faults of 40 R112 but emptiness: pin entries only, every index 0 to 7, none twice. -/
structure EntriesOk (es : List Entry) : Prop where
  pins  : ∀ e ∈ es, ∃ index dir init name, e = .pin index dir init name ∧ index.toNat < 8
  nodup : (es.map Entry.index?).Nodup

/-- The events of `k` failed open attempts, each followed by the backoff (40 R114). -/
def openRetries (deviceIndex backoff : Nat) : Nat → List Event
  | 0 => []
  | k + 1 => .openLink deviceIndex false :: .delayBackoff backoff :: openRetries deviceIndex backoff k

/-- What a successful PLANE_INIT leaves, but for the trace and the link answers (70 R241). -/
structure State.PlaneBuilt (s t : State) (es : List Entry) (sim : Bool) : Prop where
  phase     : t.phase = .plane
  sim       : t.sim = sim
  present   : ∀ index dir init name, Entry.pin index dir init name ∈ es →
    ∀ i : PinIx, i.toNat = index.toNat → t.slot i = some ⟨dir, init, name⟩
  absent    : ∀ i : PinIx, (∀ index dir init name, Entry.pin index dir init name ∈ es → i.toNat ≠ index.toNat) → t.slot i = none
  txbuf     : t.txbuf = []
  history   : t.history = lastOf s.cfg.histCap [t.pinByte]
  spi       : t.spi = none
  reg       : t.reg = none
  inject    : t.inject = 0x00#8
  haenOk    : t.haenOk = false
  cfg       : t.cfg = s.cfg
  port      : t.port = s.port
  intake    : t.intake = s.intake
  busIn     : t.busIn = s.busIn
  responses : t.responses = s.responses ++ [⟨.ok, 0x00#8⟩]

/-! ## Pushes and teardown -/

/-- The ghost after a push: with `reg` bound it is cleared by a byte whose RST bit is 0 (10 R32). -/
def State.ghostAfterPush (s : State) : Bool :=
  match s.reg with
  | none => s.haenOk
  | some r => s.haenOk && bitAt s.pinByte r.rst

/-- CLOSE's link call and the power-on state: every field of the block as 70 R240 lists it, the trace longer by the CLOSE, the link
answer used up in real mode. -/
def State.closed (s : State) : State where
  phase := .idle
  sim := false
  pins := Vector.replicate 8 none
  txbuf := []
  history := []
  spi := none
  reg := none
  inject := 0x00#8
  haenOk := false
  trace := s.trace ++ [.closeLink (s.sim || s.answerAt 0 != .fail)]
  cfg := s.cfg
  port := s.port
  intake := s.intake
  busIn := s.busIn
  responses := s.responses
  answers := if s.sim then s.answers else s.answers.tail
  draws := if s.sim then s.draws else s.draws + 1

/-- `s` with one more response. -/
def State.answered (s : State) (status : Status) (data : Byte) : State :=
  { s with responses := s.responses ++ [⟨status, data⟩] }

/-- The block is in the power-on state of 70 R240, whatever surrounds it. -/
def State.AtPowerOn (s : State) : Prop :=
  s.phase = .idle ∧ s.sim = false ∧ s.pins = Vector.replicate 8 none ∧ s.txbuf = [] ∧ s.history = [] ∧ s.spi = none ∧
    s.reg = none ∧ s.inject = 0x00#8 ∧ s.haenOk = false

/-! ## The pin states a transfer pushes -/

/-- `S(c, d)`: the pin-state byte with CLK at `c` and MOSI at `d`, every other pin as in `s` (41, the notation before R150). -/
def State.wireState (s : State) (p : SpiPins) (c d : Bool) : Byte := ((s.setValue p.clk c).setValue p.mosi d).pinByte

/-- The two states of each bit (41 R153). -/
def State.bitStates (s : State) (p : SpiPins) : List Bool → List Byte
  | [] => []
  | b :: bs => s.wireState p false b :: s.wireState p true b :: s.bitStates p bs

/-- The 17 states of `SpiSend(v)` (41 R154). -/
def State.sendStates (s : State) (p : SpiPins) (v : Byte) : List Byte :=
  s.bitStates p (bitsMsb v) ++ [s.wireState p false (v.getLsbD 0)]

/-- The corrected state that precedes a transfer whose clock is not low (41 R152, R154). -/
def State.fixStates (s : State) (p : SpiPins) : List Byte :=
  if s.level p.clk then [(s.setValue p.clk false).pinByte] else []

/-- The 16 states of `SpiRecv()` with MOSI at `d` throughout (41 R157). -/
def State.recvStates (s : State) (p : SpiPins) (d : Bool) : List Byte :=
  (List.replicate 8 [s.wireState p true d, s.wireState p false d]).flatten

/-- The states of a write frame: CS low, the three bytes (a correction before the first if the clock is not low), CS high (42 R187,
R188, R192). -/
def State.writeFrameStates (s : State) (p : SpiPins) (r : RegPins) (op reg data : Byte) : List Byte :=
  let a := s.setValue r.cs false
  [a.pinByte] ++ (a.fixStates p ++ a.sendStates p op) ++ a.sendStates p reg ++ a.sendStates p data ++
    [(s.setValue r.cs true).wireState p false (data.getLsbD 0)]

/-- The states of a read frame: CS low, the two bytes sent, the byte received, CS high (42 R187, R189, R192). -/
def State.readFrameStates (s : State) (p : SpiPins) (r : RegPins) (op reg : Byte) : List Byte :=
  let a := s.setValue r.cs false
  [a.pinByte] ++ (a.fixStates p ++ a.sendStates p op) ++ a.sendStates p reg ++ a.recvStates p (reg.getLsbD 0) ++
    [(s.setValue r.cs true).wireState p false (reg.getLsbD 0)]

/-- The two states of the device reset: CS high and RST low, then RST high (42 R184). -/
def State.resetStates (s : State) (r : RegPins) : List Byte :=
  [((s.setValue r.cs true).setValue r.rst false).pinByte, ((s.setValue r.cs true).setValue r.rst true).pinByte]

/-- The byte that eight samples make, the first sample most significant (41 R156). -/
def byteOfSamples (samples : List Bool) : Byte := samples.foldl shiftIn 0x00#8

/-! ## What a command leaves alone -/

/-- A pin without its value: presence, direction and name (10 R23). -/
def Pin.shape (p : Pin) : Dir × Byte := (p.dir, p.name)

/-- Presence, direction and name of slot `i` (10 R23). -/
def State.shape (s : State) (i : PinIx) : Option (Dir × Byte) := (s.slot i).map Pin.shape

/-- What no transfer touches: the phase, the mode, the bindings, `inject`, the parameters, the host port and the framer; presence,
direction and name of every pin; every pin outside `touched`; and the events already in the trace. -/
structure State.SameOutside (s t : State) (touched : PinIx → Prop) : Prop where
  phase  : t.phase = s.phase
  sim    : t.sim = s.sim
  spi    : t.spi = s.spi
  reg    : t.reg = s.reg
  inject : t.inject = s.inject
  cfg    : t.cfg = s.cfg
  port   : t.port = s.port
  intake : t.intake = s.intake
  busIn  : t.busIn = s.busIn
  shape  : ∀ i, t.shape i = s.shape i
  pins   : ∀ i, ¬ touched i → t.slot i = s.slot i
  trace  : s.trace <+: t.trace

/-- Equal but for the ghost and the flags it raises (10 R32, R41). -/
structure State.SameButGhost (s t : State) : Prop where
  fields : { t with haenOk := s.haenOk, trace := s.trace } = s
  trace  : withoutOrderFlags t.trace = withoutOrderFlags s.trace

/-! ## The invariant -/

/-- The bound SPI pins: distinct, CLK and MOSI outputs, MISO an input (10 R29). -/
structure State.SpiPinsOk (s : State) (p : SpiPins) : Prop where
  clk_mosi  : p.clk ≠ p.mosi
  clk_miso  : p.clk ≠ p.miso
  mosi_miso : p.mosi ≠ p.miso
  clk  : s.hasDir p.clk .output = true
  mosi : s.hasDir p.mosi .output = true
  miso : s.hasDir p.miso .input = true

/-- The Register Protocol's pins beside the SPI pins: outputs, all five distinct (10 R30). -/
structure State.RegPinsOk (s : State) (p : SpiPins) (r : RegPins) : Prop where
  nodup : [p.clk, p.mosi, p.miso, r.cs, r.rst].Nodup
  cs  : s.hasDir r.cs .output = true
  rst : s.hasDir r.rst .output = true

/-- What every reachable state satisfies. -/
structure State.Inv (s : State) : Prop where
  /-- In IDLE the block is in its power-on state (70 R240). -/
  idle : s.phase = .idle → s.powerOn = s
  /-- An SPI Link is bound exactly in SPI and READY (10 R20, R29). -/
  spi_iff : s.spi.isSome = true ↔ s.phase = .spi ∨ s.phase = .ready
  /-- The Register Protocol is bound exactly in READY (10 R20, R30). -/
  reg_iff : s.reg.isSome = true ↔ s.phase = .ready
  /-- The bound SPI pins are as SPI_BIND checked them (10 R29). -/
  spi_ok : ∀ p, s.spi = some p → s.SpiPinsOk p
  /-- The bound CS and RST are as REG_BIND checked them (10 R30). -/
  reg_ok : ∀ p r, s.spi = some p → s.reg = some r → s.RegPinsOk p r
  /-- The ghost is set only in READY (10 R32). -/
  haen : s.haenOk = true → s.phase = .ready
  /-- The transmit buffer is below `MAX_PACKET` (10 R27). -/
  txbuf : s.txbuf.length < s.cfg.maxPacket
  /-- The history is within `HIST_CAP` (10 R28). -/
  history : s.history.length ≤ s.cfg.histCap
  /-- The link is open exactly when the phase is not IDLE (10 R39). -/
  link : linkOpenFrom false s.trace = s.open
  /-- Every WRITE in the trace is legal (10 R40). -/
  writes : ∀ e ∈ s.trace, Event.legal s.cfg.maxPacket e = true
  /-- A PLANE_INIT being received has at most 255 entries in all (30 R83). -/
  intake : ∀ k, s.intake = some k → k.need + k.entries.length ≤ 255

/-- The history is the last `HIST_CAP` bytes of what was sent since the link was opened, and empty in IDLE (40 R124). -/
def State.HistoryIsTail (s : State) : Prop :=
  s.history = if s.open then lastOf s.cfg.histCap (sentSinceOpen [] s.trace) else []

end Sys2Proof.Machine
end

