-- ==== Sys2Proof/Certificates/Slice0/Obligations.lean ====
section
/-!
DEFINITION. The statements for the provers. Each docstring says which rule of spec/ its statement formalises, and which log entry
it rests on where it rests on a choice of the model's.
-/

open Sys2Proof Sys2Proof.Machine

/-! ## Encoding and decoding -/

/-- 30 R82 to R96, R103: decoding what the encoder lays out gives the instruction back, for every constructor, with every operand at
every value its encoding has, under every value of `OPC_NIBBLE`. (The layout of a non-pin entry as the word 0 is log 13.) -/
def Obligations.DecodeOfEncodeIsTheInstruction : Prop :=
  ∀ (nibble : BitVec 4) (i : Instr), i.wellFormed = true → decodeWire nibble (encode nibble i) = some i

/-- 30 R82, R97: a one-word command has one encoding: the word that decodes to it is the word the encoder gives. -/
def Obligations.DecodedCommandWordEncodesBack : Prop :=
  ∀ (nibble : BitVec 4) (w : Word) (i : Instr), decodeCommand w = .one i → encode nibble i = .command [w]

/-- 30 R82 to R85, R91, R92, R94 to R97, R103: words and what they decode as. Five one-word commands and the refused word stand in 95
section 3.1; the bytes of the two bus frames are those that V-REG-2 and V-REG-3 of 95 section 3.4 send; the PLANE_INIT with two entries
is composed here from R83 and R84. -/
def Obligations.SpecExampleWordsDecode : Prop :=
  decodeWords [0x10000102#32] = some (.spiBind 0#3 1#3 2#3) ∧
  decodeWords [0x2000029C#32] = some (.regBind 0#3 1#3 2#3 3#3 4#3) ∧
  decodeWords [0x2103293C#32] = some (.regWrite 3#3 0x29#8 0x3C#8) ∧
  decodeWords [0x22050900#32] = some (.regRead 5#3 0x09#8) ∧
  decodeWords [0x113C0000#32] = some (.spiSend 0x3C#8) ∧
  decodeWords [0x01020100#32, 0x50000100#32, 0x50030300#32] =
    some (.planeInit [.pin 0#8 .output false 0#8, .pin 3#8 .output true 0#8] true) ∧
  decodeWords [0x03010200#32] = none ∧
  decodeBus 0b0100#4 [0x46#8, 0x09#8, 0x3C#8] = .frame (.frameWr 3#3 9#5 0x3C#8) [] ∧
  decodeBus 0b0100#4 [0x4B#8, 0x09#8] = .frame (.frameRd 5#3 9#5) []

/-- 30 R98: a word with an unassigned OP is refused with REFUSED_ENC, and nothing else changes but that the word is taken. -/
def Obligations.UnassignedOpIsRefused : Prop :=
  ∀ (s : State) (w : Word) (ws : List Word), s.AwaitsCommand → s.port = w :: ws → Word.op w ∉ assignedOps →
    step s = .next { s with port := ws, responses := s.responses ++ [⟨.refusedEnc, 0x00#8⟩] }

/-- 30 R97: a word that matches a row's OP but has a reserved bit set is refused with REFUSED_ENC; so is the whole PLANE_INIT if its
word has one, or one of its payload words is a pin entry with one. No state changes and no event is traced: the words are taken and
the response is given. (That a PLANE_INIT word with a reserved bit still takes its payload is log 2.) -/
def Obligations.ReservedBitIsRefused : Prop :=
  (∀ (s : State) (w : Word) (ws : List Word) (row : Byte × Word × Word), s.AwaitsCommand → s.port = w :: ws →
    row ∈ commandRows → Word.op w = row.1 → w &&& row.2.1 ≠ row.2.2 →
    step s = .next { s with port := ws, responses := s.responses ++ [⟨.refusedEnc, 0x00#8⟩] }) ∧
  (∀ (s : State) (w : Word) (payload ws : List Word), s.AwaitsCommand → s.port = w :: payload ++ ws →
    Word.op w = 0x01#8 → payload.length = (Word.fieldA w).toNat →
    (w &&& 0xFF00FEFF#32 ≠ 0x01000000#32 ∨ ∃ e ∈ payload, Word.op e = 0x50#8 ∧ e &&& 0xFF00FC00#32 ≠ 0x50000000#32) →
    Sys2Proof.core.run (payload.length + 2) s =
      .next { s with port := ws, responses := s.responses ++ [⟨.refusedEnc, 0x00#8⟩] })

/-! ## Steps -/

/-- What a step runs (logs 1, 2, 10): a command word decoded in the command position, a pin entry decoded in the payload position, a
received PLANE_INIT, and a frame decoded at the framer, each by `exec` in the state that has taken its words. -/
def Obligations.StepRunsTheDecodedInstruction : Prop :=
  (∀ (s : State) (w : Word) (ws : List Word) (i : Instr), s.AwaitsCommand → s.port = w :: ws → decodeWords [w] = some i →
    (∀ es sim, i ≠ .planeInit es sim) → step s = exec i { s with port := ws }) ∧
  (∀ (s : State) (k : Intake) (n : Nat) (w : Word) (ws : List Word) (index : Byte) (dir : Dir) (init : Bool) (name : Byte),
    s.busIn = [] → s.intake = some k → k.need = n + 1 → s.port = w :: ws →
    decodeEntry w = some (.pin index dir init name) →
    step s = exec (.planeInitEntry index dir init name) { s with port := ws }) ∧
  (∀ (s : State) (k : Intake), s.busIn = [] → s.intake = some k → k.need = 0 → k.illegal = false →
    step s = exec (.planeInit k.entries k.sim) { s with intake := none }) ∧
  (∀ (s : State) (i : Instr) (rest : List Byte), decodeBus s.cfg.opcNibble s.busIn = .frame i rest →
    step s = exec i { s with busIn := rest })

/-- 30 R83, R84, R100 (log 2): a PLANE_INIT word and its `N` payload words, taken a word a step, run as the one command they decode
to. -/
def Obligations.PlaneInitRunsWhenItsPayloadIsIn : Prop :=
  ∀ (s : State) (w : Word) (payload ws : List Word) (es : List Entry) (sim : Bool), s.AwaitsCommand →
    s.port = w :: payload ++ ws → decodeWords (w :: payload) = some (.planeInit es sim) →
    Sys2Proof.core.run (payload.length + 1) s = .next { s with port := ws, intake := some ⟨sim, false, 0, es⟩ } ∧
    Sys2Proof.core.run (payload.length + 2) s = exec (.planeInit es sim) { s with port := ws }

/-- 60 R229: between commands the block is idle and holds its state. (That a step with nothing to take is that holding is log 3, DEDUCED
from the rule.) -/
def Obligations.IdleBlockHoldsItsState : Prop :=
  ∀ s : State, s.AwaitsCommand → s.port = [] → step s = .next s

/-! ## Phases, responses, errors -/

/-- 60 R215: a command issued in a phase not listed for it is refused with REFUSED_STATE; no state changes and no event is traced. -/
def Obligations.CommandInWrongPhaseIsRefused : Prop :=
  ∀ (i : Instr) (s : State), (∀ dev reg data, i ≠ .frameWr dev reg data) → (∀ dev reg, i ≠ .frameRd dev reg) →
    accepts i s = false → exec i s = .next (s.answered .refusedState 0x00#8)

/-- 60 R210's column "raised by": every instruction but a payload entry gives exactly one response, and its status is one its row names.
(R210 names no bus frame: that FRAME_WR and FRAME_RD give one response, as REG_WRITE and REG_READ do, is the model's choice, log 10. A
payload entry is no command: PayloadEntryIsReceived says what it gives.) -/
def Obligations.ResponseIsOneOfItsCommand : Prop :=
  ∀ (i : Instr) (s t : State), exec i s = .next t → (∀ index dir init name, i ≠ .planeInitEntry index dir init name) →
    ∃ r, t.responses = s.responses ++ [r] ∧
      match r.status with
      | .ok => True
      | .cfgErr => (∃ es sim, i = .planeInit es sim) ∨ (∃ c mo mi, i = .spiBind c mo mi) ∨ ∃ c mo mi cs rst, i = .regBind c mo mi cs rst
      | .fatalIo => (∃ es sim, i = .planeInit es sim) ∧ (r.data = 0x01#8 ∨ r.data = 0x02#8 ∨ r.data = 0x03#8)
      | .ioErr => (r.data = 0x01#8 ∨ r.data = 0x02#8) ∧
          ((∃ f, i = .setPins f) ∨ i = .getPins ∨ (∃ v, i = .spiSend v) ∨ i = .spiRecv)
      | .regAccessErr => (r.data = 0x01#8 ∨ r.data = 0x02#8) ∧
          ((∃ c mo mi cs rst, i = .regBind c mo mi cs rst) ∨ (∃ d g x, i = .regWrite d g x) ∨ (∃ d g, i = .regRead d g) ∨
            (∃ d g x, i = .frameWr d g x) ∨ ∃ d g, i = .frameRd d g)
      | .refusedState => r.data = 0x00#8 ∧ t = s.answered .refusedState 0x00#8
      | .refusedEnc => False
      | .noPin => ∃ n v, i = .setPin n v ∧ r.data = n.zeroExtend 8

/-- 60 R220: a fatal error closes the link, keeps the trace, and leaves the block at power-on, with phase IDLE, where only PLANE_INIT
(and a payload entry, which is no command) is accepted. Fatal are IO_ERR, REG_ACCESS_ERR, the CFG_ERR of a binding, and FATAL_IO but
for 0x01 (R210). -/
def Obligations.FatalErrorTearsDown : Prop :=
  ∀ (i : Instr) (s t : State) (r : Response), exec i s = .next t → t.responses = s.responses ++ [r] →
    (r.status = .ioErr ∨ r.status = .regAccessErr ∨ (r.status = .cfgErr ∧ ∀ es sim, i ≠ .planeInit es sim) ∨
      (r.status = .fatalIo ∧ r.data ≠ 0x01#8)) →
    t.AtPowerOn ∧ s.trace <+: t.trace ∧ (∃ ok, t.trace.getLast? = some (.closeLink ok)) ∧
      ∀ j, accepts j t = true → (∃ es sim, j = .planeInit es sim) ∨ ∃ index dir init name, j = .planeInitEntry index dir init name

/-! ## The Pin Plane -/

/-- 10 R24: the bits of the three masks, their invariants, and their reset value. -/
def Obligations.MasksDescribeTheArena : Prop :=
  (∀ (s : State) (i : PinIx),
    (bitAt s.outMask i = true ↔ ∃ p, s.slot i = some p ∧ p.dir = .output) ∧
    (bitAt s.inMask i = true ↔ ∃ p, s.slot i = some p ∧ p.dir = .input) ∧
    (s.slot i = none → bitAt s.outMask i = false ∧ bitAt s.inMask i = false ∧ bitAt s.activeMask i = false)) ∧
  (∀ s : State, s.activeMask = s.outMask ||| s.inMask ∧ s.outMask &&& s.inMask = 0x00#8) ∧
  State.reset.outMask = 0x00#8 ∧ State.reset.inMask = 0x00#8 ∧ State.reset.activeMask = 0x00#8

/-- 40 R121, 30 R105: bit i of the pin-state byte is 1 iff pin i is present, an output and has value 1; no bit outside `out_mask` is
set. -/
def Obligations.PinByteShowsOutputsOnly : Prop :=
  ∀ s : State, s.pinByte &&& ~~~s.outMask = 0x00#8 ∧
    ∀ i, bitAt s.pinByte i = true ↔ ∃ p, s.slot i = some p ∧ p.dir = .output ∧ p.value = true

/-- 40 R118: SET_PIN writes one present pin's value and nothing else, refuses an absent slot with NO_PIN and the index, and is refused
in IDLE. -/
def Obligations.SetPinWritesOneValue : Prop :=
  ∀ (s : State) (i : PinIx) (v : Bool),
    (s.phase = .idle → exec (.setPin i v) s = .next (s.answered .refusedState 0x00#8)) ∧
    (s.phase ≠ .idle → s.slot i = none → exec (.setPin i v) s = .next (s.answered .noPin (i.zeroExtend 8))) ∧
    (∀ p, s.phase ≠ .idle → s.slot i = some p →
      ∃ pins, exec (.setPin i v) s = .next (State.answered { s with pins := pins } .ok 0x00#8) ∧
        State.slot { s with pins := pins } i = some { p with value := v } ∧
        ∀ j, j ≠ i → State.slot { s with pins := pins } j = s.slot j)

/-- 40 R119, 30 R86: GET_PIN answers presence, direction and value, 0x00 for an absent slot, and changes nothing; in IDLE it is
refused. -/
def Obligations.GetPinReportsTheSlot : Prop :=
  ∀ (s : State) (i : PinIx),
    (s.phase = .idle → exec (.getPin i) s = .next (s.answered .refusedState 0x00#8)) ∧
    (s.phase ≠ .idle → ∃ d : Byte, exec (.getPin i) s = .next (s.answered .ok d) ∧ (s.slot i = none → d = 0x00#8) ∧
      ∀ p, s.slot i = some p →
        d.getLsbD 0 = true ∧ (d.getLsbD 1 = true ↔ p.dir = .output) ∧ d.getLsbD 2 = p.value ∧ d.extractLsb' 3 5 = 0#5)

/-- 40 R120: SET_PINS 0 below `MAX_PACKET` appends the pin-state byte to the buffer and makes no link call. -/
def Obligations.PushBelowMaxPacketOnlyBuffers : Prop :=
  ∀ s : State, s.phase ≠ .idle → s.txbuf.length + 1 < s.cfg.maxPacket →
    exec (.setPins false) s =
      .next (State.answered { s with txbuf := s.txbuf ++ [s.pinByte], haenOk := s.ghostAfterPush } .ok 0x00#8)

/-- 40 R120, R122, R124: SET_PINS that flushes, or that brings the buffer to `MAX_PACKET`, sends the whole buffer with the new byte as
one WRITE, appends it to the bounded history and empties the buffer: in simulation mode with the full count. -/
def Obligations.FlushingPushMakesOneWrite : Prop :=
  ∀ (s : State) (flush : Bool), s.phase ≠ .idle → s.sim = true →
    (flush = true ∨ s.cfg.maxPacket ≤ s.txbuf.length + 1) →
    exec (.setPins flush) s =
      .next (State.answered
        { s with
          txbuf := []
          history := lastOf s.cfg.histCap (s.history ++ (s.txbuf ++ [s.pinByte]))
          haenOk := s.ghostAfterPush
          trace := s.trace ++ [.write (s.txbuf ++ [s.pinByte]) (some (s.txbuf.length + 1))] } .ok 0x00#8)

/-- 40 R123 (with R122, R124): a WRITE the link answers short is flagged and no more: the buffer is cleared and recorded whole, one
WRITE is made, the response is OK. A full answer is not flagged. (Answers above the length count as the length, log 6.) -/
def Obligations.ShortWriteIsOnlyFlagged : Prop :=
  ∀ (s : State) (flush : Bool) (n : Nat), s.phase ≠ .idle → s.sim = false →
    (flush = true ∨ s.cfg.maxPacket ≤ s.txbuf.length + 1) → s.answerAt 0 = .ok n →
    exec (.setPins flush) s =
      .next (State.answered
        { s with
          txbuf := []
          history := lastOf s.cfg.histCap (s.history ++ (s.txbuf ++ [s.pinByte]))
          haenOk := s.ghostAfterPush
          trace := s.trace ++ [.write (s.txbuf ++ [s.pinByte]) (some (min n (s.txbuf.length + 1)))] ++
            (if n < s.txbuf.length + 1 then [.shortWrite n (s.txbuf.length + 1)] else [])
          answers := s.answers.tail
          draws := s.draws + 1 } .ok 0x00#8)

/-- 60 R213, R220: a WRITE that fails in SET_PINS is IO_ERR 0x01, and fatal: the trace holds the failed WRITE and the teardown's
CLOSE, the block is at power-on. -/
def Obligations.FailedWriteInSetPinsIsIoErr : Prop :=
  ∀ (s : State) (flush : Bool), s.phase ≠ .idle → s.sim = false →
    (flush = true ∨ s.cfg.maxPacket ≤ s.txbuf.length + 1) → s.answerAt 0 = .fail →
    exec (.setPins flush) s =
      .next (State.answered
        (State.closed { s with
          trace := s.trace ++ ([.write (s.txbuf ++ [s.pinByte]) none] : List Event), answers := s.answers.tail, draws := s.draws + 1 })
        .ioErr 0x01#8)

/-- 40 R125, R126, 20 R71: GET_PINS sends what is pending, if anything, before it READs; the present input pins take their bits of the
snapshot, nothing else in the arena changes; the answer is the byte of all present pins' values. -/
def Obligations.GetPinsFlushesThenReads : Prop :=
  ∀ s : State, s.phase ≠ .idle → s.linkGood 2 →
    ∃ (b d : Byte) (n : Nat) (t : State), exec .getPins s = .next t ∧ t.responses = s.responses ++ [⟨.ok, d⟩] ∧
      t.trace = s.trace ++
        (if s.txbuf = [] then [] else Event.write s.txbuf (some n) :: if n < s.txbuf.length then [Event.shortWrite n s.txbuf.length] else []) ++
        ([.read (some b)] : List Event) ∧
      t.txbuf = [] ∧
      (∀ i, t.slot i = (s.slot i).map fun p => if p.dir = .input then { p with value := bitAt b i } else p) ∧
      (∀ i, bitAt d i = true ↔ ∃ p, t.slot i = some p ∧ p.value = true) ∧
      s.SameOutside t (fun i => s.hasDir i .input = true) ∧ t.haenOk = s.haenOk

/-- 60 R213: a READ that fails in GET_PINS (with nothing pending) is IO_ERR 0x02, and fatal. -/
def Obligations.FailedReadInGetPinsIsIoErr : Prop :=
  ∀ s : State, s.phase ≠ .idle → s.sim = false → s.txbuf = [] → s.answerAt 0 = .fail →
    exec .getPins s =
      .next (State.answered
        (State.closed { s with trace := s.trace ++ ([.read none] : List Event), answers := s.answers.tail, draws := s.draws + 1 }) .ioErr 0x02#8)

/-- 20 R66, 10 R31: in simulation mode with the default `sim_source`, a refresh with nothing pending reads the INJECT register: input
pin i takes bit i of `inject`. -/
def Obligations.SimulatedReadTakesInject : Prop :=
  ∀ s : State, s.phase ≠ .idle → s.sim = true → s.cfg.simSource = .inject → s.txbuf = [] →
    ∃ t, exec .getPins s = .next t ∧ t.trace = s.trace ++ ([.read (some s.inject)] : List Event) ∧
      ∀ i p, s.slot i = some p → p.dir = .input → t.slot i = some { p with value := bitAt s.inject i }

/-- 40 R127: INJECT writes `inject` in simulation mode and is refused otherwise. -/
def Obligations.InjectWritesTheByte : Prop :=
  ∀ (s : State) (v : Byte),
    (s.phase ≠ .idle → s.sim = true → exec (.inject v) s = .next (State.answered { s with inject := v } .ok 0x00#8)) ∧
    (s.phase = .idle ∨ s.sim = false → exec (.inject v) s = .next (s.answered .refusedState 0x00#8))

/-- 40 R128, 70 R240: CLOSE makes the link call, ignores its answer, discards what is pending, and leaves the power-on state with the
trace kept. -/
def Obligations.CloseReturnsToPowerOn : Prop :=
  ∀ s : State, (s.phase ≠ .idle → exec .close s = .next (s.closed.answered .ok 0x00#8)) ∧
    (s.phase = .idle → exec .close s = .next (s.answered .refusedState 0x00#8))

/-! ## Construction -/

/-- 40 R112: which configuration error PLANE_INIT reports, entries being checked in list order; nothing else changes. -/
def Obligations.PlaneInitReportsTheFirstFault : Prop :=
  ∀ (s : State) (sim : Bool), s.phase = .idle →
    exec (.planeInit [] sim) s = .next (s.answered .cfgErr 0x01#8) ∧
    ∀ (pre post : List Entry), EntriesOk pre →
      exec (.planeInit (pre ++ .nonPin :: post) sim) s = .next (s.answered .cfgErr 0x02#8) ∧
      ∀ (index : Byte) (dir : Dir) (init : Bool) (name : Byte),
        (7 < index.toNat →
          exec (.planeInit (pre ++ .pin index dir init name :: post) sim) s = .next (s.answered .cfgErr 0x03#8)) ∧
        (some index ∈ pre.map Entry.index? →
          exec (.planeInit (pre ++ .pin index dir init name :: post) sim) s = .next (s.answered .cfgErr 0x04#8))

/-- 70 R241, 40 R111 to R116, in simulation mode: PLANE_INIT with a valid pin list builds the plane, opens and configures the link,
settles, and makes exactly one WRITE, of the pin-state byte of the initial values. -/
def Obligations.PlaneInitBuildsThePlaneInSimulation : Prop :=
  ∀ (s : State) (es : List Entry), s.phase = .idle → es ≠ [] → EntriesOk es →
    ∃ t, exec (.planeInit es true) s = .next t ∧ s.PlaneBuilt t es true ∧
      t.trace = s.trace ++
        ([.openLink s.cfg.deviceIndex true, .resetLink true, .setClock s.cfg.clockRate true,
          .setBitMode t.outMask s.cfg.modeAsyncBitbang true, .delaySettle s.cfg.settleDelay, .write [t.pinByte] (some 1)] : List Event) ∧
      t.answers = s.answers ∧ t.draws = s.draws

/-- 70 R241, 40 R114 to R116, in real mode: after `k` failed open attempts, fewer than the budget, and then no failure. (A WRITE answer
`n` above 1, the length of the first push, counts as 1: log 6, the model's choice.) -/
def Obligations.PlaneInitBuildsThePlaneAfterRetries : Prop :=
  ∀ (s : State) (es : List Entry) (k a b c d n : Nat) (rest : List Answer), s.phase = .idle → es ≠ [] → EntriesOk es →
    k < s.cfg.openAttempts → s.answers = List.replicate k Answer.fail ++ (.ok a :: .ok b :: .ok c :: .ok d :: .ok n :: rest) →
    ∃ t, exec (.planeInit es false) s = .next t ∧ s.PlaneBuilt t es false ∧
      t.trace = s.trace ++ openRetries s.cfg.deviceIndex s.cfg.openBackoff k ++
        ([.openLink s.cfg.deviceIndex true, .resetLink true, .setClock s.cfg.clockRate true,
          .setBitMode t.outMask s.cfg.modeAsyncBitbang true, .delaySettle s.cfg.settleDelay, .write [t.pinByte] (some (min n 1))] : List Event) ++
        (if n = 0 then [Event.shortWrite 0 1] else []) ∧
      t.answers = rest ∧ t.draws = s.draws + k + 5

/-- 40 R114, 60 R212: when every open attempt fails, PLANE_INIT is FATAL_IO 0x01: the attempts with the backoff between them and no
delay after the last, no CLOSE, the block at power-on. -/
def Obligations.OpenBudgetExhaustedIsFatal : Prop :=
  ∀ (s : State) (es : List Entry) (rest : List Answer), s.phase = .idle → es ≠ [] → EntriesOk es →
    s.answers = List.replicate s.cfg.openAttempts Answer.fail ++ rest →
    ∃ t, exec (.planeInit es false) s = .next t ∧ t.AtPowerOn ∧ t.responses = s.responses ++ [⟨.fatalIo, 0x01#8⟩] ∧
      t.trace = s.trace ++ openRetries s.cfg.deviceIndex s.cfg.openBackoff (s.cfg.openAttempts - 1) ++
        ([.openLink s.cfg.deviceIndex false] : List Event)

/-- 40 R115, R116, 60 R212: a configuration call that fails is FATAL_IO 0x02, a first push whose WRITE fails FATAL_IO 0x03; each ends
with the teardown's CLOSE. -/
def Obligations.BringUpFailureIsFatal : Prop :=
  ∀ (s : State) (es : List Entry) (a b c d : Nat) (rest : List Answer), s.phase = .idle → es ≠ [] → EntriesOk es →
    (s.answers = .ok a :: .fail :: rest →
      ∃ t ok, exec (.planeInit es false) s = .next t ∧ t.AtPowerOn ∧ t.responses = s.responses ++ [⟨.fatalIo, 0x02#8⟩] ∧
        t.trace = s.trace ++ ([.openLink s.cfg.deviceIndex true, .resetLink false, .closeLink ok] : List Event)) ∧
    (s.answers = .ok a :: .ok b :: .fail :: rest →
      ∃ t ok, exec (.planeInit es false) s = .next t ∧ t.AtPowerOn ∧ t.responses = s.responses ++ [⟨.fatalIo, 0x02#8⟩] ∧
        t.trace = s.trace ++
          ([.openLink s.cfg.deviceIndex true, .resetLink true, .setClock s.cfg.clockRate false, .closeLink ok] : List Event)) ∧
    (s.answers = .ok a :: .ok b :: .ok c :: .fail :: rest →
      ∃ t ok, exec (.planeInit es false) s = .next t ∧ t.AtPowerOn ∧ t.responses = s.responses ++ [⟨.fatalIo, 0x02#8⟩] ∧
        t.trace = s.trace ++
          ([.openLink s.cfg.deviceIndex true, .resetLink true, .setClock s.cfg.clockRate true,
            .setBitMode (s.buildArena es false).outMask s.cfg.modeAsyncBitbang false, .closeLink ok] : List Event)) ∧
    (s.answers = .ok a :: .ok b :: .ok c :: .ok d :: .fail :: rest →
      ∃ t ok, exec (.planeInit es false) s = .next t ∧ t.AtPowerOn ∧
        t.responses = s.responses ++ [⟨.fatalIo, 0x03#8⟩] ∧
        t.trace = s.trace ++
          ([.openLink s.cfg.deviceIndex true, .resetLink true, .setClock s.cfg.clockRate true,
            .setBitMode (s.buildArena es false).outMask s.cfg.modeAsyncBitbang true, .delaySettle s.cfg.settleDelay,
            .write [(s.buildArena es false).pinByte] none, .closeLink ok] : List Event))

/-- 30 R83, R84, R98 (log 2): a pin entry word in the payload position is the next entry of the PLANE_INIT being received, and nothing
else changes; outside the payload position its OP is unassigned. -/
def Obligations.PayloadEntryIsReceived : Prop :=
  ∀ (s : State) (index : Byte) (dir : Dir) (init : Bool) (name : Byte),
    (∀ (k : Intake) (n : Nat), s.intake = some k → k.need = n + 1 →
      exec (.planeInitEntry index dir init name) s =
        .next { s with intake := some { k with need := n, entries := k.entries ++ [.pin index dir init name] } }) ∧
    (s.intake = none → exec (.planeInitEntry index dir init name) s = .next (s.answered .refusedEnc 0x00#8))

/-! ## Bit-Bang SPI -/

/-- 41 R151: the first failing check of the three SPI pins, in the rule's order. -/
def Obligations.SpiPinChecksInOrder : Prop :=
  ∀ (s : State) (p : SpiPins), s.checkSpiPins p =
    if p.clk = p.mosi ∨ p.clk = p.miso ∨ p.mosi = p.miso then some .notDistinct
    else if s.slot p.clk = none then some .missing
    else if s.hasDir p.clk .output = false then some .direction
    else if s.slot p.mosi = none then some .missing
    else if s.hasDir p.mosi .output = false then some .direction
    else if s.slot p.miso = none then some .missing
    else if s.hasDir p.miso .input = false then some .direction
    else none

/-- 41 R150, 70 R242: SPI_BIND of three good pins sets the binding and the phase and nothing else; of bad pins it is a fatal CFG_ERR
with the reason; in IDLE and READY it is refused. -/
def Obligations.SpiBindBindsOrTearsDown : Prop :=
  ∀ (s : State) (c mo mi : PinIx),
    (s.phase = .plane ∨ s.phase = .spi → s.SpiPinsOk ⟨c, mo, mi⟩ →
      exec (.spiBind c mo mi) s = .next (State.answered { s with spi := some ⟨c, mo, mi⟩, phase := .spi } .ok 0x00#8)) ∧
    (s.phase = .plane ∨ s.phase = .spi → ¬ s.SpiPinsOk ⟨c, mo, mi⟩ →
      ∃ reason, s.checkSpiPins ⟨c, mo, mi⟩ = some reason ∧
        exec (.spiBind c mo mi) s = .next (s.closed.answered .cfgErr reason.code)) ∧
    (s.phase = .idle ∨ s.phase = .ready → exec (.spiBind c mo mi) s = .next (s.answered .refusedState 0x00#8))

/-- 41 R152, R153, R158: SPI_SEND, when none of its link calls fails, answers OK and pushes the correction, if the clock was not low,
and the 17 states of the byte, most significant bit first; in the end the buffer is empty, the clock low and MOSI at the last bit; no
other pin changes, and neither does the ghost while RST is high. -/
def Obligations.SpiSendPushesTheByte : Prop :=
  ∀ (s : State) (p : SpiPins) (v : Byte), s.phase = .spi ∨ s.phase = .ready → s.spi = some p → s.SpiPinsOk p → s.linkGood 18 →
    ∃ t, exec (.spiSend v) s = .next t ∧ t.responses = s.responses ++ [⟨.ok, 0x00#8⟩] ∧
      t.stream = s.stream ++ (s.fixStates p ++ s.sendStates p v) ∧ (s.sendStates p v).length = 17 ∧
      t.txbuf = [] ∧ t.level p.clk = false ∧ t.level p.mosi = v.getLsbD 0 ∧
      s.SameOutside t (fun i => i = p.clk ∨ i = p.mosi) ∧
      ((∀ r, s.reg = some r → s.RegPinsOk p r ∧ s.level r.rst = true) → t.haenOk = s.haenOk)

/-- 41 R154: SPI_SEND pushes 17 states, with a correction 18, and all are flushed; with fewer than `MAX_PACKET` bytes buffered at entry
it makes exactly ceil((p + 17) / MAX_PACKET) WRITEs, with a correction ceil((p + 18) / MAX_PACKET); and when all fit in one, the one
WRITE carries what was buffered and the states in order. -/
def Obligations.SpiSendWriteCount : Prop :=
  ∀ (s : State) (p : SpiPins) (v : Byte), s.phase = .spi ∨ s.phase = .ready → s.spi = some p → s.SpiPinsOk p → s.linkGood 18 →
    s.txbuf.length < s.cfg.maxPacket →
    ∃ t, exec (.spiSend v) s = .next t ∧ t.stream = s.stream ++ (s.fixStates p ++ s.sendStates p v) ∧ t.txbuf = [] ∧
      (s.fixStates p ++ s.sendStates p v).length = (if s.level p.clk then 18 else 17) ∧
      (writeCalls t.trace).length = (writeCalls s.trace).length +
        (s.txbuf.length + (if s.level p.clk then 18 else 17) + (s.cfg.maxPacket - 1)) / s.cfg.maxPacket ∧
      (s.txbuf.length + (if s.level p.clk then 18 else 17) ≤ s.cfg.maxPacket →
        writeCalls t.trace = writeCalls s.trace ++ [s.txbuf ++ (s.fixStates p ++ s.sendStates p v)])

/-- 41 R152, R155, R156: SPI_RECV, when none of its link calls fails, answers OK with the byte made of MISO's bits of eight READs, the
first most significant, and pushes 16 states with MOSI unchanged; only CLK and the input pins change. -/
def Obligations.SpiRecvReturnsEightSamples : Prop :=
  ∀ (s : State) (p : SpiPins), s.phase = .spi ∨ s.phase = .ready → s.spi = some p → s.SpiPinsOk p → s.linkGood 33 →
    ∃ (b0 b1 b2 b3 b4 b5 b6 b7 : Byte) (d : Byte) (t : State), exec .spiRecv s = .next t ∧
      t.responses = s.responses ++ [⟨.ok, d⟩] ∧
      readAnswers t.trace =
        readAnswers s.trace ++ [some b0, some b1, some b2, some b3, some b4, some b5, some b6, some b7] ∧
      d.getLsbD 7 = bitAt b0 p.miso ∧ d.getLsbD 6 = bitAt b1 p.miso ∧ d.getLsbD 5 = bitAt b2 p.miso ∧
      d.getLsbD 4 = bitAt b3 p.miso ∧ d.getLsbD 3 = bitAt b4 p.miso ∧ d.getLsbD 2 = bitAt b5 p.miso ∧
      d.getLsbD 1 = bitAt b6 p.miso ∧ d.getLsbD 0 = bitAt b7 p.miso ∧
      t.stream = s.stream ++ (s.fixStates p ++ s.recvStates p (s.level p.mosi)) ∧
      t.txbuf = [] ∧ t.level p.clk = false ∧ t.level p.mosi = s.level p.mosi ∧
      s.SameOutside t (fun i => i = p.clk ∨ s.hasDir i .input = true) ∧
      ((∀ r, s.reg = some r → s.RegPinsOk p r ∧ s.level r.rst = true) → t.haenOk = s.haenOk)

/-- 41 R157, in simulation mode, where no answer is short: the link transactions of SPI_RECV in order: one WRITE of what is pending
(what was buffered and the correction), only if there is any, and then eight times a READ, a one-byte WRITE with the clock high and
one with the clock low. -/
def Obligations.SpiRecvLinkTransactions : Prop :=
  ∀ (s : State) (p : SpiPins), s.phase = .spi ∨ s.phase = .ready → s.spi = some p → s.SpiPinsOk p → s.sim = true →
    ∃ (bs : List Byte) (t : State), bs.length = 8 ∧ exec .spiRecv s = .next t ∧
      t.trace = s.trace ++ (if s.level p.clk then [Event.clkNotIdle] else []) ++
        (if s.txbuf ++ s.fixStates p = [] then []
          else [Event.write (s.txbuf ++ s.fixStates p) (some (s.txbuf ++ s.fixStates p).length)]) ++
        (bs.map fun b => [Event.read (some b), .write [s.wireState p true (s.level p.mosi)] (some 1),
          .write [s.wireState p false (s.level p.mosi)] (some 1)]).flatten

/-- 41 R161: in simulation mode with the loop-back shift register LB of 95 section 1 on the bound pins, SPI_SEND v followed by SPI_RECV
returns v, for every byte, from every state with an SPI Link bound, whatever is buffered and whatever `MAX_PACKET` is. -/
def Obligations.LoopBackRoundTrip : Prop :=
  ∀ (s : State) (p : SpiPins) (v : Byte), s.phase = .spi ∨ s.phase = .ready → s.spi = some p → s.SpiPinsOk p → s.sim = true →
    s.cfg.simSource = .loopBack p.clk p.mosi p.miso →
    ∃ t u, exec (.spiSend v) s = .next t ∧ exec .spiRecv t = .next u ∧
      u.responses = s.responses ++ [⟨.ok, 0x00#8⟩, ⟨.ok, v⟩]

/-! ## The Register Protocol -/

/-- 42 R180, R181: the opcode byte and the register byte. -/
def Obligations.FrameBytesAreAssembled : Prop :=
  (∀ (nibble : BitVec 4) (dev : DevAddr) (read : Bool),
    opcode nibble dev read =
      ((nibble.zeroExtend 8) <<< 4) ||| ((dev.zeroExtend 8) <<< 1) ||| (if read then 1#8 else 0#8)) ∧
  (∀ reg : Byte, regByte reg = reg &&& 0x1F#8 ∧ (regByte reg).extractLsb' 5 3 = 0#3 ∧ (regByte reg).toNat = reg.toNat % 32)

/-- 42 R182 to R185, R187, 70 R243: REG_BIND of five good pins, when none of its link calls fails, pushes the two states of the device
reset and the frame of the HAEN broadcast (device 0, the control register, the default with the HAEN bit), and leaves phase READY, both
bindings, CS and RST high, the clock low and `haen_ok` set; no other pin changes. -/
def Obligations.RegBindResetsAndBroadcasts : Prop :=
  ∀ (s : State) (p : SpiPins) (r : RegPins), s.phase ≠ .idle → s.SpiPinsOk p → s.RegPinsOk p r → s.linkGood 58 →
    ∃ t, exec (.regBind p.clk p.mosi p.miso r.cs r.rst) s = .next t ∧ t.responses = s.responses ++ [⟨.ok, 0x00#8⟩] ∧
      t.phase = .ready ∧ t.spi = some p ∧ t.reg = some r ∧ t.haenOk = true ∧ t.txbuf = [] ∧
      t.level r.cs = true ∧ t.level r.rst = true ∧ t.level p.clk = false ∧
      t.level p.mosi = (s.cfg.ctrlDefault ||| s.cfg.haenMask).getLsbD 0 ∧
      t.stream = s.stream ++ (s.resetStates r ++
        ((s.setValue r.cs true).setValue r.rst true).writeFrameStates p r (opcode s.cfg.opcNibble 0#3 false)
          (regByte (s.cfg.ctrlReg.zeroExtend 8)) (s.cfg.ctrlDefault ||| s.cfg.haenMask)) ∧
      t.sim = s.sim ∧ t.inject = s.inject ∧ t.cfg = s.cfg ∧ t.port = s.port ∧ t.intake = s.intake ∧ t.busIn = s.busIn ∧
      (∀ i, t.shape i = s.shape i) ∧
      (∀ i, i ≠ p.clk → i ≠ p.mosi → i ≠ r.cs → i ≠ r.rst → t.slot i = s.slot i) ∧ s.trace <+: t.trace

/-- 42 R182, 60 R220: REG_BIND's checks in order (distinct, CS, RST, then the SPI pins), and the fatal CFG_ERR of the first that
fails. -/
def Obligations.RegBindOfBadPinsTearsDown : Prop :=
  ∀ (s : State) (p : SpiPins) (r : RegPins) (reason : CfgReason), s.phase ≠ .idle →
    (if ¬ [p.clk, p.mosi, p.miso, r.cs, r.rst].Nodup then some CfgReason.notDistinct
      else if s.slot r.cs = none then some .missing
      else if s.hasDir r.cs .output = false then some .direction
      else if s.slot r.rst = none then some .missing
      else if s.hasDir r.rst .output = false then some .direction
      else s.checkSpiPins p) = some reason →
    exec (.regBind p.clk p.mosi p.miso r.cs r.rst) s = .next (s.closed.answered .cfgErr reason.code)

/-- 42 R188, R187, R180, R181: REG_WRITE, when none of its link calls fails, answers OK and pushes CS low, the opcode, register and
data bytes, CS high, for every device, register operand and datum; only CLK, MOSI and CS change. -/
def Obligations.RegWriteSendsTheFrame : Prop :=
  ∀ (s : State) (p : SpiPins) (r : RegPins) (dev : DevAddr) (reg data : Byte), s.phase = .ready → s.spi = some p →
    s.reg = some r → s.SpiPinsOk p → s.RegPinsOk p r → s.linkGood 56 →
    ∃ t, exec (.regWrite dev reg data) s = .next t ∧ t.responses = s.responses ++ [⟨.ok, 0x00#8⟩] ∧
      t.stream = s.stream ++ s.writeFrameStates p r (opcode s.cfg.opcNibble dev false) (regByte reg) data ∧
      t.txbuf = [] ∧ t.level p.clk = false ∧ t.level p.mosi = data.getLsbD 0 ∧ t.level r.cs = true ∧
      s.SameOutside t (fun i => i = p.clk ∨ i = p.mosi ∨ i = r.cs) ∧ (s.level r.rst = true → t.haenOk = s.haenOk)

/-- 42 R189, R187, R180, R181: REG_READ, when none of its link calls fails, pushes CS low, the opcode with the read bit, the register
byte, 16 states of a receive, CS high, and answers OK with the byte made of MISO's bits of its eight READs. -/
def Obligations.RegReadReturnsTheByteRead : Prop :=
  ∀ (s : State) (p : SpiPins) (r : RegPins) (dev : DevAddr) (reg : Byte), s.phase = .ready → s.spi = some p →
    s.reg = some r → s.SpiPinsOk p → s.RegPinsOk p r → s.linkGood 71 →
    ∃ (bs : List Byte) (t : State), bs.length = 8 ∧ exec (.regRead dev reg) s = .next t ∧
      t.responses = s.responses ++ [⟨.ok, byteOfSamples (bs.map (bitAt · p.miso))⟩] ∧
      readAnswers t.trace = readAnswers s.trace ++ bs.map some ∧
      t.stream = s.stream ++ s.readFrameStates p r (opcode s.cfg.opcNibble dev true) (regByte reg) ∧
      t.txbuf = [] ∧ t.level p.clk = false ∧ t.level p.mosi = reg.getLsbD 0 ∧ t.level r.cs = true ∧
      s.SameOutside t (fun i => i = p.clk ∨ i = p.mosi ∨ i = r.cs ∨ s.hasDir i .input = true) ∧
      (s.level r.rst = true → t.haenOk = s.haenOk)

/-- 30 R103, R104 (log 10): the bus frames by themselves push the states of the write frame of 42 R188 and of the read frame of 42
R189, and answer as REG_WRITE and REG_READ do. -/
def Obligations.BusFramesPushTheirStates : Prop :=
  ∀ (s : State) (p : SpiPins) (r : RegPins) (dev : DevAddr) (reg : BitVec 5), s.phase = .ready → s.spi = some p →
    s.reg = some r → s.SpiPinsOk p → s.RegPinsOk p r →
    (∀ data : Byte, s.linkGood 56 →
      ∃ t, exec (.frameWr dev reg data) s = .next t ∧ t.responses = s.responses ++ [⟨.ok, 0x00#8⟩] ∧
        t.stream = s.stream ++ s.writeFrameStates p r (opcode s.cfg.opcNibble dev false) (reg.zeroExtend 8) data ∧
        t.txbuf = [] ∧ s.SameOutside t (fun i => i = p.clk ∨ i = p.mosi ∨ i = r.cs) ∧
        (s.level r.rst = true → t.haenOk = s.haenOk)) ∧
    (s.linkGood 71 →
      ∃ (bs : List Byte) (t : State), bs.length = 8 ∧ exec (.frameRd dev reg) s = .next t ∧
        t.responses = s.responses ++ [⟨.ok, byteOfSamples (bs.map (bitAt · p.miso))⟩] ∧
        readAnswers t.trace = readAnswers s.trace ++ bs.map some ∧
        t.stream = s.stream ++ s.readFrameStates p r (opcode s.cfg.opcNibble dev true) (reg.zeroExtend 8) ∧
        t.txbuf = [] ∧ s.SameOutside t (fun i => i = p.clk ∨ i = p.mosi ∨ i = r.cs ∨ s.hasDir i .input = true) ∧
        (s.level r.rst = true → t.haenOk = s.haenOk))

/-- 42 R192: with an empty buffer, the clock low and `MAX_PACKET` at least 18, in simulation mode, REG_WRITE is exactly four WRITEs of
18, 17, 17 and 1 bytes, and CS is low in every state but the last. -/
def Obligations.RegWriteIsFourWrites : Prop :=
  ∀ (s : State) (p : SpiPins) (r : RegPins) (dev : DevAddr) (reg data : Byte), s.phase = .ready → s.spi = some p →
    s.reg = some r → s.SpiPinsOk p → s.RegPinsOk p r → s.sim = true → s.txbuf = [] → s.level p.clk = false →
    18 ≤ s.cfg.maxPacket → (dev = 0#3 ∨ s.haenOk = true) →
    ∃ (w1 w2 w3 : List Byte) (w4 : Byte) (t : State), exec (.regWrite dev reg data) s = .next t ∧
      t.trace = s.trace ++ ([.write w1 (some 18), .write w2 (some 17), .write w3 (some 17), .write [w4] (some 1)] : List Event) ∧
      w1.length = 18 ∧ w2.length = 17 ∧ w3.length = 17 ∧
      (∀ b ∈ w1 ++ w2 ++ w3, bitAt b r.cs = false) ∧ bitAt w4 r.cs = true

/-- 42 R192: under the same conditions REG_READ is 19 WRITEs (18, 17, 16 times 1, and 1 bytes) and 8 READs, with CS low in every state
but the last. -/
def Obligations.RegReadIsNineteenWritesAndEightReads : Prop :=
  ∀ (s : State) (p : SpiPins) (r : RegPins) (dev : DevAddr) (reg : Byte), s.phase = .ready → s.spi = some p →
    s.reg = some r → s.SpiPinsOk p → s.RegPinsOk p r → s.sim = true → s.txbuf = [] → s.level p.clk = false →
    18 ≤ s.cfg.maxPacket → (dev = 0#3 ∨ s.haenOk = true) →
    ∃ (w1 w2 : List Byte) (hi lo w3 : Byte) (bs : List Byte) (t : State), bs.length = 8 ∧ exec (.regRead dev reg) s = .next t ∧
      t.trace = s.trace ++ [Event.write w1 (some 18), Event.write w2 (some 17)] ++
        (bs.map fun b => [Event.read (some b), .write [hi] (some 1), .write [lo] (some 1)]).flatten ++ [Event.write [w3] (some 1)] ∧
      w1.length = 18 ∧ w2.length = 17 ∧ (∀ b ∈ w1 ++ w2 ++ [hi, lo], bitAt b r.cs = false) ∧ bitAt w3 r.cs = true

/-- 42 R191 (and log 10 for the frame by itself): a register access with `dev ≠ 0` while `haen_ok` is false is flagged with
ORDER_VIOLATION and then runs unchanged: REG_WRITE and REG_READ are the frame with the masked register address, after the flag. -/
def Obligations.OrderViolationIsFlaggedNotRefused : Prop :=
  ∀ (s : State) (dev : DevAddr) (reg : Byte), s.phase = .ready →
    (∀ data : Byte, exec (.regWrite dev reg data) s = exec (.frameWr dev (reg.extractLsb' 0 5) data)
      (if dev ≠ 0#3 ∧ s.haenOk = false then { s with trace := s.trace ++ [Event.orderViolation dev] } else s)) ∧
    exec (.regRead dev reg) s = exec (.frameRd dev (reg.extractLsb' 0 5))
      (if dev ≠ 0#3 ∧ s.haenOk = false then { s with trace := s.trace ++ [Event.orderViolation dev] } else s)

/-- 42 R194: in simulation mode with reference devices RX of 95 section 1 on the bound pins, one of them strapped at `d`, and after
REG_BIND has reset the bus and sent the HAEN broadcast, REG_WRITE d, r, v followed by REG_READ d, r returns v (for a write of the
control register, as long as it leaves the HAEN bit set). -/
def Obligations.RegisterRoundTrip : Prop :=
  ∀ (s : State) (p : SpiPins) (r : RegPins) (straps : List DevAddr) (d : DevAddr) (reg v : Byte), s.phase ≠ .idle →
    s.SpiPinsOk p → s.RegPinsOk p r → s.sim = true →
    s.cfg.simSource = .expanders p.clk p.mosi p.miso r.cs r.rst straps → d ∈ straps →
    (regByte reg ≠ s.cfg.ctrlReg.zeroExtend 8 ∨ v &&& s.cfg.haenMask ≠ 0x00#8) →
    ∃ t u w, exec (.regBind p.clk p.mosi p.miso r.cs r.rst) s = .next t ∧ exec (.regWrite d reg v) t = .next u ∧
      exec (.regRead d reg) u = .next w ∧ w.responses = s.responses ++ [⟨.ok, 0x00#8⟩, ⟨.ok, 0x00#8⟩, ⟨.ok, v⟩]

/-- 60 R213, R214, 42 R190: the first link call of a transfer or of REG_BIND fails, with nothing buffered and, for a transfer, the clock
low: IO_ERR from the SPI commands in SPI and in READY, REG_ACCESS_ERR with the same cause from the register commands, each fatal, with
the failed call, its bytes, and the teardown's CLOSE in the trace. (Every other link call: FailedLinkCallDecidesTheCause.) -/
def Obligations.FailedTransferIsFatal : Prop :=
  ∀ (s : State) (p : SpiPins) (r : RegPins) (event : Event) (status : Status) (cause : Byte) (i : Instr), s.SpiPinsOk p →
    s.sim = false → s.txbuf = [] → s.answerAt 0 = .fail →
    (((s.phase = .spi ∨ s.phase = .ready) ∧ s.spi = some p ∧ s.level p.clk = false ∧ 17 ≤ s.cfg.maxPacket ∧ status = .ioErr ∧
        ((∃ v, i = .spiSend v ∧ event = .write (s.sendStates p v) none ∧ cause = 0x01#8) ∨
          (i = .spiRecv ∧ event = .read none ∧ cause = 0x02#8))) ∨
      (s.phase = .ready ∧ s.spi = some p ∧ s.reg = some r ∧ s.RegPinsOk p r ∧ s.level p.clk = false ∧ 18 ≤ s.cfg.maxPacket ∧
        status = .regAccessErr ∧ cause = 0x01#8 ∧ ∃ dev read, (dev = 0#3 ∨ s.haenOk = true) ∧
        ((∃ reg data, read = false ∧ i = .regWrite dev reg data) ∨ (∃ reg, read = true ∧ i = .regRead dev reg)) ∧
        event = .write ((s.setValue r.cs false).pinByte ::
          (s.setValue r.cs false).sendStates p (opcode s.cfg.opcNibble dev read)) none) ∨
      (s.phase ≠ .idle ∧ s.RegPinsOk p r ∧ i = .regBind p.clk p.mosi p.miso r.cs r.rst ∧ status = .regAccessErr ∧ cause = 0x01#8 ∧
        event = .write [((s.setValue r.cs true).setValue r.rst false).pinByte] none)) →
    exec i s =
      .next (State.answered
        (State.closed { s with trace := s.trace ++ [event], answers := s.answers.tail, draws := s.draws + 1 }) status cause)

/-- 60 R213, R214, R220, 42 R190 (of the bus frames: log 10): whichever link call of a flushing SET_PINS, a GET_PINS, a transfer, a
REG_BIND or a register access fails, whatever is buffered, whatever the clock and `MAX_PACKET`, it is the last call but the teardown's
CLOSE, the calls before it are those the rules give, and its kind is the cause: 0x01 for a WRITE, 0x02 for a READ, of IO_ERR or, in the
register layer, of REG_ACCESS_ERR. -/
def Obligations.FailedLinkCallDecidesTheCause : Prop :=
  ∀ (s : State) (clk : PinIx) (i : Instr) (k : Nat) (op : LinkOp), s.Inv → s.sim = false → accepts i s = true →
    (∀ p, s.spi = some p → p.clk = clk) →
    (∀ c mo mi cs rst, i = .regBind c mo mi cs rst → s.SpiPinsOk ⟨c, mo, mi⟩ ∧ s.RegPinsOk ⟨c, mo, mi⟩ ⟨cs, rst⟩) →
    (s.linkCalls clk i)[k]? = some op → (∀ m, m < k → s.answerAt m ≠ .fail) → s.answerAt k = .fail →
    ∃ (t : State) (event : Event) (ok : Bool), exec i s = .next t ∧ t.AtPowerOn ∧
      t.responses = s.responses ++ [⟨if ofRegisterLayer i then .regAccessErr else .ioErr, op.code⟩] ∧
      Event.isFailed op event = true ∧ [event, .closeLink ok] <:+ t.trace ∧ s.trace <+: t.trace ∧
      linkOps t.trace = linkOps s.trace ++ (s.linkCalls clk i).take (k + 1)

/-- 40 R120, R125, 41 R154, R157, 42 R184, R185, R188, R189, R192 (of the bus frames: log 10): when none of its link calls fails, a
flushing SET_PINS, a GET_PINS, a transfer, a REG_BIND or a register access makes exactly the READs and WRITEs the rules give, whatever
is buffered, whatever the clock and `MAX_PACKET`, answers OK and leaves nothing buffered. -/
def Obligations.TransferMakesItsLinkCalls : Prop :=
  ∀ (s : State) (clk : PinIx) (i : Instr), s.Inv → accepts i s = true → (∀ p, s.spi = some p → p.clk = clk) →
    (∀ c mo mi cs rst, i = .regBind c mo mi cs rst → s.SpiPinsOk ⟨c, mo, mi⟩ ∧ s.RegPinsOk ⟨c, mo, mi⟩ ⟨cs, rst⟩) →
    s.linkCalls clk i ≠ [] → s.linkGood (s.linkCalls clk i).length →
    ∃ (t : State) (d : Byte), exec i s = .next t ∧ t.responses = s.responses ++ [⟨.ok, d⟩] ∧ t.txbuf = [] ∧
      linkOps t.trace = linkOps s.trace ++ s.linkCalls clk i

/-! ## The whole machine -/

/-- 10 R43, 70 R240: the power-on value of every piece of the block's state. -/
def Obligations.ResetIsPowerOn : Prop :=
  State.reset.phase = .idle ∧ State.reset.sim = false ∧ (∀ i, State.reset.slot i = none) ∧
  State.reset.outMask = 0x00#8 ∧ State.reset.inMask = 0x00#8 ∧ State.reset.activeMask = 0x00#8 ∧
  State.reset.txbuf = [] ∧ State.reset.history = [] ∧ State.reset.spi = none ∧ State.reset.reg = none ∧
  State.reset.inject = 0x00#8 ∧ State.reset.haenOk = false ∧ State.reset.trace = []

/-- The invariant of the machine holds at reset. -/
def Obligations.InvariantAtReset : Prop := State.reset.Inv ∧ State.reset.HistoryIsTail

/-- 10 R20, R27 to R30, R32, R39, R40, 70 R240: every step keeps the invariant: in IDLE the block is at power-on; the bindings are
there exactly in the phases that say so, with the pins as checked; the buffer, the history and every WRITE are within their bounds; the
link is open exactly when the phase is not IDLE. -/
def Obligations.EveryStepKeepsTheInvariant : Prop :=
  ∀ s t : State, s.Inv → step s = .next t → t.Inv

/-- 40 R124: every step keeps that the history is the last `HIST_CAP` bytes of everything sent since the link was opened, and empty in
IDLE. -/
def Obligations.EveryStepKeepsTheHistoryATail : Prop :=
  ∀ s t : State, s.Inv → s.HistoryIsTail → step s = .next t → t.HistoryIsTail

/-- No instruction stops the machine in a state that satisfies the invariant: whatever the operands and whatever the link answers,
`exec` answers a next state; and a step does, whatever stands at the port and whether the framer is empty or holds part of a frame or a
frame, unless its bytes are no frame of the block (log 15). -/
def Obligations.NoInstructionStopsTheMachine : Prop :=
  (∀ (i : Instr) (s : State), s.Inv → ∃ t, exec i s = .next t) ∧
  (∀ s : State, s.Inv → decodeBus s.cfg.opcNibble s.busIn ≠ .foreign → ∃ t, step s = .next t)

/-- 10 R42, R35: no step shortens or rewrites the trace, and none changes the parameters. -/
def Obligations.TraceOnlyGrows : Prop :=
  ∀ s t : State, step s = .next t → s.trace <+: t.trace ∧ t.cfg = s.cfg

/-- 10 R23: presence, direction and name of every slot are fixed by PLANE_INIT: once there is a plane, no instruction changes them that
does not take the block back to IDLE. -/
def Obligations.OnlyPlaneInitShapesTheArena : Prop :=
  ∀ (i : Instr) (s t : State), exec i s = .next t → s.phase ≠ .idle → t.phase ≠ .idle → ∀ j, t.shape j = s.shape j

/-- 10 R20, R21, R29, R30, R31: who writes the control state. An instruction other than PLANE_INIT that does not leave the block at
power-on leaves `sim` as it is; all but INJECT leave `inject`; all but REG_BIND leave `reg`; and all but REG_BIND and SPI_BIND leave
phase and `spi`. -/
def Obligations.ControlStateHasItsWriters : Prop :=
  ∀ (i : Instr) (s t : State), exec i s = .next t → (∀ es sim, i ≠ .planeInit es sim) →
    t.AtPowerOn ∨
      (t.sim = s.sim ∧ ((∀ v, i ≠ .inject v) → t.inject = s.inject) ∧
        ((∀ c mo mi cs rst, i ≠ .regBind c mo mi cs rst) →
          t.reg = s.reg ∧ ((∀ c mo mi, i ≠ .spiBind c mo mi) → t.phase = s.phase ∧ t.spi = s.spi)))

/-- 10 R32: the block's behaviour never depends on the ghost. Two states equal but for `haen_ok` and the ORDER_VIOLATION events of their
traces are taken to two such states by every instruction and by every step: one answers a next state if the other does. (A `sim_source`
is a function of the trace, 20 R66; one that looks at ORDER_VIOLATION events would see the ghost, so in simulation mode the unnamed
sources are left out.) -/
def Obligations.GhostNeverMatters : Prop :=
  ∀ s s' : State, s.SameButGhost s' → (s.sim = false ∨ ∀ n, s.cfg.simSource ≠ .other n) →
    (∀ (i : Instr) (t : State), exec i s = .next t → ∃ t', exec i s' = .next t' ∧ t.SameButGhost t') ∧
    (∀ t : State, step s = .next t → ∃ t', step s' = .next t' ∧ t.SameButGhost t')
end

