-- ==== Sys2Proof/Laws/State.lean ====
section
/-!
SUPPORT. One lemma per field per update of State, so that no later proof unfolds a record update.
-/

namespace Sys2Proof.Machine

/-! ## `State.record` -/

@[simp] theorem State.record_phase (s : State) (e : Event) : (s.record e).phase = s.phase := rfl
@[simp] theorem State.record_sim (s : State) (e : Event) : (s.record e).sim = s.sim := rfl
@[simp] theorem State.record_pins (s : State) (e : Event) : (s.record e).pins = s.pins := rfl
@[simp] theorem State.record_txbuf (s : State) (e : Event) : (s.record e).txbuf = s.txbuf := rfl
@[simp] theorem State.record_history (s : State) (e : Event) : (s.record e).history = s.history := rfl
@[simp] theorem State.record_spi (s : State) (e : Event) : (s.record e).spi = s.spi := rfl
@[simp] theorem State.record_reg (s : State) (e : Event) : (s.record e).reg = s.reg := rfl
@[simp] theorem State.record_inject (s : State) (e : Event) : (s.record e).inject = s.inject := rfl
@[simp] theorem State.record_haenOk (s : State) (e : Event) : (s.record e).haenOk = s.haenOk := rfl
@[simp] theorem State.record_trace (s : State) (e : Event) : (s.record e).trace = s.trace ++ [e] := rfl
@[simp] theorem State.record_cfg (s : State) (e : Event) : (s.record e).cfg = s.cfg := rfl
@[simp] theorem State.record_port (s : State) (e : Event) : (s.record e).port = s.port := rfl
@[simp] theorem State.record_intake (s : State) (e : Event) : (s.record e).intake = s.intake := rfl
@[simp] theorem State.record_busIn (s : State) (e : Event) : (s.record e).busIn = s.busIn := rfl
@[simp] theorem State.record_responses (s : State) (e : Event) : (s.record e).responses = s.responses := rfl
@[simp] theorem State.record_answers (s : State) (e : Event) : (s.record e).answers = s.answers := rfl
@[simp] theorem State.record_draws (s : State) (e : Event) : (s.record e).draws = s.draws := rfl

/-! ## `State.setValue` -/

@[simp] theorem State.setValue_phase (s : State) (i : PinIx) (b : Bool) : (s.setValue i b).phase = s.phase := rfl
@[simp] theorem State.setValue_sim (s : State) (i : PinIx) (b : Bool) : (s.setValue i b).sim = s.sim := rfl
@[simp] theorem State.setValue_txbuf (s : State) (i : PinIx) (b : Bool) : (s.setValue i b).txbuf = s.txbuf := rfl
@[simp] theorem State.setValue_history (s : State) (i : PinIx) (b : Bool) : (s.setValue i b).history = s.history := rfl
@[simp] theorem State.setValue_spi (s : State) (i : PinIx) (b : Bool) : (s.setValue i b).spi = s.spi := rfl
@[simp] theorem State.setValue_reg (s : State) (i : PinIx) (b : Bool) : (s.setValue i b).reg = s.reg := rfl
@[simp] theorem State.setValue_inject (s : State) (i : PinIx) (b : Bool) : (s.setValue i b).inject = s.inject := rfl
@[simp] theorem State.setValue_haenOk (s : State) (i : PinIx) (b : Bool) : (s.setValue i b).haenOk = s.haenOk := rfl
@[simp] theorem State.setValue_trace (s : State) (i : PinIx) (b : Bool) : (s.setValue i b).trace = s.trace := rfl
@[simp] theorem State.setValue_cfg (s : State) (i : PinIx) (b : Bool) : (s.setValue i b).cfg = s.cfg := rfl
@[simp] theorem State.setValue_port (s : State) (i : PinIx) (b : Bool) : (s.setValue i b).port = s.port := rfl
@[simp] theorem State.setValue_intake (s : State) (i : PinIx) (b : Bool) : (s.setValue i b).intake = s.intake := rfl
@[simp] theorem State.setValue_busIn (s : State) (i : PinIx) (b : Bool) : (s.setValue i b).busIn = s.busIn := rfl
@[simp] theorem State.setValue_responses (s : State) (i : PinIx) (b : Bool) : (s.setValue i b).responses = s.responses := rfl
@[simp] theorem State.setValue_answers (s : State) (i : PinIx) (b : Bool) : (s.setValue i b).answers = s.answers := rfl
@[simp] theorem State.setValue_draws (s : State) (i : PinIx) (b : Bool) : (s.setValue i b).draws = s.draws := rfl

/-! ## `State.drawn` -/

@[simp] theorem State.drawn_phase (s : State) : (s.drawn).phase = s.phase := rfl
@[simp] theorem State.drawn_sim (s : State) : (s.drawn).sim = s.sim := rfl
@[simp] theorem State.drawn_pins (s : State) : (s.drawn).pins = s.pins := rfl
@[simp] theorem State.drawn_txbuf (s : State) : (s.drawn).txbuf = s.txbuf := rfl
@[simp] theorem State.drawn_history (s : State) : (s.drawn).history = s.history := rfl
@[simp] theorem State.drawn_spi (s : State) : (s.drawn).spi = s.spi := rfl
@[simp] theorem State.drawn_reg (s : State) : (s.drawn).reg = s.reg := rfl
@[simp] theorem State.drawn_inject (s : State) : (s.drawn).inject = s.inject := rfl
@[simp] theorem State.drawn_haenOk (s : State) : (s.drawn).haenOk = s.haenOk := rfl
@[simp] theorem State.drawn_trace (s : State) : (s.drawn).trace = s.trace := rfl
@[simp] theorem State.drawn_cfg (s : State) : (s.drawn).cfg = s.cfg := rfl
@[simp] theorem State.drawn_port (s : State) : (s.drawn).port = s.port := rfl
@[simp] theorem State.drawn_intake (s : State) : (s.drawn).intake = s.intake := rfl
@[simp] theorem State.drawn_busIn (s : State) : (s.drawn).busIn = s.busIn := rfl
@[simp] theorem State.drawn_responses (s : State) : (s.drawn).responses = s.responses := rfl
@[simp] theorem State.drawn_answers (s : State) : (s.drawn).answers = s.answers.tail := rfl
@[simp] theorem State.drawn_draws (s : State) : (s.drawn).draws = s.draws + 1 := rfl

/-! ## `State.respond` -/

@[simp] theorem State.respond_phase (s : State) (c : Status) (d : Byte) : (s.respond c d).phase = s.phase := rfl
@[simp] theorem State.respond_sim (s : State) (c : Status) (d : Byte) : (s.respond c d).sim = s.sim := rfl
@[simp] theorem State.respond_pins (s : State) (c : Status) (d : Byte) : (s.respond c d).pins = s.pins := rfl
@[simp] theorem State.respond_txbuf (s : State) (c : Status) (d : Byte) : (s.respond c d).txbuf = s.txbuf := rfl
@[simp] theorem State.respond_history (s : State) (c : Status) (d : Byte) : (s.respond c d).history = s.history := rfl
@[simp] theorem State.respond_spi (s : State) (c : Status) (d : Byte) : (s.respond c d).spi = s.spi := rfl
@[simp] theorem State.respond_reg (s : State) (c : Status) (d : Byte) : (s.respond c d).reg = s.reg := rfl
@[simp] theorem State.respond_inject (s : State) (c : Status) (d : Byte) : (s.respond c d).inject = s.inject := rfl
@[simp] theorem State.respond_haenOk (s : State) (c : Status) (d : Byte) : (s.respond c d).haenOk = s.haenOk := rfl
@[simp] theorem State.respond_trace (s : State) (c : Status) (d : Byte) : (s.respond c d).trace = s.trace := rfl
@[simp] theorem State.respond_cfg (s : State) (c : Status) (d : Byte) : (s.respond c d).cfg = s.cfg := rfl
@[simp] theorem State.respond_port (s : State) (c : Status) (d : Byte) : (s.respond c d).port = s.port := rfl
@[simp] theorem State.respond_intake (s : State) (c : Status) (d : Byte) : (s.respond c d).intake = s.intake := rfl
@[simp] theorem State.respond_busIn (s : State) (c : Status) (d : Byte) : (s.respond c d).busIn = s.busIn := rfl
@[simp] theorem State.respond_responses (s : State) (c : Status) (d : Byte) : (s.respond c d).responses = s.responses ++ [⟨c, d⟩] := rfl
@[simp] theorem State.respond_answers (s : State) (c : Status) (d : Byte) : (s.respond c d).answers = s.answers := rfl
@[simp] theorem State.respond_draws (s : State) (c : Status) (d : Byte) : (s.respond c d).draws = s.draws := rfl

/-! ## `State.takeSnapshot` -/

@[simp] theorem State.takeSnapshot_phase (s : State) (b : Byte) : (s.takeSnapshot b).phase = s.phase := rfl
@[simp] theorem State.takeSnapshot_sim (s : State) (b : Byte) : (s.takeSnapshot b).sim = s.sim := rfl
@[simp] theorem State.takeSnapshot_txbuf (s : State) (b : Byte) : (s.takeSnapshot b).txbuf = s.txbuf := rfl
@[simp] theorem State.takeSnapshot_history (s : State) (b : Byte) : (s.takeSnapshot b).history = s.history := rfl
@[simp] theorem State.takeSnapshot_spi (s : State) (b : Byte) : (s.takeSnapshot b).spi = s.spi := rfl
@[simp] theorem State.takeSnapshot_reg (s : State) (b : Byte) : (s.takeSnapshot b).reg = s.reg := rfl
@[simp] theorem State.takeSnapshot_inject (s : State) (b : Byte) : (s.takeSnapshot b).inject = s.inject := rfl
@[simp] theorem State.takeSnapshot_haenOk (s : State) (b : Byte) : (s.takeSnapshot b).haenOk = s.haenOk := rfl
@[simp] theorem State.takeSnapshot_trace (s : State) (b : Byte) : (s.takeSnapshot b).trace = s.trace := rfl
@[simp] theorem State.takeSnapshot_cfg (s : State) (b : Byte) : (s.takeSnapshot b).cfg = s.cfg := rfl
@[simp] theorem State.takeSnapshot_port (s : State) (b : Byte) : (s.takeSnapshot b).port = s.port := rfl
@[simp] theorem State.takeSnapshot_intake (s : State) (b : Byte) : (s.takeSnapshot b).intake = s.intake := rfl
@[simp] theorem State.takeSnapshot_busIn (s : State) (b : Byte) : (s.takeSnapshot b).busIn = s.busIn := rfl
@[simp] theorem State.takeSnapshot_responses (s : State) (b : Byte) : (s.takeSnapshot b).responses = s.responses := rfl
@[simp] theorem State.takeSnapshot_answers (s : State) (b : Byte) : (s.takeSnapshot b).answers = s.answers := rfl
@[simp] theorem State.takeSnapshot_draws (s : State) (b : Byte) : (s.takeSnapshot b).draws = s.draws := rfl

/-! ## `State.appendHistory` -/

@[simp] theorem State.appendHistory_phase (s : State) (bs : List Byte) : (s.appendHistory bs).phase = s.phase := rfl
@[simp] theorem State.appendHistory_sim (s : State) (bs : List Byte) : (s.appendHistory bs).sim = s.sim := rfl
@[simp] theorem State.appendHistory_pins (s : State) (bs : List Byte) : (s.appendHistory bs).pins = s.pins := rfl
@[simp] theorem State.appendHistory_txbuf (s : State) (bs : List Byte) : (s.appendHistory bs).txbuf = s.txbuf := rfl
@[simp] theorem State.appendHistory_history (s : State) (bs : List Byte) : (s.appendHistory bs).history = lastOf s.cfg.histCap (s.history ++ bs) := rfl
@[simp] theorem State.appendHistory_spi (s : State) (bs : List Byte) : (s.appendHistory bs).spi = s.spi := rfl
@[simp] theorem State.appendHistory_reg (s : State) (bs : List Byte) : (s.appendHistory bs).reg = s.reg := rfl
@[simp] theorem State.appendHistory_inject (s : State) (bs : List Byte) : (s.appendHistory bs).inject = s.inject := rfl
@[simp] theorem State.appendHistory_haenOk (s : State) (bs : List Byte) : (s.appendHistory bs).haenOk = s.haenOk := rfl
@[simp] theorem State.appendHistory_trace (s : State) (bs : List Byte) : (s.appendHistory bs).trace = s.trace := rfl
@[simp] theorem State.appendHistory_cfg (s : State) (bs : List Byte) : (s.appendHistory bs).cfg = s.cfg := rfl
@[simp] theorem State.appendHistory_port (s : State) (bs : List Byte) : (s.appendHistory bs).port = s.port := rfl
@[simp] theorem State.appendHistory_intake (s : State) (bs : List Byte) : (s.appendHistory bs).intake = s.intake := rfl
@[simp] theorem State.appendHistory_busIn (s : State) (bs : List Byte) : (s.appendHistory bs).busIn = s.busIn := rfl
@[simp] theorem State.appendHistory_responses (s : State) (bs : List Byte) : (s.appendHistory bs).responses = s.responses := rfl
@[simp] theorem State.appendHistory_answers (s : State) (bs : List Byte) : (s.appendHistory bs).answers = s.answers := rfl
@[simp] theorem State.appendHistory_draws (s : State) (bs : List Byte) : (s.appendHistory bs).draws = s.draws := rfl

/-! ## `State.powerOn` -/

@[simp] theorem State.powerOn_phase (s : State) : (s.powerOn).phase = .idle := rfl
@[simp] theorem State.powerOn_sim (s : State) : (s.powerOn).sim = false := rfl
@[simp] theorem State.powerOn_pins (s : State) : (s.powerOn).pins = Vector.replicate 8 none := rfl
@[simp] theorem State.powerOn_txbuf (s : State) : (s.powerOn).txbuf = [] := rfl
@[simp] theorem State.powerOn_history (s : State) : (s.powerOn).history = [] := rfl
@[simp] theorem State.powerOn_spi (s : State) : (s.powerOn).spi = none := rfl
@[simp] theorem State.powerOn_reg (s : State) : (s.powerOn).reg = none := rfl
@[simp] theorem State.powerOn_inject (s : State) : (s.powerOn).inject = 0#8 := rfl
@[simp] theorem State.powerOn_haenOk (s : State) : (s.powerOn).haenOk = false := rfl
@[simp] theorem State.powerOn_trace (s : State) : (s.powerOn).trace = s.trace := rfl
@[simp] theorem State.powerOn_cfg (s : State) : (s.powerOn).cfg = s.cfg := rfl
@[simp] theorem State.powerOn_port (s : State) : (s.powerOn).port = s.port := rfl
@[simp] theorem State.powerOn_intake (s : State) : (s.powerOn).intake = s.intake := rfl
@[simp] theorem State.powerOn_busIn (s : State) : (s.powerOn).busIn = s.busIn := rfl
@[simp] theorem State.powerOn_responses (s : State) : (s.powerOn).responses = s.responses := rfl
@[simp] theorem State.powerOn_answers (s : State) : (s.powerOn).answers = s.answers := rfl
@[simp] theorem State.powerOn_draws (s : State) : (s.powerOn).draws = s.draws := rfl

/-! ## `State.buildArena` -/

@[simp] theorem State.buildArena_phase (s : State) (es : List Entry) (b : Bool) : (s.buildArena es b).phase = s.phase := rfl
@[simp] theorem State.buildArena_sim (s : State) (es : List Entry) (b : Bool) : (s.buildArena es b).sim = b := rfl
@[simp] theorem State.buildArena_pins (s : State) (es : List Entry) (b : Bool) : (s.buildArena es b).pins = es.foldl placeEntry (Vector.replicate 8 none) := rfl
@[simp] theorem State.buildArena_txbuf (s : State) (es : List Entry) (b : Bool) : (s.buildArena es b).txbuf = [] := rfl
@[simp] theorem State.buildArena_history (s : State) (es : List Entry) (b : Bool) : (s.buildArena es b).history = [] := rfl
@[simp] theorem State.buildArena_spi (s : State) (es : List Entry) (b : Bool) : (s.buildArena es b).spi = none := rfl
@[simp] theorem State.buildArena_reg (s : State) (es : List Entry) (b : Bool) : (s.buildArena es b).reg = none := rfl
@[simp] theorem State.buildArena_inject (s : State) (es : List Entry) (b : Bool) : (s.buildArena es b).inject = 0#8 := rfl
@[simp] theorem State.buildArena_haenOk (s : State) (es : List Entry) (b : Bool) : (s.buildArena es b).haenOk = false := rfl
@[simp] theorem State.buildArena_trace (s : State) (es : List Entry) (b : Bool) : (s.buildArena es b).trace = s.trace := rfl
@[simp] theorem State.buildArena_cfg (s : State) (es : List Entry) (b : Bool) : (s.buildArena es b).cfg = s.cfg := rfl
@[simp] theorem State.buildArena_port (s : State) (es : List Entry) (b : Bool) : (s.buildArena es b).port = s.port := rfl
@[simp] theorem State.buildArena_intake (s : State) (es : List Entry) (b : Bool) : (s.buildArena es b).intake = s.intake := rfl
@[simp] theorem State.buildArena_busIn (s : State) (es : List Entry) (b : Bool) : (s.buildArena es b).busIn = s.busIn := rfl
@[simp] theorem State.buildArena_responses (s : State) (es : List Entry) (b : Bool) : (s.buildArena es b).responses = s.responses := rfl
@[simp] theorem State.buildArena_answers (s : State) (es : List Entry) (b : Bool) : (s.buildArena es b).answers = s.answers := rfl
@[simp] theorem State.buildArena_draws (s : State) (es : List Entry) (b : Bool) : (s.buildArena es b).draws = s.draws := rfl

/-! ## `State.noteReset` -/

@[simp] theorem State.noteReset_phase (s : State) (b : Byte) : (s.noteReset b).phase = s.phase := by
  unfold State.noteReset; repeat' split
  all_goals rfl
@[simp] theorem State.noteReset_sim (s : State) (b : Byte) : (s.noteReset b).sim = s.sim := by
  unfold State.noteReset; repeat' split
  all_goals rfl
@[simp] theorem State.noteReset_pins (s : State) (b : Byte) : (s.noteReset b).pins = s.pins := by
  unfold State.noteReset; repeat' split
  all_goals rfl
@[simp] theorem State.noteReset_txbuf (s : State) (b : Byte) : (s.noteReset b).txbuf = s.txbuf := by
  unfold State.noteReset; repeat' split
  all_goals rfl
@[simp] theorem State.noteReset_history (s : State) (b : Byte) : (s.noteReset b).history = s.history := by
  unfold State.noteReset; repeat' split
  all_goals rfl
@[simp] theorem State.noteReset_spi (s : State) (b : Byte) : (s.noteReset b).spi = s.spi := by
  unfold State.noteReset; repeat' split
  all_goals rfl
@[simp] theorem State.noteReset_reg (s : State) (b : Byte) : (s.noteReset b).reg = s.reg := by
  unfold State.noteReset; repeat' split
  all_goals rfl
@[simp] theorem State.noteReset_inject (s : State) (b : Byte) : (s.noteReset b).inject = s.inject := by
  unfold State.noteReset; repeat' split
  all_goals rfl
@[simp] theorem State.noteReset_trace (s : State) (b : Byte) : (s.noteReset b).trace = s.trace := by
  unfold State.noteReset; repeat' split
  all_goals rfl
@[simp] theorem State.noteReset_cfg (s : State) (b : Byte) : (s.noteReset b).cfg = s.cfg := by
  unfold State.noteReset; repeat' split
  all_goals rfl
@[simp] theorem State.noteReset_port (s : State) (b : Byte) : (s.noteReset b).port = s.port := by
  unfold State.noteReset; repeat' split
  all_goals rfl
@[simp] theorem State.noteReset_intake (s : State) (b : Byte) : (s.noteReset b).intake = s.intake := by
  unfold State.noteReset; repeat' split
  all_goals rfl
@[simp] theorem State.noteReset_busIn (s : State) (b : Byte) : (s.noteReset b).busIn = s.busIn := by
  unfold State.noteReset; repeat' split
  all_goals rfl
@[simp] theorem State.noteReset_responses (s : State) (b : Byte) : (s.noteReset b).responses = s.responses := by
  unfold State.noteReset; repeat' split
  all_goals rfl
@[simp] theorem State.noteReset_answers (s : State) (b : Byte) : (s.noteReset b).answers = s.answers := by
  unfold State.noteReset; repeat' split
  all_goals rfl
@[simp] theorem State.noteReset_draws (s : State) (b : Byte) : (s.noteReset b).draws = s.draws := by
  unfold State.noteReset; repeat' split
  all_goals rfl

/-! ## `State.noteShortWrite` -/

@[simp] theorem State.noteShortWrite_phase (s : State) (n len : Nat) : (s.noteShortWrite n len).phase = s.phase := by
  unfold State.noteShortWrite; split <;> rfl
@[simp] theorem State.noteShortWrite_sim (s : State) (n len : Nat) : (s.noteShortWrite n len).sim = s.sim := by
  unfold State.noteShortWrite; split <;> rfl
@[simp] theorem State.noteShortWrite_pins (s : State) (n len : Nat) : (s.noteShortWrite n len).pins = s.pins := by
  unfold State.noteShortWrite; split <;> rfl
@[simp] theorem State.noteShortWrite_txbuf (s : State) (n len : Nat) : (s.noteShortWrite n len).txbuf = s.txbuf := by
  unfold State.noteShortWrite; split <;> rfl
@[simp] theorem State.noteShortWrite_history (s : State) (n len : Nat) : (s.noteShortWrite n len).history = s.history := by
  unfold State.noteShortWrite; split <;> rfl
@[simp] theorem State.noteShortWrite_spi (s : State) (n len : Nat) : (s.noteShortWrite n len).spi = s.spi := by
  unfold State.noteShortWrite; split <;> rfl
@[simp] theorem State.noteShortWrite_reg (s : State) (n len : Nat) : (s.noteShortWrite n len).reg = s.reg := by
  unfold State.noteShortWrite; split <;> rfl
@[simp] theorem State.noteShortWrite_inject (s : State) (n len : Nat) : (s.noteShortWrite n len).inject = s.inject := by
  unfold State.noteShortWrite; split <;> rfl
@[simp] theorem State.noteShortWrite_haenOk (s : State) (n len : Nat) : (s.noteShortWrite n len).haenOk = s.haenOk := by
  unfold State.noteShortWrite; split <;> rfl
@[simp] theorem State.noteShortWrite_cfg (s : State) (n len : Nat) : (s.noteShortWrite n len).cfg = s.cfg := by
  unfold State.noteShortWrite; split <;> rfl
@[simp] theorem State.noteShortWrite_port (s : State) (n len : Nat) : (s.noteShortWrite n len).port = s.port := by
  unfold State.noteShortWrite; split <;> rfl
@[simp] theorem State.noteShortWrite_intake (s : State) (n len : Nat) : (s.noteShortWrite n len).intake = s.intake := by
  unfold State.noteShortWrite; split <;> rfl
@[simp] theorem State.noteShortWrite_busIn (s : State) (n len : Nat) : (s.noteShortWrite n len).busIn = s.busIn := by
  unfold State.noteShortWrite; split <;> rfl
@[simp] theorem State.noteShortWrite_responses (s : State) (n len : Nat) : (s.noteShortWrite n len).responses = s.responses := by
  unfold State.noteShortWrite; split <;> rfl
@[simp] theorem State.noteShortWrite_answers (s : State) (n len : Nat) : (s.noteShortWrite n len).answers = s.answers := by
  unfold State.noteShortWrite; split <;> rfl
@[simp] theorem State.noteShortWrite_draws (s : State) (n len : Nat) : (s.noteShortWrite n len).draws = s.draws := by
  unfold State.noteShortWrite; split <;> rfl

/-! ## `State.orderCheck` -/

@[simp] theorem State.orderCheck_phase (s : State) (dev : DevAddr) : (s.orderCheck dev).phase = s.phase := by
  unfold State.orderCheck; split <;> rfl
@[simp] theorem State.orderCheck_sim (s : State) (dev : DevAddr) : (s.orderCheck dev).sim = s.sim := by
  unfold State.orderCheck; split <;> rfl
@[simp] theorem State.orderCheck_pins (s : State) (dev : DevAddr) : (s.orderCheck dev).pins = s.pins := by
  unfold State.orderCheck; split <;> rfl
@[simp] theorem State.orderCheck_txbuf (s : State) (dev : DevAddr) : (s.orderCheck dev).txbuf = s.txbuf := by
  unfold State.orderCheck; split <;> rfl
@[simp] theorem State.orderCheck_history (s : State) (dev : DevAddr) : (s.orderCheck dev).history = s.history := by
  unfold State.orderCheck; split <;> rfl
@[simp] theorem State.orderCheck_spi (s : State) (dev : DevAddr) : (s.orderCheck dev).spi = s.spi := by
  unfold State.orderCheck; split <;> rfl
@[simp] theorem State.orderCheck_reg (s : State) (dev : DevAddr) : (s.orderCheck dev).reg = s.reg := by
  unfold State.orderCheck; split <;> rfl
@[simp] theorem State.orderCheck_inject (s : State) (dev : DevAddr) : (s.orderCheck dev).inject = s.inject := by
  unfold State.orderCheck; split <;> rfl
@[simp] theorem State.orderCheck_haenOk (s : State) (dev : DevAddr) : (s.orderCheck dev).haenOk = s.haenOk := by
  unfold State.orderCheck; split <;> rfl
@[simp] theorem State.orderCheck_cfg (s : State) (dev : DevAddr) : (s.orderCheck dev).cfg = s.cfg := by
  unfold State.orderCheck; split <;> rfl
@[simp] theorem State.orderCheck_port (s : State) (dev : DevAddr) : (s.orderCheck dev).port = s.port := by
  unfold State.orderCheck; split <;> rfl
@[simp] theorem State.orderCheck_intake (s : State) (dev : DevAddr) : (s.orderCheck dev).intake = s.intake := by
  unfold State.orderCheck; split <;> rfl
@[simp] theorem State.orderCheck_busIn (s : State) (dev : DevAddr) : (s.orderCheck dev).busIn = s.busIn := by
  unfold State.orderCheck; split <;> rfl
@[simp] theorem State.orderCheck_responses (s : State) (dev : DevAddr) : (s.orderCheck dev).responses = s.responses := by
  unfold State.orderCheck; split <;> rfl
@[simp] theorem State.orderCheck_answers (s : State) (dev : DevAddr) : (s.orderCheck dev).answers = s.answers := by
  unfold State.orderCheck; split <;> rfl
@[simp] theorem State.orderCheck_draws (s : State) (dev : DevAddr) : (s.orderCheck dev).draws = s.draws := by
  unfold State.orderCheck; split <;> rfl

/-! ## `State.buffer` -/

@[simp] theorem State.buffer_phase (s : State) : (s.buffer).phase = s.phase := by
  simp [State.buffer]
@[simp] theorem State.buffer_sim (s : State) : (s.buffer).sim = s.sim := by
  simp [State.buffer]
@[simp] theorem State.buffer_pins (s : State) : (s.buffer).pins = s.pins := by
  simp [State.buffer]
@[simp] theorem State.buffer_history (s : State) : (s.buffer).history = s.history := by
  simp [State.buffer]
@[simp] theorem State.buffer_spi (s : State) : (s.buffer).spi = s.spi := by
  simp [State.buffer]
@[simp] theorem State.buffer_reg (s : State) : (s.buffer).reg = s.reg := by
  simp [State.buffer]
@[simp] theorem State.buffer_inject (s : State) : (s.buffer).inject = s.inject := by
  simp [State.buffer]
@[simp] theorem State.buffer_trace (s : State) : (s.buffer).trace = s.trace := by
  simp [State.buffer]
@[simp] theorem State.buffer_cfg (s : State) : (s.buffer).cfg = s.cfg := by
  simp [State.buffer]
@[simp] theorem State.buffer_port (s : State) : (s.buffer).port = s.port := by
  simp [State.buffer]
@[simp] theorem State.buffer_intake (s : State) : (s.buffer).intake = s.intake := by
  simp [State.buffer]
@[simp] theorem State.buffer_busIn (s : State) : (s.buffer).busIn = s.busIn := by
  simp [State.buffer]
@[simp] theorem State.buffer_responses (s : State) : (s.buffer).responses = s.responses := by
  simp [State.buffer]
@[simp] theorem State.buffer_answers (s : State) : (s.buffer).answers = s.answers := by
  simp [State.buffer]
@[simp] theorem State.buffer_draws (s : State) : (s.buffer).draws = s.draws := by
  simp [State.buffer]

@[simp] theorem State.buffer_txbuf (s : State) : s.buffer.txbuf = s.txbuf ++ [s.pinByte] := by simp [State.buffer]

end Sys2Proof.Machine
end

