-- ==== Sys2Proof/Laws/Pins.lean ====
section
/-!
SUPPORT. The pin arena: what each operation does to a slot, and the bits of the bytes made from the slots.
-/

namespace Sys2Proof.Machine

/-! ## Bytes from bits -/

/-- Bit `i` of `byteOf f` is `f i`. -/
@[simp] theorem bitAt_byteOf (f : PinIx → Bool) (i : PinIx) : bitAt (byteOf f) i = f i := by
  have h : i.toNat < 8 := i.isLt
  have hi : i = BitVec.ofNat 3 i.toNat := by simp
  rw [bitAt, byteOf, BitVec.getLsbD_ofBoolListLE]
  conv_rhs => rw [hi]
  generalize i.toNat = n at h
  interval_cases n <;> rfl

/-- A byte is determined by its bits. -/
theorem byte_ext {a b : Byte} (h : ∀ i, bitAt a i = bitAt b i) : a = b := by
  apply BitVec.eq_of_getLsbD_eq
  intro n hn
  have := h (BitVec.ofNat 3 n)
  simpa [bitAt, Nat.mod_eq_of_lt (show n < 8 from hn)] using this

theorem byteOf_congr {f g : PinIx → Bool} (h : ∀ i, f i = g i) : byteOf f = byteOf g := by
  rw [funext h]

@[simp] theorem bitAt_and (a b : Byte) (i : PinIx) : bitAt (a &&& b) i = (bitAt a i && bitAt b i) := by simp [bitAt]

@[simp] theorem bitAt_or (a b : Byte) (i : PinIx) : bitAt (a ||| b) i = (bitAt a i || bitAt b i) := by simp [bitAt]

@[simp] theorem bitAt_not (a : Byte) (i : PinIx) : bitAt (~~~a) i = !bitAt a i := by
  have : i.toNat < 8 := i.isLt
  simp [bitAt, this]

@[simp] theorem bitAt_zero (i : PinIx) : bitAt 0#8 i = false := by simp [bitAt]

/-! ## Slots -/

theorem State.slot_congr {s t : State} (h : t.pins = s.pins) (i : PinIx) : t.slot i = s.slot i := by simp [State.slot, h]

/-- Two states whose slots agree have the same arena. -/
theorem State.pins_ext {s t : State} (h : ∀ i, t.slot i = s.slot i) : t.pins = s.pins := by
  ext n hn : 1
  simpa [State.slot, Nat.mod_eq_of_lt hn] using h (BitVec.ofNat 3 n)

@[simp] theorem State.slot_record (s : State) (e : Event) (i : PinIx) : (s.record e).slot i = s.slot i := rfl
@[simp] theorem State.slot_drawn (s : State) (i : PinIx) : s.drawn.slot i = s.slot i := rfl
@[simp] theorem State.slot_respond (s : State) (c : Status) (d : Byte) (i : PinIx) : (s.respond c d).slot i = s.slot i := rfl
@[simp] theorem State.slot_appendHistory (s : State) (bs : List Byte) (i : PinIx) : (s.appendHistory bs).slot i = s.slot i := rfl
@[simp] theorem State.slot_noteReset (s : State) (b : Byte) (i : PinIx) : (s.noteReset b).slot i = s.slot i :=
  State.slot_congr (by simp) i
@[simp] theorem State.slot_noteShortWrite (s : State) (n len : Nat) (i : PinIx) : (s.noteShortWrite n len).slot i = s.slot i :=
  State.slot_congr (by simp) i
@[simp] theorem State.slot_orderCheck (s : State) (dev : DevAddr) (i : PinIx) : (s.orderCheck dev).slot i = s.slot i :=
  State.slot_congr (by simp) i
@[simp] theorem State.slot_buffer (s : State) (i : PinIx) : s.buffer.slot i = s.slot i :=
  State.slot_congr (by simp) i
@[simp] theorem State.slot_powerOn (s : State) (i : PinIx) : s.powerOn.slot i = none := by simp [State.slot]

theorem toNat_eq_iff (i j : PinIx) : i.toNat = j.toNat ↔ i = j := (BitVec.toNat_inj (x := i) (y := j))

/-- `pin[i].value <- b`, seen from slot `j` (00 R10). -/
theorem State.slot_setValue (s : State) (i j : PinIx) (b : Bool) :
    (s.setValue i b).slot j = if i = j then (s.slot j).map fun p => { p with value := b } else s.slot j := by
  simp only [State.slot, State.setValue, Vector.getElem_set, toNat_eq_iff]
  split
  · next h => subst h; rfl
  · rfl

theorem State.slot_setValue_ne (s : State) {i j : PinIx} (b : Bool) (h : i ≠ j) : (s.setValue i b).slot j = s.slot j := by
  simp [State.slot_setValue, h]

/-- A snapshot, seen from slot `i` (40 R125). -/
theorem State.slot_takeSnapshot (s : State) (b : Byte) (i : PinIx) :
    (s.takeSnapshot b).slot i = (s.slot i).map fun p => if p.dir = .input then { p with value := bitAt b i } else p := by
  simp only [State.slot, State.takeSnapshot, bitAt, Vector.getElem_ofFn]
  rfl

/-! ## Levels, directions, shapes -/

theorem State.level_congr {s t : State} {i : PinIx} (h : t.slot i = s.slot i) : t.level i = s.level i := by
  simp [State.level, h]

theorem State.hasDir_congr {s t : State} {i : PinIx} {d : Dir} (h : t.slot i = s.slot i) : t.hasDir i d = s.hasDir i d := by
  simp [State.hasDir, h]

theorem State.level_setValue_ne (s : State) {i j : PinIx} (b : Bool) (h : i ≠ j) :
    (s.setValue i b).level j = s.level j := State.level_congr (s.slot_setValue_ne b h)

theorem State.level_setValue (s : State) (i : PinIx) (b : Bool) :
    (s.setValue i b).level i = (b && (s.slot i).isSome) := by
  cases h : s.slot i <;> simp [State.level, State.slot_setValue, h]

@[simp] theorem State.hasDir_setValue (s : State) (i j : PinIx) (b : Bool) (d : Dir) :
    (s.setValue i b).hasDir j d = s.hasDir j d := by
  simp only [State.hasDir, State.slot_setValue]
  split <;> cases s.slot j <;> rfl

@[simp] theorem State.hasDir_takeSnapshot (s : State) (b : Byte) (j : PinIx) (d : Dir) :
    (s.takeSnapshot b).hasDir j d = s.hasDir j d := by
  simp only [State.hasDir, State.slot_takeSnapshot]
  cases s.slot j with
  | none => rfl
  | some p => simp only [Option.map_some]; split <;> rfl

@[simp] theorem State.shape_setValue (s : State) (i j : PinIx) (b : Bool) : (s.setValue i b).shape j = s.shape j := by
  simp only [State.shape, State.slot_setValue]
  split <;> cases s.slot j <;> rfl

@[simp] theorem State.shape_takeSnapshot (s : State) (b : Byte) (j : PinIx) : (s.takeSnapshot b).shape j = s.shape j := by
  simp only [State.shape, State.slot_takeSnapshot]
  cases s.slot j with
  | none => rfl
  | some p => simp only [Option.map_some, Pin.shape]; split <;> rfl

theorem State.shape_congr {s t : State} {i : PinIx} (h : t.slot i = s.slot i) : t.shape i = s.shape i := by
  simp [State.shape, h]

/-- Direction follows from shape. -/
theorem State.hasDir_of_shape {s t : State} {i : PinIx} (h : t.shape i = s.shape i) (d : Dir) : t.hasDir i d = s.hasDir i d := by
  have hd : ∀ u : State, u.hasDir i d = ((u.shape i).map Prod.fst == some d) := by
    intro u; simp only [State.hasDir, State.shape]; cases u.slot i <;> rfl
  rw [hd, hd, h]

/-- A pin with a direction is present. -/
theorem State.isSome_of_hasDir {s : State} {i : PinIx} {d : Dir} (h : s.hasDir i d = true) : (s.slot i).isSome = true := by
  unfold State.hasDir at h
  cases hs : s.slot i <;> simp_all

theorem State.not_both_dirs {s : State} {i : PinIx} (h : s.hasDir i .output = true) : s.hasDir i .input = false := by
  unfold State.hasDir at *
  cases hs : s.slot i with
  | none => simp [hs] at h
  | some p => simp_all

/-! ## The pin-state byte -/

/-- Bit `i` of the pin-state byte (40 R121). -/
@[simp] theorem State.bitAt_pinByte (s : State) (i : PinIx) : bitAt s.pinByte i = (s.hasDir i .output && s.level i) := by
  simp [State.pinByte]

theorem State.pinByte_congr {s t : State} (h : ∀ i, t.slot i = s.slot i) : t.pinByte = s.pinByte := by
  apply byte_ext; intro i
  simp [State.hasDir_congr (h i), State.level_congr (h i)]

/-- An input pin's value is never transmitted (10 R25). -/
theorem State.pinByte_takeSnapshot (s : State) (b : Byte) : (s.takeSnapshot b).pinByte = s.pinByte := by
  apply byte_ext; intro i
  simp only [State.bitAt_pinByte, State.hasDir_takeSnapshot]
  cases hd : s.hasDir i .output with
  | false => rfl
  | true =>
    have : (s.takeSnapshot b).slot i = s.slot i := by
      rw [State.slot_takeSnapshot]
      unfold State.hasDir at hd
      cases hs : s.slot i with
      | none => rfl
      | some p => simp_all
    simp [State.level_congr this]

/-- The pin-state byte depends on the directions and the outputs' levels only. -/
theorem State.pinByte_ext {s t : State} (hd : ∀ i, t.hasDir i .output = s.hasDir i .output)
    (hl : ∀ i, s.hasDir i .output = true → t.level i = s.level i) : t.pinByte = s.pinByte := by
  apply byte_ext; intro i
  simp only [State.bitAt_pinByte, hd i]
  cases h : s.hasDir i .output with
  | false => rfl
  | true => simp [hl i h]

end Sys2Proof.Machine
end

