-- ==== Sys2Proof/Laws/Evolves.lean ====
section
/-!
SUPPORT. What every procedure of the block can do, whatever the link answers: the relation `Evolves`, the bound on the transmit
buffer and on the WRITEs, and one lemma per procedure that says a run of it, finished or failed, stays within them.
-/

namespace Sys2Proof.Machine

/-! ## The list functions of Safety over an append -/

@[simp] theorem lastOf_length_le {α : Type} (n : Nat) (l : List α) : (lastOf n l).length ≤ n := by
  simp [lastOf]; omega

theorem lastOf_of_length_le {α : Type} {n : Nat} {l : List α} (h : l.length ≤ n) : lastOf n l = l := by
  simp [lastOf, Nat.sub_eq_zero_of_le h]

/-- Dropping the oldest early changes nothing (40 R124). -/
theorem lastOf_append {α : Type} (n : Nat) (a b : List α) : lastOf n (lastOf n a ++ b) = lastOf n (a ++ b) := by
  by_cases h : a.length ≤ n
  · rw [lastOf_of_length_le h]
  · have ha : lastOf n a = a.drop (a.length - n) := rfl
    rw [ha]
    simp only [lastOf, List.length_append, List.length_drop]
    rw [show a ++ b = a.take (a.length - n) ++ (a.drop (a.length - n) ++ b) by simp [← List.append_assoc]]
    rw [List.drop_append, List.drop_append, List.drop_append]
    simp only [List.length_take, List.length_drop]
    have e1 : a.length - (a.length - n) = n := by omega
    have e2 : min (a.length - n) a.length = a.length - n := by omega
    rw [e1, e2]
    have e3 : (a.take (a.length - n)).drop (a.length + b.length - n) = [] := by simp; omega
    rw [e3]
    have e4 : a.length + b.length - n - (a.length - n) = n + b.length - n := by omega
    rw [e4]; simp

theorem sent_append (a b : List Event) : sent (a ++ b) = sent a ++ sent b := by
  induction a with
  | nil => rfl
  | cons e a ih =>
    cases e <;> simp only [List.cons_append, sent, ih]
    case write bs ans => cases ans <;> simp [sent, ih]

theorem readAnswers_append (a b : List Event) : readAnswers (a ++ b) = readAnswers a ++ readAnswers b := by
  induction a with
  | nil => rfl
  | cons e a ih => cases e <;> simp [readAnswers, ih]

theorem writeCalls_append (a b : List Event) : writeCalls (a ++ b) = writeCalls a ++ writeCalls b := by
  induction a with
  | nil => rfl
  | cons e a ih => cases e <;> simp [writeCalls, ih]

theorem linkOps_append (a b : List Event) : linkOps (a ++ b) = linkOps a ++ linkOps b := by
  induction a with
  | nil => rfl
  | cons e a ih => cases e <;> simp [linkOps, ih]

theorem wireBytes_append (a b : List Event) : wireBytes (a ++ b) = wireBytes a ++ wireBytes b := by
  induction a with
  | nil => rfl
  | cons e a ih =>
    cases e <;> simp only [List.cons_append, wireBytes, ih]
    case write bs ans => cases ans <;> simp [wireBytes, ih]

theorem linkOpenFrom_append (was : Bool) (a b : List Event) :
    linkOpenFrom was (a ++ b) = linkOpenFrom (linkOpenFrom was a) b := by
  induction a generalizing was with
  | nil => rfl
  | cons e a ih =>
    cases e <;> simp only [List.cons_append, linkOpenFrom, ih]
    case openLink d ok => cases ok <;> simp [linkOpenFrom, ih]

theorem sentSinceOpen_append (acc : List Byte) (a b : List Event) :
    sentSinceOpen acc (a ++ b) = sentSinceOpen (sentSinceOpen acc a) b := by
  induction a generalizing acc with
  | nil => rfl
  | cons e a ih =>
    cases e <;> simp only [List.cons_append, sentSinceOpen, ih]
    case openLink d ok => cases ok <;> simp [sentSinceOpen, ih]
    case write bs ans => cases ans <;> simp [sentSinceOpen, ih]

/-! ## The relation -/

/-- Events that neither open nor close the link. -/
def Event.inner : Event → Bool
  | .openLink _ _ => false
  | .closeLink _ => false
  | _ => true

theorem linkOpenFrom_inner {es : List Event} (h : ∀ e ∈ es, Event.inner e = true) (was : Bool) : linkOpenFrom was es = was := by
  induction es generalizing was with
  | nil => rfl
  | cons e es ih =>
    have he := h e (by simp)
    have ih' := fun w => ih (fun x hx => h x (by simp [hx])) w
    cases e <;> first | exact ih' _ | exact absurd he (by simp [Event.inner])

theorem sentSinceOpen_inner {es : List Event} (h : ∀ e ∈ es, Event.inner e = true) (acc : List Byte) :
    sentSinceOpen acc es = acc ++ sent es := by
  induction es generalizing acc with
  | nil => simp [sentSinceOpen, sent]
  | cons e es ih =>
    have he := h e (by simp)
    have ih' := fun a => ih (fun x hx => h x (by simp [hx])) a
    cases e with
    | openLink d ok => exact absurd he (by simp [Event.inner])
    | closeLink ok => exact absurd he (by simp [Event.inner])
    | write bs ans => cases ans <;> simp [sentSinceOpen, sent, ih']
    | _ => exact ih' acc

/-- `t` comes from `s` by link activity and pin writes: the control state is the same, and so are presence, direction and name of
every pin; the trace grew by inner events; the history took what was sent; the ghost was at most cleared. -/
structure State.Evolves (s t : State) : Prop where
  phase  : t.phase = s.phase
  sim    : t.sim = s.sim
  spi    : t.spi = s.spi
  reg    : t.reg = s.reg
  inject : t.inject = s.inject
  cfg    : t.cfg = s.cfg
  port   : t.port = s.port
  intake : t.intake = s.intake
  busIn  : t.busIn = s.busIn
  responses : t.responses = s.responses
  shape  : ∀ i, t.shape i = s.shape i
  haen   : t.haenOk = true → s.haenOk = true
  trace  : ∃ ext, t.trace = s.trace ++ ext ∧ (∀ e ∈ ext, Event.inner e = true) ∧
    (s.history.length ≤ s.cfg.histCap → t.history = lastOf s.cfg.histCap (s.history ++ sent ext))

theorem State.Evolves.refl (s : State) : s.Evolves s where
  phase := rfl
  sim := rfl
  spi := rfl
  reg := rfl
  inject := rfl
  cfg := rfl
  port := rfl
  intake := rfl
  busIn := rfl
  responses := rfl
  shape _ := rfl
  haen := id
  trace := ⟨[], by simp, by simp, fun h => by simp [sent, lastOf_of_length_le h]⟩

theorem State.Evolves.trans {s t u : State} (h1 : s.Evolves t) (h2 : t.Evolves u) : s.Evolves u where
  phase := h2.phase.trans h1.phase
  sim := h2.sim.trans h1.sim
  spi := h2.spi.trans h1.spi
  reg := h2.reg.trans h1.reg
  inject := h2.inject.trans h1.inject
  cfg := h2.cfg.trans h1.cfg
  port := h2.port.trans h1.port
  intake := h2.intake.trans h1.intake
  busIn := h2.busIn.trans h1.busIn
  responses := h2.responses.trans h1.responses
  shape i := (h2.shape i).trans (h1.shape i)
  haen := h1.haen ∘ h2.haen
  trace := by
    obtain ⟨e1, t1, i1, g1⟩ := h1.trace
    obtain ⟨e2, t2, i2, g2⟩ := h2.trace
    refine ⟨e1 ++ e2, by simp [t2, t1], ?_, fun h => ?_⟩
    · intro e he
      rcases List.mem_append.1 he with he | he
      · exact i1 e he
      · exact i2 e he
    · have ht := g1 h
      rw [g2 (by rw [ht, h1.cfg]; exact lastOf_length_le _ _), ht, h1.cfg, lastOf_append, sent_append, List.append_assoc]

/-- The trace only grows (10 R42). -/
theorem State.Evolves.trace_grows {s t : State} (h : s.Evolves t) : s.trace <+: t.trace := by
  obtain ⟨ext, ht, -⟩ := h.trace
  exact ⟨ext, ht.symm⟩

/-- The history stays within its bound (10 R28). -/
theorem State.Evolves.history_le {s t : State} (h : s.Evolves t) (hs : s.history.length ≤ s.cfg.histCap) :
    t.history.length ≤ t.cfg.histCap := by
  obtain ⟨ext, -, -, g⟩ := h.trace
  rw [g hs, h.cfg]; exact lastOf_length_le _ _

theorem State.Evolves.hasDir {s t : State} (h : s.Evolves t) (i : PinIx) (d : Dir) : t.hasDir i d = s.hasDir i d :=
  State.hasDir_of_shape (h.shape i) d

/-- A change of pin values, of the buffer, of the answers and of an at most cleared ghost. -/
theorem State.Evolves.of_same {s t : State} (hp : t.phase = s.phase) (hs : t.sim = s.sim) (hspi : t.spi = s.spi)
    (hreg : t.reg = s.reg) (hinj : t.inject = s.inject) (hcfg : t.cfg = s.cfg) (hport : t.port = s.port)
    (hin : t.intake = s.intake) (hbus : t.busIn = s.busIn) (hresp : t.responses = s.responses)
    (hshape : ∀ i, t.shape i = s.shape i) (hha : t.haenOk = true → s.haenOk = true) (htr : t.trace = s.trace)
    (hhist : t.history = s.history) : s.Evolves t :=
  ⟨hp, hs, hspi, hreg, hinj, hcfg, hport, hin, hbus, hresp, hshape, hha,
    ⟨[], by simp [htr], by simp, fun h => by simp [hhist, sent, lastOf_of_length_le h]⟩⟩

theorem State.evolves_setValue (s : State) (i : PinIx) (b : Bool) : s.Evolves (s.setValue i b) :=
  .of_same rfl rfl rfl rfl rfl rfl rfl rfl rfl rfl (by simp) id rfl rfl

theorem State.evolves_takeSnapshot (s : State) (b : Byte) : s.Evolves (s.takeSnapshot b) :=
  .of_same rfl rfl rfl rfl rfl rfl rfl rfl rfl rfl (by simp) id rfl rfl

theorem State.evolves_drawn (s : State) : s.Evolves s.drawn :=
  .of_same rfl rfl rfl rfl rfl rfl rfl rfl rfl rfl (fun _ => rfl) id rfl rfl

theorem State.noteReset_haenOk_imp {s : State} {b : Byte} (h : (s.noteReset b).haenOk = true) : s.haenOk = true := by
  unfold State.noteReset at h
  repeat' split at h
  all_goals simp_all

theorem State.evolves_buffer (s : State) : s.Evolves s.buffer :=
  .of_same (by simp) (by simp) (by simp) (by simp) (by simp) (by simp) (by simp) (by simp) (by simp) (by simp)
    (fun i => State.shape_congr (by simp)) (fun h => by simpa using State.noteReset_haenOk_imp (s := { s with txbuf := s.txbuf ++ [s.pinByte] }) h)
    (by simp) (by simp)

/-- An inner event that sends nothing. -/
theorem State.evolves_record (s : State) {e : Event} (hi : Event.inner e = true) (hs : sent [e] = []) : s.Evolves (s.record e) :=
  ⟨rfl, rfl, rfl, rfl, rfl, rfl, rfl, rfl, rfl, rfl, fun _ => rfl, id,
    ⟨[e], rfl, by simpa using hi, fun h => by simp [hs, lastOf_of_length_le h]⟩⟩

theorem State.evolves_orderCheck (s : State) (dev : DevAddr) : s.Evolves (s.orderCheck dev) := by
  unfold State.orderCheck; split
  · exact s.evolves_record rfl rfl
  · exact .refl s

theorem State.evolves_takeAnswer (s : State) (a : Answer) : s.Evolves (s.takeAnswer a).2 := by
  unfold State.takeAnswer; split
  · exact .refl s
  · exact s.evolves_drawn

/-! ## Bounds -/

/-- Every WRITE in the trace is legal (10 R40). -/
def State.WritesLegal (s : State) : Prop := ∀ e ∈ s.trace, Event.legal s.cfg.maxPacket e = true

/-- The buffer is below `MAX_PACKET` and every WRITE is legal. -/
structure State.Bounded (s : State) : Prop where
  txbuf  : s.txbuf.length < s.cfg.maxPacket
  writes : s.WritesLegal

theorem State.WritesLegal.congr {s t : State} (h : s.WritesLegal) (ht : t.trace = s.trace) (hc : t.cfg = s.cfg) : t.WritesLegal := by
  simpa [State.WritesLegal, ht, hc] using h

theorem State.WritesLegal.record {s : State} (h : s.WritesLegal) {e : Event} (he : Event.legal s.cfg.maxPacket e = true) :
    (s.record e).WritesLegal := by
  intro x hx
  simp only [State.record_trace, List.mem_append, List.mem_singleton] at hx
  rcases hx with hx | rfl
  · exact h x hx
  · exact he

theorem State.Bounded.congr {s t : State} (h : s.Bounded) (hb : t.txbuf = s.txbuf) (ht : t.trace = s.trace) (hc : t.cfg = s.cfg) :
    t.Bounded := ⟨by simpa [hb, hc] using h.txbuf, h.writes.congr ht hc⟩

theorem State.Bounded.setValue {s : State} (h : s.Bounded) (i : PinIx) (b : Bool) : (s.setValue i b).Bounded := h.congr rfl rfl rfl

/-- A run from `s`, finished or failed: it evolves, its WRITEs are legal, and a finished one leaves the buffer below the bound. -/
def Run.Safe {α : Type} (s : State) : Run α → Prop
  | .done _ t => s.Evolves t ∧ t.Bounded
  | .failed _ t => s.Evolves t ∧ t.WritesLegal

theorem Run.Safe.of_evolves {α : Type} {s t : State} {r : Run α} (h : s.Evolves t) (hr : r.Safe t) : r.Safe s := by
  cases r <;> exact ⟨h.trans hr.1, hr.2⟩

theorem Run.Safe.andThen {α β : Type} {s : State} {r : Run α} {f : α → State → Run β} (hr : r.Safe s)
    (hf : ∀ a t, t.Bounded → (f a t).Safe t) : (r.andThen f).Safe s := by
  cases r with
  | done a t => exact (hf a t hr.2).of_evolves hr.1
  | failed k t => exact hr

theorem Run.safe_done {α : Type} {s : State} (a : α) (h : s.Bounded) : (Run.done a s).Safe s := ⟨.refl s, h⟩

/-! ## The procedures -/

theorem State.takeAnswer_trace (s : State) (a : Answer) : (s.takeAnswer a).2.trace = s.trace := by
  unfold State.takeAnswer; split <;> rfl

theorem State.takeAnswer_txbuf (s : State) (a : Answer) : (s.takeAnswer a).2.txbuf = s.txbuf := by
  unfold State.takeAnswer; split <;> rfl

theorem State.takeAnswer_history (s : State) (a : Answer) : (s.takeAnswer a).2.history = s.history := by
  unfold State.takeAnswer; split <;> rfl

theorem State.takeAnswer_pins (s : State) (a : Answer) : (s.takeAnswer a).2.pins = s.pins := by
  unfold State.takeAnswer; split <;> rfl

theorem State.takeAnswer_haenOk (s : State) (a : Answer) : (s.takeAnswer a).2.haenOk = s.haenOk := by
  unfold State.takeAnswer; split <;> rfl

/-- What a WRITE does (10 R40): it fails, with the failure recorded, or it is answered with at most the length. -/
theorem linkWrite_cases (bytes : List Byte) (s : State) :
    linkWrite bytes s = (none, (s.takeAnswer (.ok bytes.length)).2.record (.write bytes none)) ∨
    ∃ n ≤ bytes.length,
      linkWrite bytes s = (some n, (s.takeAnswer (.ok bytes.length)).2.record (.write bytes (some n))) := by
  unfold linkWrite
  cases h : s.takeAnswer (.ok bytes.length) with
  | mk a t =>
    cases a with
    | fail => exact .inl rfl
    | ok n => exact .inr ⟨min n bytes.length, Nat.min_le_right _ _, rfl⟩

/-- The state after a WRITE of `bytes` answered `n`: recorded, appended to the history, flagged if short, the buffer empty (40
R122). -/
def State.afterFlush (s : State) (n : Nat) : State :=
  { (((s.takeAnswer (.ok s.txbuf.length)).2.record (.write s.txbuf (some n))).appendHistory s.txbuf).noteShortWrite n s.txbuf.length
    with txbuf := [] }

/-- What `Flush()` does (40 R122). -/
theorem flush_cases (s : State) :
    flush s = .failed .write ((s.takeAnswer (.ok s.txbuf.length)).2.record (.write s.txbuf none)) ∨
    ∃ n ≤ s.txbuf.length, flush s = .done () (s.afterFlush n) := by
  unfold flush
  rcases linkWrite_cases s.txbuf s with h | ⟨n, hn, h⟩
  · rw [h]; exact .inl rfl
  · rw [h]; exact .inr ⟨n, hn, rfl⟩

@[simp] theorem State.afterFlush_txbuf (s : State) (n : Nat) : (s.afterFlush n).txbuf = [] := rfl

@[simp] theorem State.slot_afterFlush (s : State) (n : Nat) (i : PinIx) : (s.afterFlush n).slot i = s.slot i :=
  State.slot_congr (by simp [State.afterFlush, State.takeAnswer_pins]) i

/-- The events of a flush (40 R122, R123). -/
def flushEvents (bytes : List Byte) (n : Nat) : List Event :=
  .write bytes (some n) :: if n < bytes.length then [.shortWrite n bytes.length] else []

theorem State.afterFlush_trace (s : State) (n : Nat) : (s.afterFlush n).trace = s.trace ++ flushEvents s.txbuf n := by
  simp only [State.afterFlush, State.noteShortWrite, flushEvents]
  split <;> simp [State.takeAnswer_trace]

theorem sent_flushEvents (bytes : List Byte) (n : Nat) : sent (flushEvents bytes n) = bytes := by
  unfold flushEvents; split <;> simp [sent]

theorem State.evolves_afterFlush (s : State) (n : Nat) : s.Evolves (s.afterFlush n) := by
  have h := s.evolves_takeAnswer (.ok s.txbuf.length)
  refine ⟨?_, ?_, ?_, ?_, ?_, ?_, ?_, ?_, ?_, ?_, ?_, ?_, ⟨flushEvents s.txbuf n, s.afterFlush_trace n, ?_, ?_⟩⟩
  · simpa [State.afterFlush] using h.phase
  · simpa [State.afterFlush] using h.sim
  · simpa [State.afterFlush] using h.spi
  · simpa [State.afterFlush] using h.reg
  · simpa [State.afterFlush] using h.inject
  · simpa [State.afterFlush] using h.cfg
  · simpa [State.afterFlush] using h.port
  · simpa [State.afterFlush] using h.intake
  · simpa [State.afterFlush] using h.busIn
  · simpa [State.afterFlush] using h.responses
  · intro i; exact State.shape_congr (by simp)
  · intro hh; exact h.haen (by simpa [State.afterFlush] using hh)
  · intro e he
    unfold flushEvents at he
    split at he <;> simp at he
    · rcases he with rfl | rfl <;> rfl
    · subst he; rfl
  · intro _
    rw [sent_flushEvents]
    simp [State.afterFlush, State.takeAnswer_history, h.cfg]

/-- A failed WRITE only records itself. -/
theorem State.evolves_failedWrite (s : State) (a : Answer) (bytes : List Byte) :
    s.Evolves ((s.takeAnswer a).2.record (.write bytes none)) :=
  (s.evolves_takeAnswer a).trans (State.evolves_record _ rfl rfl)

/-- A flush of a buffer of 1 to `MAX_PACKET` bytes. -/
theorem flush_safe {s : State} (hw : s.WritesLegal) (h1 : s.txbuf ≠ []) (h2 : s.txbuf.length ≤ s.cfg.maxPacket) :
    (flush s).Safe s := by
  have hlen : 1 ≤ s.txbuf.length := List.length_pos_iff.2 h1
  have hc := (s.evolves_takeAnswer (.ok s.txbuf.length)).cfg
  rcases flush_cases s with h | ⟨n, hn, h⟩ <;> rw [h]
  · refine ⟨s.evolves_failedWrite _ _, ?_⟩
    apply State.WritesLegal.record (hw.congr (s.takeAnswer_trace _) hc)
    simp [Event.legal, hc, h2]; omega
  · refine ⟨s.evolves_afterFlush n, ⟨by simp [(s.evolves_afterFlush n).cfg, Params.maxPacket], ?_⟩⟩
    intro e he
    rw [s.afterFlush_trace, List.mem_append] at he
    rw [(s.evolves_afterFlush n).cfg]
    rcases he with he | he
    · exact hw e he
    · unfold flushEvents at he
      split at he <;> simp at he
      · rcases he with rfl | rfl
        · simp [Event.legal, h2, hn]; omega
        · rfl
      · subst he; simp [Event.legal, h2, hn]; omega

/-- Everything a push can do, whatever the link answers (40 R120). -/
theorem pushState_safe {s : State} (force : Bool) (h : s.Bounded) : (pushState force s).Safe s := by
  have hw : s.buffer.WritesLegal := h.writes.congr (by simp) (by simp)
  have htx := h.txbuf
  unfold pushState
  split
  · exact (flush_safe hw (by simp) (by simp; omega)).of_evolves s.evolves_buffer
  · next hf =>
    refine ⟨s.evolves_buffer, ⟨?_, hw⟩⟩
    simp at hf
    simpa using hf.2

/-- What a READ does (10 R40). -/
theorem linkRead_cases (s : State) :
    (linkRead s = (none, (s.takeAnswer (.ok (simRead s.cfg s.inject s.trace).toNat)).2.record (.read none))) ∨
    ∃ b, linkRead s = (some b, (s.takeAnswer (.ok (simRead s.cfg s.inject s.trace).toNat)).2.record (.read (some b))) := by
  unfold linkRead
  cases h : s.takeAnswer (.ok (simRead s.cfg s.inject s.trace).toNat) with
  | mk a t =>
    cases a with
    | fail => exact .inl rfl
    | ok n => exact .inr ⟨BitVec.ofNat 8 n, rfl⟩

/-- Everything a refresh can do, whatever the link answers (40 R125). -/
theorem refresh_safe {s : State} (h : s.Bounded) : (refresh s).Safe s := by
  unfold refresh
  apply Run.Safe.andThen
  · split
    · exact Run.safe_done () h
    · next hne => exact flush_safe h.writes hne h.txbuf.le
  · intro _ t ht
    have hc := (t.evolves_takeAnswer (.ok (simRead t.cfg t.inject t.trace).toNat)).cfg
    rcases linkRead_cases t with hr | ⟨b, hr⟩ <;> rw [hr]
    · exact ⟨(t.evolves_takeAnswer _).trans (State.evolves_record _ rfl rfl),
        (ht.writes.congr (t.takeAnswer_trace _) hc).record rfl⟩
    · refine ⟨((t.evolves_takeAnswer _).trans (State.evolves_record _ rfl rfl)).trans (State.evolves_takeSnapshot _ _), ?_, ?_⟩
      · simpa [State.takeAnswer_txbuf, hc] using ht.txbuf
      · exact State.WritesLegal.congr ((ht.writes.congr (t.takeAnswer_trace _) hc).record (e := .read (some b)) rfl) rfl rfl

theorem clockIdleFix_safe (p : SpiPins) {s : State} (h : s.Bounded) : (clockIdleFix p s).Safe s := by
  unfold clockIdleFix
  split
  · have he : s.Evolves (s.record .clkNotIdle) := s.evolves_record rfl rfl
    have hb : (s.record .clkNotIdle).Bounded := ⟨h.txbuf, h.writes.record rfl⟩
    exact (pushState_safe false (hb.setValue _ _)).of_evolves (he.trans (State.evolves_setValue _ _ _))
  · exact Run.safe_done () h

theorem sendBit_safe (p : SpiPins) (b : Bool) {s : State} (h : s.Bounded) : (sendBit p b s).Safe s :=
  ((pushState_safe false ((h.setValue _ _).setValue _ _)).of_evolves
    ((s.evolves_setValue _ _).trans (State.evolves_setValue _ _ _))).andThen
  fun _ t ht => (pushState_safe false (ht.setValue _ _)).of_evolves (t.evolves_setValue _ _)

theorem sendBits_safe (p : SpiPins) (bs : List Bool) {s : State} (h : s.Bounded) : (sendBits p bs s).Safe s := by
  induction bs generalizing s with
  | nil => exact Run.safe_done () h
  | cons b bs ih => exact (sendBit_safe p b h).andThen fun _ t ht => ih ht

theorem spiSend_safe (p : SpiPins) (v : Byte) {s : State} (h : s.Bounded) : (spiSend p v s).Safe s :=
  (clockIdleFix_safe p h).andThen fun _ _ ht =>
    (sendBits_safe p _ ht).andThen fun _ u hu => (pushState_safe true (hu.setValue _ _)).of_evolves (u.evolves_setValue _ _)

theorem recvBit_safe (p : SpiPins) (acc : Byte) {s : State} (h : s.Bounded) : (recvBit p acc s).Safe s :=
  (refresh_safe h).andThen fun _ t ht =>
    ((pushState_safe true (ht.setValue _ _)).of_evolves (t.evolves_setValue _ _)).andThen fun _ u hu =>
      ((pushState_safe true (hu.setValue _ _)).of_evolves (u.evolves_setValue _ _)).andThen fun _ _ hw => Run.safe_done _ hw

theorem recvBits_safe (p : SpiPins) (k : Nat) (acc : Byte) {s : State} (h : s.Bounded) : (recvBits p k acc s).Safe s := by
  induction k generalizing acc s with
  | zero => exact Run.safe_done _ h
  | succ k ih => exact (recvBit_safe p acc h).andThen fun a t ht => ih a ht

theorem spiRecv_safe (p : SpiPins) {s : State} (h : s.Bounded) : (spiRecv p s).Safe s :=
  (clockIdleFix_safe p h).andThen fun _ _ ht => recvBits_safe p 8 _ ht

theorem csAssert_safe (r : RegPins) {s : State} (h : s.Bounded) : (csAssert r s).Safe s :=
  (pushState_safe false (h.setValue _ _)).of_evolves (s.evolves_setValue _ _)

theorem csRelease_safe (r : RegPins) {s : State} (h : s.Bounded) : (csRelease r s).Safe s :=
  (pushState_safe true (h.setValue _ _)).of_evolves (s.evolves_setValue _ _)

theorem writeFrame_safe (p : SpiPins) (r : RegPins) (dev : DevAddr) (reg data : Byte) {s : State} (h : s.Bounded) :
    (writeFrame p r dev reg data s).Safe s :=
  (csAssert_safe r h).andThen fun _ _ h1 => (spiSend_safe p _ h1).andThen fun _ _ h2 =>
    (spiSend_safe p _ h2).andThen fun _ _ h3 => (spiSend_safe p _ h3).andThen fun _ _ h4 => csRelease_safe r h4

theorem readFrame_safe (p : SpiPins) (r : RegPins) (dev : DevAddr) (reg : Byte) {s : State} (h : s.Bounded) :
    (readFrame p r dev reg s).Safe s :=
  (csAssert_safe r h).andThen fun _ _ h1 => (spiSend_safe p _ h1).andThen fun _ _ h2 =>
    (spiSend_safe p _ h2).andThen fun _ _ h3 => (spiRecv_safe p h3).andThen fun _ _ h4 =>
      (csRelease_safe r h4).andThen fun _ _ h5 => Run.safe_done _ h5

theorem deviceReset_safe (r : RegPins) {s : State} (h : s.Bounded) : (deviceReset r s).Safe s :=
  ((pushState_safe true ((h.setValue _ _).setValue _ _)).of_evolves
    ((s.evolves_setValue _ _).trans (State.evolves_setValue _ _ _))).andThen
  fun _ t ht => (pushState_safe true (ht.setValue _ _)).of_evolves (t.evolves_setValue _ _)

end Sys2Proof.Machine
end

