-- ==== Sys2Proof/Laws/Moves.lean ====
section
/-!
SUPPORT. What the procedures of the block do when no link call fails: the relation `Moves` (which pins changed, which pin states
were pushed, what the READs answered, how many link answers were used) and one lemma per procedure.
-/

namespace Sys2Proof.Machine

/-! ## Link answers -/

@[simp] theorem State.nextAnswer_eq (s : State) : s.nextAnswer = s.answerAt 0 := by
  simp [State.nextAnswer, State.answerAt, List.head?_eq_getElem?]

@[simp] theorem State.answerAt_drawn (s : State) (n : Nat) : s.drawn.answerAt n = s.answerAt (n + 1) := by
  simp only [State.answerAt, State.drawn_answers, State.drawn_draws, List.getElem?_tail]
  rw [show s.draws + 1 + n = s.draws + (n + 1) by omega]

theorem State.linkGood_congr {s t : State} (hs : t.sim = s.sim) (ha : t.answers = s.answers) (hd : t.draws = s.draws) {k : Nat}
    (h : s.linkGood k) : t.linkGood k := by
  simpa [State.linkGood, State.answerAt, hs, ha, hd] using h

theorem State.linkGood_mono {s : State} {j k : Nat} (hjk : j ≤ k) (h : s.linkGood k) : s.linkGood j :=
  h.imp id fun h n hn => h n (by omega)

theorem State.linkGood_takeAnswer {s : State} (a : Answer) {k : Nat} (h : s.linkGood (k + 1)) : (s.takeAnswer a).2.linkGood k := by
  unfold State.takeAnswer
  split
  · exact State.linkGood_mono (by omega) h
  · next hs =>
    rcases h with h | h
    · exact absurd h hs
    · exact .inr fun n hn => by rw [State.answerAt_drawn]; exact h (n + 1) (by omega)

/-- A link call that does not fail: its answer and the state it leaves. -/
theorem State.takeAnswer_good {s : State} {k : Nat} (h : s.linkGood (k + 1)) (n : Nat) :
    ∃ m, (s.takeAnswer (.ok n)).1 = .ok m := by
  unfold State.takeAnswer
  split
  · exact ⟨n, rfl⟩
  · next hs =>
    rcases h with h | h
    · exact absurd h hs
    · have := h 0 (by omega)
      cases ha : s.answerAt 0 with
      | fail => exact absurd ha this
      | ok m => exact ⟨m, by simp [ha]⟩

/-- In simulation mode a call answers what the mode gives, and uses no draw (20 R66). -/
theorem State.takeAnswer_sim {s : State} (h : s.sim = true) (a : Answer) : s.takeAnswer a = (a, s) := by
  simp [State.takeAnswer, h]

/-- In real mode a call draws (20 R66). -/
theorem State.takeAnswer_real {s : State} (h : s.sim = false) (a : Answer) : s.takeAnswer a = (s.answerAt 0, s.drawn) := by
  simp [State.takeAnswer, h]

/-! ## The relation -/

/-- From `s` to `t` without a link failure: slots outside `touched` are the same, the pin states `bs` were pushed, the READs
answered `rs`, at most `k` link answers were used, and with RST high and untouched the ghost is the same. -/
structure State.Moves (s t : State) (touched : PinIx → Prop) (bs : List Byte) (rs : List (Option Byte)) (k : Nat) : Prop where
  evolves : s.Evolves t
  pins    : ∀ i, ¬ touched i → t.slot i = s.slot i
  stream  : t.stream = s.stream ++ bs
  reads   : readAnswers t.trace = readAnswers s.trace ++ rs
  good    : ∀ m, s.linkGood (m + k) → t.linkGood m
  ghost   : (∀ r, s.reg = some r → s.hasDir r.rst .output = true ∧ s.level r.rst = true ∧ ¬ touched r.rst) →
    t.haenOk = s.haenOk

theorem State.Moves.refl (s : State) (T : PinIx → Prop) : s.Moves s T [] [] 0 :=
  ⟨.refl s, fun _ _ => rfl, by simp, by simp, fun _ h => h, fun _ => rfl⟩

theorem State.Moves.trans {s t u : State} {T : PinIx → Prop} {b1 b2 : List Byte} {r1 r2 : List (Option Byte)} {k1 k2 : Nat}
    (h1 : s.Moves t T b1 r1 k1) (h2 : t.Moves u T b2 r2 k2) : s.Moves u T (b1 ++ b2) (r1 ++ r2) (k1 + k2) where
  evolves := h1.evolves.trans h2.evolves
  pins i hi := (h2.pins i hi).trans (h1.pins i hi)
  stream := by rw [h2.stream, h1.stream, List.append_assoc]
  reads := by rw [h2.reads, h1.reads, List.append_assoc]
  good m h := h2.good m (h1.good (m + k2) (by rwa [show m + k2 + k1 = m + (k1 + k2) by omega]))
  ghost h := by
    rw [h2.ghost, h1.ghost h]
    intro r hr
    obtain ⟨hd, hl, hT⟩ := h r (h1.evolves.reg ▸ hr)
    exact ⟨(h1.evolves.hasDir _ _).trans hd, (State.level_congr (h1.pins _ hT)).trans hl, hT⟩

theorem State.Moves.mono {s t : State} {T T' : PinIx → Prop} {bs : List Byte} {rs : List (Option Byte)} {k k' : Nat}
    (h : s.Moves t T bs rs k) (hT : ∀ i, T i → T' i) (hk : k ≤ k') : s.Moves t T' bs rs k' :=
  ⟨h.evolves, fun i hi => h.pins i (fun h' => hi (hT i h')), h.stream, h.reads,
    fun m hg => h.good m (State.linkGood_mono (by omega) hg),
    fun hr => h.ghost fun r hs => ⟨(hr r hs).1, (hr r hs).2.1, fun hT' => (hr r hs).2.2 (hT _ hT')⟩⟩

theorem State.Moves.linkGood {s t : State} {T : PinIx → Prop} {bs : List Byte} {rs : List (Option Byte)} {k m : Nat}
    (h : s.Moves t T bs rs k) (hg : s.linkGood (m + k)) : t.linkGood m := h.good m hg

/-- What a transfer leaves alone, from `Moves`. -/
theorem State.Moves.sameOutside {s t : State} {T : PinIx → Prop} {bs : List Byte} {rs : List (Option Byte)} {k : Nat}
    (h : s.Moves t T bs rs k) : s.SameOutside t T where
  phase := h.evolves.phase
  sim := h.evolves.sim
  spi := h.evolves.spi
  reg := h.evolves.reg
  inject := h.evolves.inject
  cfg := h.evolves.cfg
  port := h.evolves.port
  intake := h.evolves.intake
  busIn := h.evolves.busIn
  shape := h.evolves.shape
  pins := h.pins
  trace := h.evolves.trace_grows

theorem State.moves_setValue (s : State) (i : PinIx) (b : Bool) : s.Moves (s.setValue i b) (· = i) [] [] 0 where
  evolves := s.evolves_setValue i b
  pins j hj := s.slot_setValue_ne b (Ne.symm hj)
  stream := by simp [State.stream]
  reads := by simp
  good m h := State.linkGood_congr rfl rfl rfl h
  ghost _ := rfl

theorem State.moves_record (s : State) {e : Event} (hi : Event.inner e = true) (hs : sent [e] = []) (hr : readAnswers [e] = [])
    (T : PinIx → Prop) : s.Moves (s.record e) T [] [] 0 where
  evolves := s.evolves_record hi hs
  pins _ _ := rfl
  stream := by simp [State.stream, sent_append, hs]
  reads := by simp [readAnswers_append, hr]
  good m h := State.linkGood_congr rfl rfl rfl h
  ghost _ := rfl

/-! ## Flush, push, refresh -/

theorem State.linkGood_afterFlush {s : State} {k n : Nat} (h : s.linkGood (k + 1)) : (s.afterFlush n).linkGood k :=
  State.linkGood_congr (s := (s.takeAnswer (.ok s.txbuf.length)).2) (by simp [State.afterFlush]) (by simp [State.afterFlush])
    (by simp [State.afterFlush]) (State.linkGood_takeAnswer _ h)

/-- A flush whose WRITE does not fail (40 R122). -/
theorem flush_moves {s : State} (h : s.linkGood 1) (T : PinIx → Prop) :
    ∃ n ≤ s.txbuf.length, flush s = .done () (s.afterFlush n) ∧ s.Moves (s.afterFlush n) T [] [] 1 := by
  obtain ⟨m, hm⟩ := State.takeAnswer_good (k := 0) h s.txbuf.length
  refine ⟨min m s.txbuf.length, Nat.min_le_right _ _, ?_, ?_⟩
  · unfold flush linkWrite
    cases ht : s.takeAnswer (.ok s.txbuf.length) with
    | mk a t =>
      rw [ht] at hm
      simp only at hm
      subst hm
      simp [State.afterFlush, ht]
  · exact
      { evolves := s.evolves_afterFlush _
        pins := fun i _ => by simp
        stream := by simp [State.stream, s.afterFlush_trace, sent_append, sent_flushEvents]
        reads := by
          rw [s.afterFlush_trace, readAnswers_append]
          congr 1
          unfold flushEvents; split <;> rfl
        good := fun m h => State.linkGood_afterFlush h
        ghost := fun _ => by simp [State.afterFlush, State.takeAnswer_haenOk] }

theorem State.moves_buffer (s : State) (T : PinIx → Prop) : s.Moves s.buffer T [s.pinByte] [] 0 where
  evolves := s.evolves_buffer
  pins i _ := by simp
  stream := by simp [State.stream]
  reads := by simp
  good m h := State.linkGood_congr (by simp) (by simp) (by simp) h
  ghost h := by
    unfold State.buffer State.noteReset
    simp only
    split
    · next r hr =>
      obtain ⟨hd, hl, -⟩ := h r hr
      simp [hd, hl]
    · rfl

/-- A push whose WRITE, if it makes one, does not fail (40 R120). -/
theorem pushState_moves {s : State} (force : Bool) (h : s.linkGood 1) (T : PinIx → Prop) :
    ∃ t, pushState force s = .done () t ∧ s.Moves t T [s.pinByte] [] 1 ∧ (force = true → t.txbuf = []) := by
  unfold pushState
  split
  · obtain ⟨n, -, hf, hm⟩ := flush_moves ((s.moves_buffer T).good 1 h) T
    exact ⟨_, hf, by simpa using (s.moves_buffer T).trans hm, fun _ => rfl⟩
  · next hc => exact ⟨_, rfl, (s.moves_buffer T).mono (fun _ h => h) (by omega), fun hf => absurd (by simp [hf]) hc⟩

/-- A push after a pin write: the pins outside `T` keep their slots, and the byte pushed is that of the written arena. -/
theorem pushState_setValue_moves {s : State} (force : Bool) (i : PinIx) (b : Bool) {T : PinIx → Prop} (hT : T i)
    (h : s.linkGood 1) :
    ∃ t, pushState force (s.setValue i b) = .done () t ∧ s.Moves t T [(s.setValue i b).pinByte] [] 1 ∧
      (force = true → t.txbuf = []) ∧ (∀ j, t.slot j = (s.setValue i b).slot j) := by
  obtain ⟨t, ht, hm, hf⟩ := pushState_moves (s := s.setValue i b) force (State.linkGood_congr rfl rfl rfl h) (fun _ => False)
  refine ⟨t, ht, ?_, hf, fun j => hm.pins j id⟩
  have h1 := (s.moves_setValue i b).mono (T' := T) (by rintro _ rfl; exact hT) le_rfl
  simpa using h1.trans (hm.mono (T' := T) (fun _ h => h.elim) le_rfl)

/-- A READ that does not fail: the answer is recorded, and the input pins take it (40 R125). -/
theorem linkRead_good {s : State} (h : s.linkGood 1) :
    ∃ b, linkRead s = (some b, (s.takeAnswer (.ok (simRead s.cfg s.inject s.trace).toNat)).2.record (.read (some b))) ∧
      (s.sim = true → b = simRead s.cfg s.inject s.trace) := by
  obtain ⟨m, hm⟩ := State.takeAnswer_good (k := 0) h (simRead s.cfg s.inject s.trace).toNat
  refine ⟨BitVec.ofNat 8 m, ?_, fun hs => ?_⟩
  · unfold linkRead
    cases ht : s.takeAnswer (.ok (simRead s.cfg s.inject s.trace).toNat) with
    | mk a t => rw [ht] at hm; simp only at hm; subst hm; rfl
  · rw [State.takeAnswer_sim hs] at hm
    simp only [Answer.ok.injEq] at hm
    rw [← hm]; simp

/-- The pins a refresh may write (40 R125). -/
abbrev State.isInput (s : State) (i : PinIx) : Prop := s.hasDir i .input = true

/-- A refresh whose link calls do not fail: in the end every present input pin has its bit of the snapshot `b` (40 R125). In
simulation mode `b` is what `sim_source` answers after the flush (20 R66). -/
theorem refresh_moves {s : State} (h : s.linkGood 2) :
    ∃ (b : Byte) (t : State), refresh s = .done () t ∧ s.Moves t s.isInput [] [some b] 2 ∧ t.txbuf = [] ∧
      (∀ i, t.slot i = (s.slot i).map fun p => if p.dir = .input then { p with value := bitAt b i } else p) ∧
      (∃ r, (if s.txbuf = [] then Run.done () s else flush s) = .done () r ∧
        r.txbuf = [] ∧ s.Moves r (fun _ => False) [] [] 1 ∧
        (s.sim = true → b = simRead s.cfg s.inject r.trace) ∧ t.trace = r.trace ++ [.read (some b)]) := by
  have hfl : ∃ r, (if s.txbuf = [] then Run.done () s else flush s) = .done () r ∧ r.txbuf = [] ∧
      s.Moves r (fun _ => False) [] [] 1 := by
    split
    · next h0 => exact ⟨s, rfl, h0, (State.Moves.refl s _).mono (fun _ h => h) (by omega)⟩
    · obtain ⟨n, -, hf, hm⟩ := flush_moves (State.linkGood_mono (by omega) h) (fun _ => False)
      exact ⟨_, hf, rfl, hm⟩
  obtain ⟨r, hr, hrt, hrm⟩ := hfl
  obtain ⟨b, hb, hsim⟩ := linkRead_good (hrm.good 1 h)
  have hst : ∀ i, (((r.takeAnswer (.ok (simRead r.cfg r.inject r.trace).toNat)).2.record (.read (some b))).takeSnapshot b).slot i
      = (s.slot i).map fun p => if p.dir = .input then { p with value := bitAt b i } else p := by
    intro i
    rw [State.slot_takeSnapshot]
    have : ((r.takeAnswer (.ok (simRead r.cfg r.inject r.trace).toNat)).2.record (.read (some b))).slot i = s.slot i :=
      (State.slot_congr (r.takeAnswer_pins _) i).trans (hrm.pins i id)
    rw [this]
  refine ⟨b, ((r.takeAnswer (.ok (simRead r.cfg r.inject r.trace).toNat)).2.record (.read (some b))).takeSnapshot b, ?_, ?_, ?_,
    hst, ⟨r, hr, hrt, hrm, ?_, ?_⟩⟩
  · unfold refresh
    rw [hr]
    simp only [Run.andThen, hb]
  · refine
      { evolves := hrm.evolves.trans (((r.evolves_takeAnswer _).trans (State.evolves_record _ rfl rfl)).trans
          (State.evolves_takeSnapshot _ _))
        pins := ?_, stream := ?_, reads := ?_, good := ?_, ghost := ?_ }
    · intro i hi
      rw [hst i]
      unfold State.isInput State.hasDir at hi
      cases hs : s.slot i with
      | none => rfl
      | some p => simp_all
    · have := hrm.stream
      simp only [State.stream, List.append_nil] at this
      simp [State.stream, State.takeAnswer_trace, State.takeAnswer_txbuf, sent_append, sent, ← this]
    · simp [State.takeAnswer_trace, readAnswers_append, hrm.reads, readAnswers]
    · intro m hg
      exact State.linkGood_congr rfl rfl rfl (State.linkGood_takeAnswer _ (hrm.good (m + 1) hg))
    · intro hg
      have := hrm.ghost fun r hr => ⟨(hg r hr).1, (hg r hr).2.1, id⟩
      simpa [State.takeAnswer_haenOk] using this
  · simpa [State.takeAnswer_txbuf] using hrt
  · intro hs
    have := hsim (hrm.evolves.sim.trans hs)
    rwa [hrm.evolves.cfg, hrm.evolves.inject] at this
  · simp [State.takeAnswer_trace]

/-! ## Wire states -/

/-- A state that agrees with `s` on every output but CLK and MOSI, and has them at `c` and `d`, pushes `S(c, d)`. -/
theorem State.pinByte_eq_wireState {s u : State} {p : SpiPins} {c d : Bool}
    (hs : ∀ i, u.shape i = s.shape i)
    (ho : ∀ i, s.hasDir i .output = true → i ≠ p.clk → i ≠ p.mosi → u.level i = s.level i)
    (hc : u.level p.clk = c) (hd : u.level p.mosi = d) : u.pinByte = s.wireState p c d := by
  apply State.pinByte_ext
  · intro i; simp [State.hasDir_of_shape (hs i)]
  · intro i hi
    simp only [State.hasDir_setValue] at hi
    by_cases h1 : i = p.mosi
    · subst h1
      rw [hd, State.level_setValue]
      simp [State.isSome_of_hasDir (s := s.setValue p.clk c) (d := .output) (by simpa using hi)]
    · rw [State.level_setValue_ne _ _ (Ne.symm h1)]
      by_cases h2 : i = p.clk
      · subst h2
        rw [hc, State.level_setValue]
        simp [State.isSome_of_hasDir hi]
      · rw [State.level_setValue_ne _ _ (Ne.symm h2)]
        exact ho i hi h2 h1

/-- The wire states depend on the shapes and on the outputs other than CLK and MOSI only. -/
theorem State.wireState_congr {s u : State} {p : SpiPins} (hp : s.SpiPinsOk p) (hs : ∀ i, u.shape i = s.shape i)
    (ho : ∀ i, s.hasDir i .output = true → i ≠ p.clk → i ≠ p.mosi → u.level i = s.level i) (c d : Bool) :
    u.wireState p c d = s.wireState p c d := by
  have hdir : ∀ i dd, u.hasDir i dd = s.hasDir i dd := fun i dd => State.hasDir_of_shape (hs i) dd
  unfold State.wireState
  apply State.pinByte_eq_wireState
  · intro i; simp [hs]
  · intro i hi h1 h2
    rw [State.level_setValue_ne _ _ (Ne.symm h2), State.level_setValue_ne _ _ (Ne.symm h1)]
    exact ho i hi h1 h2
  · rw [State.level_setValue_ne _ _ (Ne.symm hp.clk_mosi), State.level_setValue]
    simp [State.isSome_of_hasDir (s := u) ((hdir _ _).trans hp.clk)]
  · rw [State.level_setValue]
    simp [State.isSome_of_hasDir (s := u.setValue p.clk c) (d := .output) (by simpa using (hdir _ _).trans hp.mosi)]

theorem State.SpiPinsOk.congr {s t : State} {p : SpiPins} (h : s.SpiPinsOk p) (hs : ∀ i, t.shape i = s.shape i) : t.SpiPinsOk p :=
  ⟨h.clk_mosi, h.clk_miso, h.mosi_miso, (State.hasDir_of_shape (hs _) _).trans h.clk,
    (State.hasDir_of_shape (hs _) _).trans h.mosi, (State.hasDir_of_shape (hs _) _).trans h.miso⟩

theorem State.RegPinsOk.congr {s t : State} {p : SpiPins} {r : RegPins} (h : s.RegPinsOk p r) (hs : ∀ i, t.shape i = s.shape i) :
    t.RegPinsOk p r :=
  ⟨h.nodup, (State.hasDir_of_shape (hs _) _).trans h.cs, (State.hasDir_of_shape (hs _) _).trans h.rst⟩

/-- The pins a send writes. -/
abbrev SpiPins.driven (p : SpiPins) (i : PinIx) : Prop := i = p.clk ∨ i = p.mosi

theorem State.outputs_of_moves {s t : State} {p : SpiPins} {T : PinIx → Prop} {bs : List Byte} {rs : List (Option Byte)} {k : Nat}
    (h : s.Moves t T bs rs k) (hT : ∀ i, T i → p.driven i ∨ s.isInput i) :
    ∀ i, s.hasDir i .output = true → i ≠ p.clk → i ≠ p.mosi → t.level i = s.level i := by
  intro i hi h1 h2
  apply State.level_congr (h.pins i ?_)
  intro ht
  rcases hT i ht with (h | h) | h
  · exact h1 h
  · exact h2 h
  · have := State.not_both_dirs hi
    rw [h] at this; cases this

/-! ## SpiSend -/

/-- One bit sent (41 R153). -/
theorem sendBit_moves {s : State} {p : SpiPins} (hp : s.SpiPinsOk p) (b : Bool) (h : s.linkGood 2) :
    ∃ t, sendBit p b s = .done () t ∧ s.Moves t p.driven [s.wireState p false b, s.wireState p true b] [] 2 ∧
      t.level p.clk = true ∧ t.level p.mosi = b := by
  have hm0 := (s.moves_setValue p.clk false).mono (T' := p.driven) (by rintro _ rfl; exact .inl rfl) le_rfl
  obtain ⟨t, ht, hm1, -, hs1⟩ := pushState_setValue_moves (s := s.setValue p.clk false) false p.mosi b (T := p.driven) (.inr rfl)
    (State.linkGood_congr rfl rfl rfl (State.linkGood_mono (by omega) h))
  have hmt := hm0.trans hm1
  obtain ⟨u, hu, hm2, -, hs2⟩ := pushState_setValue_moves (s := t) false p.clk true (T := p.driven) (.inl rfl)
    (hmt.good 1 (by simpa using h))
  have hdirt : ∀ i d, t.hasDir i d = s.hasDir i d := fun i d => hmt.evolves.hasDir i d
  have hlm : t.level p.mosi = b := by
    rw [State.level_congr (hs1 _), State.level_setValue]
    simp [State.isSome_of_hasDir (s := s.setValue p.clk false) (d := .output) (by simpa using hp.mosi)]
  have hlc : u.level p.clk = true := by
    rw [State.level_congr (hs2 _), State.level_setValue]
    simp [State.isSome_of_hasDir ((hdirt _ _).trans hp.clk)]
  have hlm' : u.level p.mosi = b := by
    rw [State.level_congr (hs2 _), State.level_setValue_ne _ _ hp.clk_mosi, hlm]
  refine ⟨u, ?_, ?_, hlc, hlm'⟩
  · unfold sendBit; rw [ht]; exact hu
  · have hall := hmt.trans hm2
    have hb2 : (t.setValue p.clk true).pinByte = s.wireState p true b := by
      apply State.pinByte_eq_wireState
      · intro i; simp [hmt.evolves.shape i]
      · intro i hi h1 h2
        rw [State.level_setValue_ne _ _ (Ne.symm h1)]
        exact State.outputs_of_moves hmt (fun i hi => .inl hi) i hi h1 h2
      · rw [State.level_setValue]
        simp [State.isSome_of_hasDir ((hdirt _ _).trans hp.clk)]
      · rw [State.level_setValue_ne _ _ hp.clk_mosi, hlm]
    rw [hb2] at hall
    simpa [State.wireState] using hall

theorem State.bitStates_congr {s u : State} {p : SpiPins} (h : ∀ c d, u.wireState p c d = s.wireState p c d) (bs : List Bool) :
    u.bitStates p bs = s.bitStates p bs := by
  induction bs with
  | nil => rfl
  | cons b bs ih => simp [State.bitStates, h, ih]

/-- The bits sent in order; MOSI is left at the last one (41 R153). -/
theorem sendBits_moves {s : State} {p : SpiPins} (hp : s.SpiPinsOk p) (bs : List Bool) (h : s.linkGood (2 * bs.length)) :
    ∃ t, sendBits p bs s = .done () t ∧ s.Moves t p.driven (s.bitStates p bs) [] (2 * bs.length) ∧
      (∀ hne : bs ≠ [], t.level p.mosi = bs.getLast hne) := by
  induction bs generalizing s with
  | nil => exact ⟨s, rfl, State.Moves.refl s _, fun h => absurd rfl h⟩
  | cons b bs ih =>
    obtain ⟨t, ht, hm, -, hl⟩ := sendBit_moves hp b (State.linkGood_mono (by simp) h)
    have hw : ∀ c d, t.wireState p c d = s.wireState p c d :=
      State.wireState_congr hp hm.evolves.shape (State.outputs_of_moves hm fun i hi => .inl hi)
    obtain ⟨u, hu, hm2, hl2⟩ := ih (hp.congr hm.evolves.shape) (hm.good _ (by simpa [Nat.mul_add] using h))
    refine ⟨u, ?_, ?_, ?_⟩
    · simp only [sendBits, ht, Run.andThen, hu]
    · have := hm.trans hm2
      rw [State.bitStates_congr hw] at this
      exact this.mono (fun _ h => h) (by simp; omega)
    · intro _
      cases bs with
      | nil =>
        simp only [sendBits, Run.done.injEq, true_and] at hu
        subst hu; simpa using hl
      | cons c cs => simpa using hl2 (by simp)

/-- The correction of a clock that is not low (41 R152). -/
theorem clockIdleFix_moves {s : State} {p : SpiPins} (h : s.linkGood 1) :
    ∃ t, clockIdleFix p s = .done () t ∧ s.Moves t (· = p.clk) (s.fixStates p) [] 1 ∧ t.level p.clk = false ∧
      (s.level p.clk = false → t = s) := by
  unfold clockIdleFix State.fixStates
  split
  · next hc =>
    obtain ⟨t, ht, hm, -, hsl⟩ := pushState_setValue_moves (s := s.record .clkNotIdle) false p.clk false (T := (· = p.clk)) rfl
      (State.linkGood_congr rfl rfl rfl h)
    refine ⟨t, ht, ?_, ?_, fun hf => ?_⟩
    · have := (s.moves_record (e := .clkNotIdle) rfl rfl rfl (· = p.clk)).trans hm
      have hb : ((s.record .clkNotIdle).setValue p.clk false).pinByte = (s.setValue p.clk false).pinByte :=
        State.pinByte_congr fun i => rfl
      simpa [hb] using this
    · rw [State.level_congr (hsl _), State.level_setValue]; simp
    · rw [hc] at hf; cases hf
  · next hc => exact ⟨s, rfl, (State.Moves.refl s _).mono (fun _ h => h) (by omega), by simpa using hc, fun _ => rfl⟩

theorem bitsMsb_ne (v : Byte) : bitsMsb v ≠ [] := by simp [bitsMsb]

/-- `SpiSend(v)` without a link failure (41 R153, R154): the correction if one is needed, then the 17 states; the buffer is empty, the
clock low, MOSI at the last bit. -/
theorem spiSend_moves {s : State} {p : SpiPins} (hp : s.SpiPinsOk p) (v : Byte) (h : s.linkGood 18) :
    ∃ t, spiSend p v s = .done () t ∧ s.Moves t p.driven (s.fixStates p ++ s.sendStates p v) [] 18 ∧ t.txbuf = [] ∧
      t.level p.clk = false ∧ t.level p.mosi = v.getLsbD 0 := by
  obtain ⟨t, ht, hm1, -, -⟩ := clockIdleFix_moves (p := p) (State.linkGood_mono (by omega) h)
  have hm1' := hm1.mono (T' := p.driven) (fun i hi => .inl hi) le_rfl
  have hw1 := State.wireState_congr hp hm1.evolves.shape (State.outputs_of_moves hm1' fun i hi => .inl hi)
  obtain ⟨u, hu, hm2, hl⟩ := sendBits_moves (hp.congr hm1.evolves.shape) (bitsMsb v) (hm1.good 16 (State.linkGood_mono (by omega) h))
  have hmosi : u.level p.mosi = v.getLsbD 0 := by simpa [bitsMsb] using hl (bitsMsb_ne v)
  have h12 := hm1'.trans hm2
  obtain ⟨w, hw, hm3, hf, hsl⟩ := pushState_setValue_moves (s := u) true p.clk false (T := p.driven) (.inl rfl)
    (h12.good 1 (State.linkGood_mono (by simp [bitsMsb]) h))
  have hclk : w.level p.clk = false := by rw [State.level_congr (hsl _), State.level_setValue]; simp
  have hmosi' : w.level p.mosi = v.getLsbD 0 := by
    rw [State.level_congr (hsl _), State.level_setValue_ne _ _ hp.clk_mosi, hmosi]
  refine ⟨w, ?_, ?_, hf rfl, hclk, hmosi'⟩
  · unfold spiSend; rw [ht]; simp only [Run.andThen, hu, hw]
  · have hb : (u.setValue p.clk false).pinByte = s.wireState p false (v.getLsbD 0) := by
      apply State.pinByte_eq_wireState
      · intro i; simp [h12.evolves.shape i]
      · intro i hi h1 h2
        rw [State.level_setValue_ne _ _ (Ne.symm h1)]
        exact State.outputs_of_moves h12 (fun i hi => .inl hi) i hi h1 h2
      · rw [State.level_setValue]; simp
      · rw [State.level_setValue_ne _ _ hp.clk_mosi, hmosi]
    have hall := h12.trans hm3
    rw [hb, State.bitStates_congr hw1] at hall
    refine State.Moves.mono ?_ (fun _ h => h) (show 1 + 2 * (bitsMsb v).length + 1 ≤ 18 by simp [bitsMsb])
    simpa [State.sendStates, List.append_assoc] using hall

/-! ## SpiRecv -/

/-- The pins a receive writes. -/
abbrev State.recvTouched (s : State) (p : SpiPins) (i : PinIx) : Prop := i = p.clk ∨ s.isInput i

/-- One bit received (41 R155): the sample is MISO's bit of the READ's answer, and two states are pushed. -/
theorem recvBit_moves {s : State} {p : SpiPins} (hp : s.SpiPinsOk p) (acc : Byte) (h : s.linkGood 4) :
    ∃ (b : Byte) (t : State), recvBit p acc s = .done (shiftIn acc (bitAt b p.miso)) t ∧
      s.Moves t (s.recvTouched p) [s.wireState p true (s.level p.mosi), s.wireState p false (s.level p.mosi)] [some b] 4 ∧
      t.txbuf = [] ∧ t.level p.clk = false ∧ t.level p.mosi = s.level p.mosi := by
  obtain ⟨b, t, ht, hm1, -, hsl1, -⟩ := refresh_moves (State.linkGood_mono (by omega) h)
  have hm1' := hm1.mono (T' := s.recvTouched p) (fun i hi => .inr hi) le_rfl
  obtain ⟨u, hu, hm2, -, hsl2⟩ := pushState_setValue_moves (s := t) true p.clk true (T := s.recvTouched p) (.inl rfl)
    (hm1.good 1 (State.linkGood_mono (by omega) h))
  have h12 := hm1'.trans hm2
  obtain ⟨w, hw, hm3, hf, hsl3⟩ := pushState_setValue_moves (s := u) true p.clk false (T := s.recvTouched p) (.inl rfl)
    (h12.good 1 (State.linkGood_mono (by omega) h))
  have hmiso : t.level p.miso = bitAt b p.miso := by
    have hd := hp.miso
    unfold State.level
    rw [hsl1]
    unfold State.hasDir at hd
    cases hs : s.slot p.miso with
    | none => simp [hs] at hd
    | some q => simp_all
  have hmosit : t.level p.mosi = s.level p.mosi := by
    apply State.level_congr (hm1.pins _ ?_)
    intro hi
    have := State.not_both_dirs hp.mosi
    unfold State.isInput at hi
    rw [hi] at this; cases this
  have hdirt : ∀ i d, t.hasDir i d = s.hasDir i d := fun i d => hm1.evolves.hasDir i d
  have hdiru : ∀ i d, u.hasDir i d = s.hasDir i d := fun i d => h12.evolves.hasDir i d
  have hmosiu : u.level p.mosi = s.level p.mosi := by
    rw [State.level_congr (hsl2 _), State.level_setValue_ne _ _ hp.clk_mosi, hmosit]
  have hout : ∀ i, s.recvTouched p i → p.driven i ∨ s.isInput i := fun i hi => hi.elim (fun h => .inl (.inl h)) .inr
  have hb1 : (t.setValue p.clk true).pinByte = s.wireState p true (s.level p.mosi) := by
    apply State.pinByte_eq_wireState
    · intro i; simp [hm1.evolves.shape i]
    · intro i hi h1 h2
      rw [State.level_setValue_ne _ _ (Ne.symm h1)]
      exact State.outputs_of_moves hm1' hout i hi h1 h2
    · rw [State.level_setValue]
      simp [State.isSome_of_hasDir ((hdirt _ _).trans hp.clk)]
    · rw [State.level_setValue_ne _ _ hp.clk_mosi, hmosit]
  have hb2 : (u.setValue p.clk false).pinByte = s.wireState p false (s.level p.mosi) := by
    apply State.pinByte_eq_wireState
    · intro i; simp [h12.evolves.shape i]
    · intro i hi h1 h2
      rw [State.level_setValue_ne _ _ (Ne.symm h1)]
      exact State.outputs_of_moves h12 hout i hi h1 h2
    · rw [State.level_setValue]; simp
    · rw [State.level_setValue_ne _ _ hp.clk_mosi, hmosiu]
  refine ⟨b, w, ?_, ?_, hf rfl, ?_, ?_⟩
  · unfold recvBit; rw [ht]; simp only [Run.andThen, hu, hw, hmiso]
  · have hall := h12.trans hm3
    rw [hb1, hb2] at hall
    simpa using hall
  · rw [State.level_congr (hsl3 _), State.level_setValue]; simp
  · rw [State.level_congr (hsl3 _), State.level_setValue_ne _ _ hp.clk_mosi, hmosiu]

theorem recvTouched_congr {s t : State} {p : SpiPins} (hs : ∀ i, t.shape i = s.shape i) (i : PinIx) :
    t.recvTouched p i ↔ s.recvTouched p i := by
  simp [State.recvTouched, State.isInput, State.hasDir_of_shape (hs i)]

/-- `k` bits received (41 R155, R156, R157). -/
theorem recvBits_moves {s : State} {p : SpiPins} (hp : s.SpiPinsOk p) (k : Nat) (acc : Byte) (h : s.linkGood (4 * k)) :
    ∃ (bs : List Byte) (t : State), bs.length = k ∧ recvBits p k acc s = .done ((bs.map (bitAt · p.miso)).foldl shiftIn acc) t ∧
      s.Moves t (s.recvTouched p)
        (List.replicate k [s.wireState p true (s.level p.mosi), s.wireState p false (s.level p.mosi)]).flatten
        (bs.map some) (4 * k) ∧
      (k ≠ 0 → t.txbuf = [] ∧ t.level p.clk = false) ∧ t.level p.mosi = s.level p.mosi := by
  induction k generalizing s acc with
  | zero => exact ⟨[], s, rfl, rfl, State.Moves.refl s _, fun h => absurd rfl h, rfl⟩
  | succ k ih =>
    obtain ⟨b, t, ht, hm, htx, hclk, hmosi⟩ := recvBit_moves hp acc (State.linkGood_mono (by omega) h)
    have hw : ∀ c d, t.wireState p c d = s.wireState p c d :=
      State.wireState_congr hp hm.evolves.shape
        (State.outputs_of_moves hm fun i hi => hi.elim (fun h => .inl (.inl h)) .inr)
    obtain ⟨bs, u, hlen, hu, hm2, hend, hmosi2⟩ :=
      ih (hp.congr hm.evolves.shape) (shiftIn acc (bitAt b p.miso)) (hm.good _ (by simpa [Nat.mul_add] using h))
    refine ⟨b :: bs, u, by simp [hlen], ?_, ?_, fun _ => ?_, hmosi2.trans hmosi⟩
    · simp only [recvBits, ht, Run.andThen, hu, List.map_cons, List.foldl_cons]
    · have := hm.trans (hm2.mono (fun i hi => (recvTouched_congr hm.evolves.shape i).1 hi) le_rfl)
      rw [hw, hw, hmosi] at this
      refine State.Moves.mono ?_ (fun _ h => h) (show 4 + 4 * k ≤ 4 * (k + 1) by omega)
      simpa [List.replicate_succ] using this
    · cases k with
      | zero =>
        simp only [recvBits, Run.done.injEq] at hu
        obtain ⟨-, rfl⟩ := hu
        exact ⟨htx, hclk⟩
      | succ k => exact hend (by omega)

/-- `SpiRecv()` without a link failure (41 R155 to R157): the correction if one is needed, then 8 READs and 16 states; the byte is made
of MISO's bits of the answers, the first most significant. -/
theorem spiRecv_moves {s : State} {p : SpiPins} (hp : s.SpiPinsOk p) (h : s.linkGood 33) :
    ∃ (bs : List Byte) (t : State), bs.length = 8 ∧ spiRecv p s = .done (byteOfSamples (bs.map (bitAt · p.miso))) t ∧
      s.Moves t (s.recvTouched p) (s.fixStates p ++ s.recvStates p (s.level p.mosi)) (bs.map some) 33 ∧ t.txbuf = [] ∧
      t.level p.clk = false ∧ t.level p.mosi = s.level p.mosi := by
  obtain ⟨t, ht, hm1, -, -⟩ := clockIdleFix_moves (p := p) (State.linkGood_mono (by omega) h)
  have hm1' := hm1.mono (T' := s.recvTouched p) (fun i hi => .inl hi) le_rfl
  have hw1 := State.wireState_congr hp hm1.evolves.shape
    (State.outputs_of_moves hm1' fun i hi => hi.elim (fun h => .inl (.inl h)) .inr)
  have hmosi : t.level p.mosi = s.level p.mosi := State.level_congr (hm1.pins _ (Ne.symm hp.clk_mosi))
  obtain ⟨bs, u, hlen, hu, hm2, hend, hmosi2⟩ :=
    recvBits_moves (hp.congr hm1.evolves.shape) 8 0x00#8 (hm1.good 32 (State.linkGood_mono (by omega) h))
  refine ⟨bs, u, hlen, ?_, ?_, (hend (by omega)).1, (hend (by omega)).2, hmosi2.trans hmosi⟩
  · unfold spiRecv; rw [ht]; exact hu
  · have := hm1'.trans (hm2.mono (fun i hi => (recvTouched_congr hm1.evolves.shape i).1 hi) le_rfl)
    rw [hw1, hw1, hmosi] at this
    simpa [State.recvStates] using this

end Sys2Proof.Machine
end

