-- ==== Sys2Proof/Laws/Frames.lean ====
section
/-!
SUPPORT. What the Register Protocol's procedures do when no link call fails: the frames, the device reset, the broadcast.
-/

namespace Sys2Proof.Machine

/-! ## The five pins -/

theorem State.RegPinsOk.cs_clk {s : State} {p : SpiPins} {r : RegPins} (h : s.RegPinsOk p r) : r.cs ≠ p.clk := by
  have := h.nodup; rintro he; simp [he] at this
theorem State.RegPinsOk.cs_mosi {s : State} {p : SpiPins} {r : RegPins} (h : s.RegPinsOk p r) : r.cs ≠ p.mosi := by
  have := h.nodup; rintro he; simp [he] at this
theorem State.RegPinsOk.cs_rst {s : State} {p : SpiPins} {r : RegPins} (h : s.RegPinsOk p r) : r.cs ≠ r.rst := by
  have := h.nodup; rintro he; simp [he] at this
theorem State.RegPinsOk.rst_clk {s : State} {p : SpiPins} {r : RegPins} (h : s.RegPinsOk p r) : r.rst ≠ p.clk := by
  have := h.nodup; rintro he; simp [he] at this
theorem State.RegPinsOk.rst_mosi {s : State} {p : SpiPins} {r : RegPins} (h : s.RegPinsOk p r) : r.rst ≠ p.mosi := by
  have := h.nodup; rintro he; simp [he] at this

/-- The pins a write frame writes. -/
abbrev frameDriven (p : SpiPins) (r : RegPins) (i : PinIx) : Prop := p.driven i ∨ i = r.cs

/-! ## Congruence of the pushed states -/

theorem State.fixStates_congr {s u : State} (h : ∀ i, u.slot i = s.slot i) (p : SpiPins) : u.fixStates p = s.fixStates p := by
  unfold State.fixStates
  rw [State.level_congr (h _)]
  have : (u.setValue p.clk false).pinByte = (s.setValue p.clk false).pinByte :=
    State.pinByte_congr fun i => by simp [State.slot_setValue, h]
  rw [this]

theorem State.fixStates_low {s : State} {p : SpiPins} (h : s.level p.clk = false) : s.fixStates p = [] := by
  simp [State.fixStates, h]

theorem State.sendStates_congr {s u : State} {p : SpiPins} (h : ∀ c d, u.wireState p c d = s.wireState p c d) (v : Byte) :
    u.sendStates p v = s.sendStates p v := by
  simp [State.sendStates, State.bitStates_congr h, h]

theorem State.recvStates_congr {s u : State} {p : SpiPins} (h : ∀ c d, u.wireState p c d = s.wireState p c d) (d : Bool) :
    u.recvStates p d = s.recvStates p d := by
  simp [State.recvStates, h]

/-! ## Pieces of a frame -/

/-- `CsAssert()` (42 R187). -/
theorem csAssert_moves {s : State} (r : RegPins) (h : s.linkGood 1) :
    ∃ t, csAssert r s = .done () t ∧ s.Moves t (· = r.cs) [(s.setValue r.cs false).pinByte] [] 1 ∧
      (∀ j, t.slot j = (s.setValue r.cs false).slot j) := by
  obtain ⟨t, ht, hm, -, hs⟩ := pushState_setValue_moves (s := s) false r.cs false (T := (· = r.cs)) rfl h
  exact ⟨t, ht, hm, hs⟩

/-- A further byte of a frame, in a state whose wire states are those of `a` and whose clock is low (41 R153). -/
theorem spiSend_next {a t : State} {p : SpiPins} (hp : a.SpiPinsOk p) (hs : ∀ i, t.shape i = a.shape i)
    (hw : ∀ c d, t.wireState p c d = a.wireState p c d) (hc : t.level p.clk = false) (v : Byte) (h : t.linkGood 18) :
    ∃ u, spiSend p v t = .done () u ∧ t.Moves u p.driven (a.sendStates p v) [] 18 ∧ u.txbuf = [] ∧
      u.level p.clk = false ∧ u.level p.mosi = v.getLsbD 0 ∧ (∀ i, u.shape i = a.shape i) ∧
      (∀ c d, u.wireState p c d = a.wireState p c d) := by
  obtain ⟨u, hu, hm, hx, hcl, hmo⟩ := spiSend_moves (hp.congr hs) v h
  rw [State.fixStates_low hc, State.sendStates_congr hw] at hm
  refine ⟨u, hu, by simpa using hm, hx, hcl, hmo, fun i => (hm.evolves.shape i).trans (hs i), fun c d => ?_⟩
  rw [← hw]
  exact State.wireState_congr (hp.congr hs) hm.evolves.shape (State.outputs_of_moves hm fun i hi => .inl hi) c d

/-- `CsRelease()` at the end of a frame that began in `s` (42 R187). -/
theorem csRelease_moves {s t : State} {p : SpiPins} {r : RegPins} (hr : s.RegPinsOk p r)
    (hs : ∀ i, t.shape i = s.shape i)
    (ho : ∀ i, s.hasDir i .output = true → i ≠ p.clk → i ≠ p.mosi → i ≠ r.cs → t.level i = s.level i)
    (hc : t.level p.clk = false) (h : t.linkGood 1) :
    ∃ u, csRelease r t = .done () u ∧
      t.Moves u (· = r.cs) [(s.setValue r.cs true).wireState p false (t.level p.mosi)] [] 1 ∧ u.txbuf = [] ∧
      u.level r.cs = true ∧ (∀ j, j ≠ r.cs → u.slot j = t.slot j) := by
  obtain ⟨u, hu, hm, hf, hsl⟩ := pushState_setValue_moves (s := t) true r.cs true (T := (· = r.cs)) rfl h
  have hcs : (t.slot r.cs).isSome = true := State.isSome_of_hasDir ((State.hasDir_of_shape (hs _) _).trans hr.cs)
  have hcs' : (s.slot r.cs).isSome = true := State.isSome_of_hasDir hr.cs
  have hb : (t.setValue r.cs true).pinByte = (s.setValue r.cs true).wireState p false (t.level p.mosi) := by
    apply State.pinByte_eq_wireState
    · intro i; simp [hs]
    · intro i hi h1 h2
      by_cases h3 : i = r.cs
      · subst h3; rw [State.level_setValue, State.level_setValue, hcs, hcs']
      · rw [State.level_setValue_ne _ _ (Ne.symm h3), State.level_setValue_ne _ _ (Ne.symm h3)]
        exact ho i (by simpa using hi) h1 h2 h3
    · rw [State.level_setValue_ne _ _ hr.cs_clk, hc]
    · rw [State.level_setValue_ne _ _ hr.cs_mosi]
  rw [hb] at hm
  refine ⟨u, hu, hm, hf rfl, ?_, fun j hj => hm.pins j hj⟩
  rw [State.level_congr (hsl _), State.level_setValue, hcs]; rfl

/-- The outputs other than CLK, MOSI and CS after moves that touch those and inputs only. -/
theorem State.outputs_of_frame {s t : State} {p : SpiPins} {r : RegPins} {T : PinIx → Prop} {bs : List Byte}
    {rs : List (Option Byte)} {k : Nat} (h : s.Moves t T bs rs k) (hT : ∀ i, T i → frameDriven p r i ∨ s.isInput i) :
    ∀ i, s.hasDir i .output = true → i ≠ p.clk → i ≠ p.mosi → i ≠ r.cs → t.level i = s.level i := by
  intro i hi h1 h2 h3
  apply State.level_congr (h.pins i ?_)
  intro ht
  rcases hT i ht with ((h | h) | h) | h
  · exact h1 h
  · exact h2 h
  · exact h3 h
  · have := State.not_both_dirs hi
    rw [h] at this; cases this

/-- CS low and the opcode byte, which every frame begins with (42 R188, R189). -/
theorem frameHead_moves {s : State} {p : SpiPins} {r : RegPins} (hp : s.SpiPinsOk p) (op : Byte)
    (h : s.linkGood 19) :
    ∃ t u, csAssert r s = .done () t ∧ spiSend p op t = .done () u ∧ t.cfg = s.cfg ∧
      s.Moves u (frameDriven p r)
        ([(s.setValue r.cs false).pinByte] ++
          ((s.setValue r.cs false).fixStates p ++ (s.setValue r.cs false).sendStates p op)) [] 19 ∧
      u.txbuf = [] ∧ u.level p.clk = false ∧ (∀ i, u.shape i = s.shape i) ∧
      (∀ c d, u.wireState p c d = (s.setValue r.cs false).wireState p c d) := by
  obtain ⟨t, ht, hm1, hsl⟩ := csAssert_moves r (State.linkGood_mono (by omega) h)
  have hp1 : t.SpiPinsOk p := hp.congr hm1.evolves.shape
  have hpa : (s.setValue r.cs false).SpiPinsOk p := hp.congr (by simp)
  obtain ⟨u, hu, hm2, hx, hc, -⟩ := spiSend_moves hp1 op (hm1.good 18 h)
  have hwt : ∀ c d, t.wireState p c d = (s.setValue r.cs false).wireState p c d :=
    State.wireState_congr hpa (fun i => State.shape_congr (hsl i)) fun i _ _ _ => State.level_congr (hsl i)
  rw [State.fixStates_congr hsl, State.sendStates_congr hwt] at hm2
  have hall := (hm1.mono (T' := frameDriven p r) (fun i hi => .inr hi) le_rfl).trans
    (hm2.mono (T' := frameDriven p r) (fun i hi => .inl hi) le_rfl)
  refine ⟨t, u, ht, hu, hm1.evolves.cfg, by simpa using hall, hx, hc, hall.evolves.shape, fun c d => ?_⟩
  rw [← hwt]
  exact State.wireState_congr hp1 hm2.evolves.shape (State.outputs_of_moves hm2 fun i hi => .inl hi) c d

/-! ## The frames -/

/-- `RegWriteFrame(dev, reg, data)` without a link failure (42 R188, R192). -/
theorem writeFrame_moves {s : State} {p : SpiPins} {r : RegPins} (hp : s.SpiPinsOk p) (hr : s.RegPinsOk p r) (dev : DevAddr)
    (reg data : Byte) (h : s.linkGood 56) :
    ∃ t, writeFrame p r dev reg data s = .done () t ∧
      s.Moves t (frameDriven p r) (s.writeFrameStates p r (opcode s.cfg.opcNibble dev false) (regByte reg) data) [] 56 ∧
      t.txbuf = [] ∧ t.level p.clk = false ∧ t.level p.mosi = data.getLsbD 0 ∧ t.level r.cs = true := by
  obtain ⟨t1, u1, ht1, hu1, hcfg, hm1, -, hc1, hs1, hw1⟩ :=
    frameHead_moves (r := r) hp (opcode s.cfg.opcNibble dev false) (State.linkGood_mono (by omega) h)
  have hpa : (s.setValue r.cs false).SpiPinsOk p := hp.congr (by simp)
  obtain ⟨u2, hu2, hm2, -, hc2, -, hs2, hw2⟩ :=
    spiSend_next hpa (fun i => by simpa using hs1 i) hw1 hc1 (regByte reg) (hm1.good 18 (State.linkGood_mono (by omega) h))
  have h12 := hm1.trans (hm2.mono (T' := frameDriven p r) (fun i hi => .inl hi) le_rfl)
  obtain ⟨u3, hu3, hm3, -, hc3, hl3, hs3, -⟩ :=
    spiSend_next hpa hs2 hw2 hc2 data (h12.good 18 (State.linkGood_mono (by omega) h))
  have h13 := h12.trans (hm3.mono (T' := frameDriven p r) (fun i hi => .inl hi) le_rfl)
  obtain ⟨u4, hu4, hm4, hx4, hcs4, hsl4⟩ :=
    csRelease_moves hr h13.evolves.shape (State.outputs_of_frame h13 fun i hi => .inl hi) hc3
      (h13.good 1 (State.linkGood_mono (by omega) h))
  have h14 := h13.trans (hm4.mono (T' := frameDriven p r) (fun i hi => .inr hi) le_rfl)
  rw [hl3] at h14
  refine ⟨u4, ?_, ?_, hx4, ?_, ?_, hcs4⟩
  · unfold writeFrame; rw [ht1]; simp only [Run.andThen, hcfg, hu1, hu2, hu3, hu4]
  · simpa [State.writeFrameStates, List.append_assoc] using h14
  · rw [State.level_congr (hsl4 _ hr.cs_clk.symm), hc3]
  · rw [State.level_congr (hsl4 _ hr.cs_mosi.symm), hl3]

/-- The read frame without a link failure (42 R189, R192). -/
theorem readFrame_moves {s : State} {p : SpiPins} {r : RegPins} (hp : s.SpiPinsOk p) (hr : s.RegPinsOk p r) (dev : DevAddr)
    (reg : Byte) (h : s.linkGood 71) :
    ∃ (bs : List Byte) (t : State), bs.length = 8 ∧
      readFrame p r dev reg s = .done (byteOfSamples (bs.map (bitAt · p.miso))) t ∧
      s.Moves t (fun i => frameDriven p r i ∨ s.isInput i)
        (s.readFrameStates p r (opcode s.cfg.opcNibble dev true) (regByte reg)) (bs.map some) 71 ∧
      t.txbuf = [] ∧ t.level p.clk = false ∧ t.level p.mosi = (regByte reg).getLsbD 0 ∧ t.level r.cs = true := by
  obtain ⟨t1, u1, ht1, hu1, hcfg, hm1, -, hc1, hs1, hw1⟩ :=
    frameHead_moves (r := r) hp (opcode s.cfg.opcNibble dev true) (State.linkGood_mono (by omega) h)
  have hpa : (s.setValue r.cs false).SpiPinsOk p := hp.congr (by simp)
  obtain ⟨u2, hu2, hm2, -, hc2, hl2, hs2, hw2⟩ :=
    spiSend_next hpa (fun i => by simpa using hs1 i) hw1 hc1 (regByte reg) (hm1.good 18 (State.linkGood_mono (by omega) h))
  have h12 := hm1.trans (hm2.mono (T' := frameDriven p r) (fun i hi => .inl hi) le_rfl)
  obtain ⟨bs, u3, hlen, hu3, hm3, -, hc3, hl3⟩ :=
    spiRecv_moves (hpa.congr hs2) (h12.good 33 (State.linkGood_mono (by omega) h))
  rw [State.fixStates_low hc2, hl2, State.recvStates_congr hw2, List.nil_append] at hm3
  have hin : ∀ i, u2.isInput i → s.isInput i := fun i hi => by
    unfold State.isInput at *; rwa [h12.evolves.hasDir] at hi
  have h13 := (h12.mono (T' := fun i => frameDriven p r i ∨ s.isInput i) (fun i hi => .inl hi) le_rfl).trans
    (hm3.mono (T' := fun i => frameDriven p r i ∨ s.isInput i)
      (fun i hi => hi.elim (fun h => .inl (.inl (.inl h))) fun h => .inr (hin i h)) le_rfl)
  obtain ⟨u4, hu4, hm4, hx4, hcs4, hsl4⟩ :=
    csRelease_moves hr h13.evolves.shape (State.outputs_of_frame h13 fun i hi => hi) hc3
      (h13.good 1 (State.linkGood_mono (by omega) h))
  have h14 := h13.trans (hm4.mono (T' := fun i => frameDriven p r i ∨ s.isInput i) (fun i hi => .inl (.inr hi)) le_rfl)
  rw [hl3, hl2] at h14
  refine ⟨bs, u4, hlen, ?_, ?_, hx4, ?_, ?_, hcs4⟩
  · unfold readFrame; rw [ht1]; simp only [Run.andThen, hcfg, hu1, hu2, hu3, hu4]
  · simpa [State.readFrameStates, List.append_assoc] using h14
  · rw [State.level_congr (hsl4 _ hr.cs_clk.symm), hc3]
  · rw [State.level_congr (hsl4 _ hr.cs_mosi.symm), hl3, hl2]

/-! ## Device reset and broadcast -/

/-- `DeviceReset()` without a link failure (42 R184): CS and RST end high. -/
theorem deviceReset_moves {s : State} {p : SpiPins} {r : RegPins} (hr : s.RegPinsOk p r) (h : s.linkGood 2) :
    ∃ t, deviceReset r s = .done () t ∧ s.Moves t (fun i => i = r.cs ∨ i = r.rst) (s.resetStates r) [] 2 ∧ t.txbuf = [] ∧
      t.level r.cs = true ∧ t.level r.rst = true ∧
      (∀ j, t.slot j = ((s.setValue r.cs true).setValue r.rst true).slot j) := by
  have hm0 := (s.moves_setValue r.cs true).mono (T' := fun i => i = r.cs ∨ i = r.rst) (fun i hi => .inl hi) le_rfl
  obtain ⟨t, ht, hm1, -, hs1⟩ := pushState_setValue_moves (s := s.setValue r.cs true) true r.rst false
    (T := fun i => i = r.cs ∨ i = r.rst) (.inr rfl) (State.linkGood_congr rfl rfl rfl (State.linkGood_mono (by omega) h))
  have h01 := hm0.trans hm1
  obtain ⟨u, hu, hm2, hf, hs2⟩ := pushState_setValue_moves (s := t) true r.rst true
    (T := fun i => i = r.cs ∨ i = r.rst) (.inr rfl) (h01.good 1 (by simpa using h))
  have hsl : ∀ j, (t.setValue r.rst true).slot j = ((s.setValue r.cs true).setValue r.rst true).slot j := by
    intro j
    rw [State.slot_setValue, State.slot_setValue, hs1, State.slot_setValue]
    split
    · cases (s.setValue r.cs true).slot j <;> rfl
    · rfl
  have hfin : ∀ j, u.slot j = ((s.setValue r.cs true).setValue r.rst true).slot j := fun j => (hs2 j).trans (hsl j)
  refine ⟨u, ?_, ?_, hf rfl, ?_, ?_, hfin⟩
  · unfold deviceReset; rw [ht]; simp only [Run.andThen, hu]
  · have := h01.trans hm2
    rw [State.pinByte_congr hsl] at this
    simpa [State.resetStates] using this
  · rw [State.level_congr (hfin _), State.level_setValue_ne _ _ (Ne.symm hr.cs_rst), State.level_setValue]
    simp [State.isSome_of_hasDir hr.cs]
  · rw [State.level_congr (hfin _), State.level_setValue]
    simp [State.isSome_of_hasDir (s := s.setValue r.cs true) (d := .output) (by simpa using hr.rst)]

/-- REG_BIND's procedure without a link failure (42 R182 to R185, 70 R243). -/
theorem bindAndBroadcast_moves {s : State} {p : SpiPins} {r : RegPins} (hp : s.SpiPinsOk p) (hr : s.RegPinsOk p r)
    (h : s.linkGood 58) :
    ∃ t, bindAndBroadcast p r s = .done 0x00#8 { t with haenOk := true, phase := .ready } ∧
      State.Moves { s with spi := some p, reg := some r } t (fun i => frameDriven p r i ∨ i = r.rst)
        (s.resetStates r ++
          ((s.setValue r.cs true).setValue r.rst true).writeFrameStates p r (opcode s.cfg.opcNibble 0#3 false)
            (regByte (s.cfg.ctrlReg.zeroExtend 8)) (s.cfg.ctrlDefault ||| s.cfg.haenMask)) [] 58 ∧
      t.txbuf = [] ∧ t.level p.clk = false ∧ t.level p.mosi = (s.cfg.ctrlDefault ||| s.cfg.haenMask).getLsbD 0 ∧
      t.level r.cs = true ∧ t.level r.rst = true := by
  let s0 : State := { s with spi := some p, reg := some r }
  have hsl0 : ∀ i, s0.slot i = s.slot i := fun i => rfl
  have hr0 : s0.RegPinsOk p r := hr.congr fun i => rfl
  have hp0 : s0.SpiPinsOk p := hp.congr fun i => rfl
  obtain ⟨t, ht, hm1, -, hcs, hrst, hsl⟩ := deviceReset_moves hr0 (State.linkGood_congr (t := s0) rfl rfl rfl
    (State.linkGood_mono (by omega) h))
  have hp1 := hp0.congr hm1.evolves.shape
  have hr1 := hr0.congr hm1.evolves.shape
  obtain ⟨u, hu, hm2, hx, hc, hl, hcs2⟩ := writeFrame_moves hp1 hr1 0#3 (t.cfg.ctrlReg.zeroExtend 8)
    (t.cfg.ctrlDefault ||| t.cfg.haenMask) (hm1.good 56 (State.linkGood_congr (t := s0) rfl rfl rfl h))
  have hcfg : t.cfg = s.cfg := hm1.evolves.cfg
  have hst : t.writeFrameStates p r (opcode s.cfg.opcNibble 0#3 false) (regByte (s.cfg.ctrlReg.zeroExtend 8))
      (s.cfg.ctrlDefault ||| s.cfg.haenMask) =
      ((s.setValue r.cs true).setValue r.rst true).writeFrameStates p r (opcode s.cfg.opcNibble 0#3 false)
        (regByte (s.cfg.ctrlReg.zeroExtend 8)) (s.cfg.ctrlDefault ||| s.cfg.haenMask) := by
    have hs' : ∀ b j, (t.setValue r.cs b).slot j = (((s.setValue r.cs true).setValue r.rst true).setValue r.cs b).slot j := by
      intro b j
      have : t.slot j = ((s.setValue r.cs true).setValue r.rst true).slot j := by
        rw [hsl j]; rfl
      rw [State.slot_setValue, State.slot_setValue, this]
    have hw : ∀ b c d, (t.setValue r.cs b).wireState p c d =
        (((s.setValue r.cs true).setValue r.rst true).setValue r.cs b).wireState p c d := by
      intro b c d
      apply State.wireState_congr (hp.congr (by simp))
      · intro i; exact State.shape_congr (hs' b i)
      · intro i _ _ _; exact State.level_congr (hs' b i)
    simp only [State.writeFrameStates]
    rw [State.pinByte_congr (hs' false), State.fixStates_congr (hs' false), State.sendStates_congr (hw false),
      State.sendStates_congr (hw false), State.sendStates_congr (hw false), hw true]
  refine ⟨u, ?_, ?_, hx, hc, ?_, hcs2, ?_⟩
  · unfold bindAndBroadcast haenBroadcast
    rw [ht]; simp only [Run.andThen, hu]
  · have hall := (hm1.mono (T' := fun i => frameDriven p r i ∨ i = r.rst)
      (fun i hi => hi.elim (fun h => .inl (.inr h)) .inr) le_rfl).trans
      (hm2.mono (T' := fun i => frameDriven p r i ∨ i = r.rst) (fun i hi => .inl hi) le_rfl)
    rw [hcfg, hst] at hall
    exact hall
  · rw [hl, hcfg]
  · rw [State.level_congr (hm2.pins r.rst ?_), hrst]
    rintro ((h | h) | h)
    · exact hr.rst_clk h
    · exact hr.rst_mosi h
    · exact hr.cs_rst h.symm

end Sys2Proof.Machine
end

