-- ==== Sys2Proof/Laws/Ghost.lean ====
section
/-!
SUPPORT. The relation of two states that differ in the ghost and its flags only (10 R32, R41): what they share, and that a reference
device on the link answers them alike.
-/

namespace Sys2Proof.Machine

theorem withoutOrderFlags_append (a b : List Event) :
    withoutOrderFlags (a ++ b) = withoutOrderFlags a ++ withoutOrderFlags b := by
  induction a with
  | nil => rfl
  | cons e a ih => cases e <;> simp [withoutOrderFlags, ih]

/-- The flags are no bytes on the wire. -/
theorem wireBytes_withoutOrderFlags (es : List Event) : wireBytes (withoutOrderFlags es) = wireBytes es := by
  induction es with
  | nil => rfl
  | cons e es ih =>
    cases e with
    | write bytes answer => cases answer <;> simp [withoutOrderFlags, wireBytes, ih]
    | _ => simpa [withoutOrderFlags, wireBytes] using ih

theorem State.SameButGhost.refl (s : State) : s.SameButGhost s := ⟨rfl, rfl⟩

theorem State.SameButGhost.symm {s t : State} (h : s.SameButGhost t) : t.SameButGhost s :=
  ⟨by rw [← h.fields], h.trace.symm⟩

theorem State.SameButGhost.trans {s t u : State} (h1 : s.SameButGhost t) (h2 : t.SameButGhost u) : s.SameButGhost u :=
  ⟨by rw [← h1.fields, ← h2.fields], h2.trace.trans h1.trace⟩

/-- The other state, as an update of the first. -/
theorem State.SameButGhost.eq_update {s t : State} (h : s.SameButGhost t) : t = { s with haenOk := t.haenOk, trace := t.trace } := by
  rw [← h.fields]

/-- An event recorded in both keeps the relation. -/
theorem State.SameButGhost.record {s t : State} (h : s.SameButGhost t) (e : Event) : (s.record e).SameButGhost (t.record e) where
  fields := by rw [h.eq_update]; rfl
  trace := by simp only [State.record, withoutOrderFlags_append, h.trace]

/-- A named `sim_source` does not see the flags (20 R66, 95 section 1). -/
theorem simRead_congr {cfg : Params} (h : ∀ n, cfg.simSource ≠ .other n) (inject : Byte) {a b : List Event}
    (hab : withoutOrderFlags a = withoutOrderFlags b) : simRead cfg inject a = simRead cfg inject b := by
  have hw : wireBytes a = wireBytes b := by rw [← wireBytes_withoutOrderFlags a, hab, wireBytes_withoutOrderFlags]
  unfold simRead
  cases hs : cfg.simSource with
  | other n => exact absurd hs (h n)
  | _ => simp only [hw]

end Sys2Proof.Machine
end

