-- ==== Sys2Proof/Laws/Link.lean ====
section
/-!
SUPPORT. Link calls one by one, in simulation mode and in real mode; and the two forms in which statements write what error entry
leaves: `closeDown` is `closed`, `respond` is `answered`.
-/

namespace Sys2Proof.Machine

/-- In simulation mode a plain link call succeeds and uses no answer up (20 R66). -/
theorem linkCall_sim {s : State} (h : s.sim = true) (event : Bool → Event) :
    linkCall event s = (true, s.record (event true)) := by
  simp [linkCall, State.takeAnswer, h]

/-- In real mode a plain link call succeeds unless the next answer is `fail` (20 R66). -/
theorem linkCall_real {s : State} (h : s.sim = false) (event : Bool → Event) :
    linkCall event s = (s.answerAt 0 != .fail, s.drawn.record (event (s.answerAt 0 != .fail))) := by
  cases ha : s.answerAt 0 <;> (simp [linkCall, State.takeAnswer, h, ha]) <;> rfl

/-- In simulation mode a WRITE is answered with its length (20 R66). -/
theorem linkWrite_sim {s : State} (h : s.sim = true) (bytes : List Byte) :
    linkWrite bytes s = (some bytes.length, s.record (.write bytes (some bytes.length))) := by
  simp [linkWrite, State.takeAnswer, h]

/-- In simulation mode a READ is answered by `sim_source` (20 R66). -/
theorem linkRead_sim {s : State} (h : s.sim = true) :
    linkRead s =
      (some (simRead s.cfg s.inject s.trace), s.record (.read (some (simRead s.cfg s.inject s.trace)))) := by
  simp [linkRead, State.takeAnswer, h]

/-- In simulation mode a flush sends the whole buffer, and the write is not short (40 R122). -/
theorem flush_sim {s : State} (h : s.sim = true) :
    flush s =
      .done () { (s.record (.write s.txbuf (some s.txbuf.length))).appendHistory s.txbuf with txbuf := [] } := by
  simp [flush, linkWrite_sim h, State.noteShortWrite]

/-- The CLOSE of a teardown and the power-on state it leaves (40 R128, 60 R220). -/
theorem State.closeDown_eq_closed (s : State) : s.closeDown = s.closed := by
  cases h : s.sim
  · simp [State.closeDown, linkCall_real h, State.closed, h, State.powerOn, State.record, State.drawn]
  · simp [State.closeDown, linkCall_sim h, State.closed, h, State.powerOn, State.record]

/-- The two names of one more response. -/
theorem State.respond_eq_answered (s : State) (c : Status) (d : Byte) : s.respond c d = s.answered c d := rfl

/-- A fatal error as a statement writes it (60 R220). -/
theorem fatal_eq (c : Status) (d : Byte) (s : State) : fatal c d s = .next (s.closed.answered c d) := by
  rw [fatal, State.closeDown_eq_closed]; rfl

end Sys2Proof.Machine
end

