-- ==== Sys2Proof/Laws/PerInstr.lean ====
section
/-!
SUPPORT. A family of facts proved per instruction: how many words, or bytes on the bus, an encoding has follows from its first one
(30 R83, R100, R103, R104).
-/

namespace Sys2Proof.Laws.WireForm

/-- How many words, or bytes of a bus frame, a layout has. -/
def size : Wire → Nat
  | .command ws => ws.length
  | .entry _ => 1
  | .bus bs => bs.length

/-- How many its first word or byte announces: `N` payload words after a PLANE_INIT word (R83, R100), a register byte and, for a
write, a data byte after an opcode byte (R103, R104). -/
def announced : Wire → Nat
  | .command [] => 0
  | .command (w :: _) => if Word.op w = 0x01#8 then (Word.fieldA w).toNat + 1 else 1
  | .entry _ => 1
  | .bus [] => 0
  | .bus (op :: _) => if op.getLsbD 0 then 2 else 3

/-- The encoding of `i` has the length that its first word or byte announces. -/
def Statement (i : Instr) : Prop :=
  i.wellFormed = true → ∀ nibble : BitVec 4, size (encode nibble i) = announced (encode nibble i)

/-- The OP of a packed word. -/
theorem op_pack (op a b c : Byte) : Word.op (Word.pack op a b c) = op := by
  apply BitVec.eq_of_getLsbD_eq
  intro k hk
  simp only [Word.op, Word.pack, BitVec.getLsbD_extractLsb', BitVec.getLsbD_append]
  have h1 : ¬ 24 + k < 8 := by omega
  have h2 : ¬ 24 + k - 8 < 8 := by omega
  have h3 : ¬ 24 + k - 8 - 8 < 8 := by omega
  simp only [hk, h1, h2, h3, decide_true, Bool.true_and, if_false]
  congr 1; omega

/-- The field A of a packed word. -/
theorem fieldA_pack (op a b c : Byte) : Word.fieldA (Word.pack op a b c) = a := by
  apply BitVec.eq_of_getLsbD_eq
  intro k hk
  simp only [Word.fieldA, Word.pack, BitVec.getLsbD_extractLsb', BitVec.getLsbD_append]
  have h1 : ¬ 16 + k < 8 := by omega
  have h2 : ¬ 16 + k - 8 < 8 := by omega
  have h3 : 16 + k - 8 - 8 < 8 := by omega
  simp only [hk, h1, h2, h3, decide_true, Bool.true_and, if_false, if_true]
  congr 1; omega

/-- A one-word command whose OP is not PLANE_INIT's. -/
theorem of_one {i : Instr} {op a b c : Byte} (he : ∀ nibble, encode nibble i = .command [Word.pack op a b c])
    (hop : op ≠ 0x01#8) : Statement i := by
  intro _ nibble
  simp [he, size, announced, op_pack, hop]

theorem planeInit (entries : List Entry) (sim : Bool) : Statement (.planeInit entries sim) := by
  intro h nibble
  have hn : entries.length < 256 := by simpa [Instr.wellFormed, Nat.lt_succ_iff] using h
  simp [encode, size, announced, op_pack, fieldA_pack, Nat.mod_eq_of_lt hn]

theorem close : Statement .close := of_one (fun _ => rfl) (by decide)

theorem setPin (n : PinIx) (v : Bool) : Statement (.setPin n v) := of_one (fun _ => rfl) (by decide)

theorem getPin (n : PinIx) : Statement (.getPin n) := of_one (fun _ => rfl) (by decide)

theorem setPins (flush : Bool) : Statement (.setPins flush) := of_one (fun _ => rfl) (by decide)

theorem getPins : Statement .getPins := of_one (fun _ => rfl) (by decide)

theorem inject (v : Byte) : Statement (.inject v) := of_one (fun _ => rfl) (by decide)

theorem spiBind (clk mosi miso : PinIx) : Statement (.spiBind clk mosi miso) := of_one (fun _ => rfl) (by decide)

theorem spiSend (v : Byte) : Statement (.spiSend v) := of_one (fun _ => rfl) (by decide)

theorem spiRecv : Statement .spiRecv := of_one (fun _ => rfl) (by decide)

theorem regBind (clk mosi miso cs rst : PinIx) : Statement (.regBind clk mosi miso cs rst) := by
  intro _ nibble
  have h : Word.op (0x20#8 ++ 0#9 ++ clk ++ mosi ++ miso ++ cs ++ rst) = 0x20#8 := by
    apply BitVec.eq_of_getLsbD_eq
    intro k hk
    simp only [Word.op, BitVec.getLsbD_extractLsb', BitVec.getLsbD_append]
    have h1 : ¬ 24 + k < 3 := by omega
    have h2 : ¬ 24 + k - 3 < 3 := by omega
    have h3 : ¬ 24 + k - 3 - 3 < 3 := by omega
    have h4 : ¬ 24 + k - 3 - 3 - 3 < 3 := by omega
    have h5 : ¬ 24 + k - 3 - 3 - 3 - 3 < 3 := by omega
    have h6 : ¬ 24 + k - 3 - 3 - 3 - 3 - 3 < 9 := by omega
    simp only [hk, h1, h2, h3, h4, h5, h6, decide_true, Bool.true_and, if_false]
    congr 1; omega
  simp only [encode, size, announced, h]
  rfl

theorem regWrite (dev : DevAddr) (reg data : Byte) : Statement (.regWrite dev reg data) :=
  of_one (fun _ => rfl) (by decide)

theorem regRead (dev : DevAddr) (reg : Byte) : Statement (.regRead dev reg) := of_one (fun _ => rfl) (by decide)

theorem planeInitEntry (index : Byte) (dir : Dir) (init : Bool) (name : Byte) :
    Statement (.planeInitEntry index dir init name) := fun _ _ => rfl

theorem frameWr (dev : DevAddr) (reg : BitVec 5) (data : Byte) : Statement (.frameWr dev reg data) := by
  intro _ nibble
  have h : (nibble ++ dev ++ 0#1).getLsbD 0 = false := by rw [BitVec.getLsbD_append]; rfl
  simp only [encode, size, announced, h]
  rfl

theorem frameRd (dev : DevAddr) (reg : BitVec 5) : Statement (.frameRd dev reg) := by
  intro _ nibble
  have h : (nibble ++ dev ++ 1#1).getLsbD 0 = true := by rw [BitVec.getLsbD_append]; rfl
  simp only [encode, size, announced, h]
  rfl

end Sys2Proof.Laws.WireForm
end

