-- ==== Sys2Proof/Tests/Slice0.lean ====
section
/-!
SUPPORT. The model's own tests: well-formedness, decoding of words written out from the spec's encodings, single steps with the results
of spec/95_test_vectors.md, and for every statement with hypotheses a state that meets them.
-/

namespace Sys2Proof.Tests

open Sys2Proof Sys2Proof.Machine

/-! ## States to test on -/

/-- The parameters of 95 section 0: `MAX_PACKET` 64, three open attempts, nibble 4, control register 5, HAEN bit 3. -/
def cfgE : Params where
  maxPacketPred := 63
  histCap := 256
  clockRate := 1000
  settleDelay := 2
  openAttemptsPred := 2
  openBackoff := 3
  deviceIndex := 0
  modeReset := 0
  modeAsyncBitbang := 1
  opcNibble := 0b0100#4
  ctrlReg := 0x05#5
  haenBit := 3#3
  ctrlDefault := 0x00#8
  simSource := .inject

/-- The machine at power-on with the parameters `cfgE`. -/
def idleE : State := { State.reset with cfg := cfgE }

/-- The pin list of configuration E (95 section 0). -/
def entriesE : List Entry :=
  [.pin 0#8 .output false 0#8, .pin 1#8 .output false 0#8, .pin 2#8 .input false 0#8, .pin 3#8 .output true 0#8,
    .pin 4#8 .output true 0#8]

/-- The pins of configuration E. -/
def pinsE : Vector (Option Pin) 8 :=
  #v[some ⟨.output, false, 0#8⟩, some ⟨.output, false, 0#8⟩, some ⟨.input, false, 0#8⟩, some ⟨.output, true, 0#8⟩,
    some ⟨.output, true, 0#8⟩, none, none, none]

/-- A plane with the pins of configuration E in simulation mode, with a trace that says no more than that the link is open. -/
def planeE : State := { idleE with phase := .plane, sim := true, pins := pinsE, trace := [.openLink 0 true] }

/-- The SPI pins of 95 section 3.3. -/
def spiPinsE : SpiPins := ⟨0#3, 1#3, 2#3⟩

/-- The CS and RST of 95 section 3.4. -/
def regPinsE : RegPins := ⟨3#3, 4#3⟩

/-- With an SPI Link bound. -/
def spiE : State := { planeE with phase := .spi, spi := some spiPinsE }

/-- With the Register Protocol bound and the HAEN broadcast sent. -/
def readyE : State := { planeE with phase := .ready, spi := some spiPinsE, reg := some regPinsE, haenOk := true }

/-- The same state in real mode, with these link answers ready. -/
def real (s : State) (answers : List Answer) : State := { s with sim := false, answers := answers }

/-- The response word of the command that gave this outcome. -/
def answer : Host.Outcome State Fault Refusal → Option (BitVec 16)
  | .next t => t.responses.getLast?.map Response.word
  | _ => none

/-- The events of an outcome after the first one. -/
def events : Host.Outcome State Fault Refusal → Option (List Event)
  | .next t => some t.trace.tail
  | _ => none

/-- A view of the next state. -/
def look {α : Type} (f : State → α) : Host.Outcome State Fault Refusal → Option α
  | .next t => some (f t)
  | _ => none

/-- An outcome with an answer is a next state. -/
theorem next_of_answer {o : Host.Outcome State Fault Refusal} {x : BitVec 16} (h : answer o = some x) :
    ∃ t, o = .next t ∧ t.responses.getLast?.map Response.word = some x := by
  cases o with
  | next t => exact ⟨t, rfl, h⟩
  | fault r => cases h
  | refused r => cases h

/-! ## Well-formedness -/

/-- 30 R83: the payload count has 8 bits: 256 entries have no encoding. -/
theorem test_illFormed_payload (es : List Entry) (h : es.length = 256) : (Instr.planeInit es true).wellFormed = false := by
  simp [Instr.wellFormed, h]

theorem test_wellFormed_payload (es : List Entry) (h : es.length = 255) : (Instr.planeInit es true).wellFormed = true := by
  simp [Instr.wellFormed, h]

/-! ## Decoding, words written out from 30 R82 to R96, R103 -/

/-- PLANE_INIT: `0x01 N {0000000 SIM} 0x00`, then `0x50 IX {000000 INIT DIR} NAME`. -/
theorem test_decode_planeInit :
    decodeWords [0b00000001_00000010_00000001_00000000#32, 0b01010000_00000000_00000001_00000000#32,
      0b01010000_00000111_00000010_00001001#32] =
      some (.planeInit [.pin 0#8 .output false 0#8, .pin 7#8 .input true 9#8] true) := by decide

theorem test_decode_planeInit_nonPin : decodeWords [0x01010000#32, 0x51000000#32] = some (.planeInit [.nonPin] false) := by decide

theorem test_decode_close : decodeWords [0b00000010_00000000_00000000_00000000#32] = some .close := by decide

/-- SET_PIN: A[2:0] the pin, B[0] the value. -/
theorem test_decode_setPin : decodeWords [0b00000011_00000001_00000001_00000000#32] = some (.setPin 1#3 true) ∧
    decodeWords [0b00000011_00000111_00000000_00000000#32] = some (.setPin 7#3 false) := by decide

theorem test_decode_getPin : decodeWords [0b00000100_00000011_00000000_00000000#32] = some (.getPin 3#3) := by decide

theorem test_decode_setPins : decodeWords [0b00000101_00000001_00000000_00000000#32] = some (.setPins true) ∧
    decodeWords [0b00000101_00000000_00000000_00000000#32] = some (.setPins false) := by decide

theorem test_decode_getPins : decodeWords [0b00000110_00000000_00000000_00000000#32] = some .getPins := by decide

theorem test_decode_inject : decodeWords [0b00000111_11111111_00000000_00000000#32] = some (.inject 0xFF#8) := by decide

/-- SPI_BIND: CLK in A[2:0], MOSI in B[2:0], MISO in C[2:0]. -/
theorem test_decode_spiBind : decodeWords [0b00010000_00000000_00000001_00000010#32] = some (.spiBind 0#3 1#3 2#3) ∧
    decodeWords [0b00010000_00000111_00000101_00000110#32] = some (.spiBind 7#3 5#3 6#3) := by decide

theorem test_decode_spiSend : decodeWords [0b00010001_00111100_00000000_00000000#32] = some (.spiSend 0x3C#8) := by decide

theorem test_decode_spiRecv : decodeWords [0b00010010_00000000_00000000_00000000#32] = some .spiRecv := by decide

/-- REG_BIND: CLK 14:12, MOSI 11:9, MISO 8:6, CS 5:3, RST 2:0. -/
theorem test_decode_regBind :
    decodeWords [0b00100000_00000000_0_000_001_010_011_100#32] = some (.regBind 0#3 1#3 2#3 3#3 4#3) := by decide

/-- REG_WRITE: DEV in A[2:0], REG in B, DATA in C. -/
theorem test_decode_regWrite : decodeWords [0b00100001_00000011_00101001_00111100#32] = some (.regWrite 3#3 0x29#8 0x3C#8) := by
  decide

theorem test_decode_regRead : decodeWords [0b00100010_00000101_00001001_00000000#32] = some (.regRead 5#3 0x09#8) := by decide

/-- A payload entry: IX in 23:16, DIR bit 8, INIT bit 9, NAME in 7:0. -/
theorem test_decode_planeInitEntry : decodeWire 4#4 (.entry 0b01010000_00000011_00000011_00000000#32) =
    some (.planeInitEntry 3#8 .output true 0#8) := by decide

/-- FRAME_WR: `{0100, DEV, 0}`, the register byte, the data byte. -/
theorem test_decode_frameWr : decodeWire 4#4 (.bus [0b0100_011_0#8, 0b000_01001#8, 0x3C#8]) =
    some (.frameWr 3#3 9#5 0x3C#8) := by decide

/-- FRAME_RD: `{0100, DEV, 1}`, the register byte. -/
theorem test_decode_frameRd : decodeWire 4#4 (.bus [0b0100_101_1#8, 0b000_01001#8]) = some (.frameRd 5#3 9#5) := by decide

/-- 95 section 3.1: the refused words, by a reserved bit or by an unassigned OP. -/
theorem test_decode_refused : [0x00000000#32, 0x08000000#32, 0x03010200#32, 0x12000001#32, 0x2000829C#32, 0x22050001#32, 0x21FF0000#32,
    0x50000100#32].map decodeCommand = List.replicate 8 .illegal := by decide

theorem test_decode_illegal_entry : decodeWords [0x01010000#32, 0x50000500#32] = none ∧ decodeWords [0x01010200#32, 0x50000100#32] = none := by
  decide

/-- The bits of opcode_table.json's rows, and a step that runs each (95 section 3.1: OP as the row's match). -/
theorem test_table_words : decodeTableWord 32 0x20000000 = some (.regBind 0#3 0#3 0#3 0#3 0#3) ∧
    decodeTableWord 32 0x50000000 = some (.planeInitEntry 0#8 .input false 0#8) ∧
    decodeTableWord 8 0x40 = some (.frameWr 0#3 0#5 0#8) ∧ decodeTableWord 8 0x41 = some (.frameRd 0#3 0#5) ∧
    decodeTableWord 8 0x30 = none := by decide

/-! ## Single steps, results from 95 -/

/-- V-PIN-1. -/
theorem test_planeInit : answer (exec (.planeInit entriesE true) idleE) = some 0x0000#16 ∧
    look State.trace (exec (.planeInit entriesE true) idleE) =
      some [.openLink 0 true, .resetLink true, .setClock 1000 true, .setBitMode 0x1B#8 1 true, .delaySettle 2, .write [0x18#8] (some 1)] := by
  decide

/-- V-ERR-5: entries are checked in list order. -/
theorem test_planeInit_check_order : answer (exec (.planeInit [.nonPin, .pin 8#8 .output false 0#8] true) idleE) = some 0x1002#16 ∧
    answer (exec (.planeInit [.pin 9#8 .output false 0#8, .nonPin] true) idleE) = some 0x1003#16 := by decide

/-- V-PIN-5: the buffered byte is discarded. -/
theorem test_close : events (exec .close { planeE with txbuf := [0x18#8] }) = some [.closeLink true] ∧
    look State.phase (exec .close { planeE with txbuf := [0x18#8] }) = some .idle := by decide

/-- V-ERR-9. -/
theorem test_setPin_absent : answer (exec (.setPin 5#3 true) planeE) = some 0x3205#16 := by decide

/-- V-PIN-3, its first half. -/
theorem test_setPin : look State.pinByte (exec (.setPin 1#3 true) planeE) = some 0x1A#8 := by decide

/-- V-PIN-2. -/
theorem test_getPin : [3#3, 2#3, 5#3].map (fun i => answer (exec (.getPin i) planeE)) =
    [some 0x0007#16, some 0x0001#16, some 0x0000#16] := by decide

/-- V-PIN-7: a short write. -/
theorem test_setPins_short : events (exec (.setPins true) (real { planeE with txbuf := [0x18#8] } [.ok 1])) =
    some [.write [0x18#8, 0x18#8] (some 1), .shortWrite 1 2] := by decide

/-- 40 R120: below `MAX_PACKET` nothing is sent. -/
theorem test_setPins_buffers : events (exec (.setPins false) planeE) = some [] ∧
    look State.txbuf (exec (.setPins false) planeE) = some [0x18#8] := by decide

/-- V-PIN-4. -/
theorem test_getPins : answer (exec .getPins { planeE with inject := 0xFF#8 }) = some 0x001C#16 ∧
    events (exec .getPins { planeE with inject := 0xFF#8 }) = some [.read (some 0xFF#8)] := by decide

/-- V-ERR-13. -/
theorem test_getPins_failed : answer (exec .getPins (real planeE [.fail, .ok 0])) = some 0x2102#16 ∧
    events (exec .getPins (real planeE [.fail, .ok 0])) = some [.read none, .closeLink true] := by decide

/-- V-PIN-9. -/
theorem test_inject_real : answer (exec (.inject 0x04#8) (real planeE [])) = some 0x3000#16 := by decide

theorem test_inject : look State.inject (exec (.inject 0xFF#8) planeE) = some 0xFF#8 := by decide

/-- V-ERR-6, V-ERR-7. -/
theorem test_spiBind_refused : answer (exec (.spiBind 0#3 0#3 2#3) planeE) = some 0x1007#16 ∧
    answer (exec (.spiBind 0#3 1#3 3#3) planeE) = some 0x1006#16 ∧ answer (exec (.spiBind 0#3 1#3 5#3) planeE) = some 0x1005#16 := by
  decide

theorem test_spiBind : look State.spi (exec (.spiBind 0#3 1#3 2#3) planeE) = some (some spiPinsE) := by decide

/-- V-SPI-1. -/
theorem test_spiSend : events (exec (.spiSend 0xA5#8) spiE) =
    some [.write [0x1A#8, 0x1B#8, 0x18#8, 0x19#8, 0x1A#8, 0x1B#8, 0x18#8, 0x19#8, 0x18#8, 0x19#8, 0x1A#8, 0x1B#8, 0x18#8, 0x19#8, 0x1A#8,
      0x1B#8, 0x1A#8] (some 17)] := by decide

/-- V-SPI-4: `MAX_PACKET` 4. -/
theorem test_spiSend_split : events (exec (.spiSend 0xA5#8) { spiE with cfg := { cfgE with maxPacketPred := 3 } }) =
    some [.write [0x1A#8, 0x1B#8, 0x18#8, 0x19#8] (some 4), .write [0x1A#8, 0x1B#8, 0x18#8, 0x19#8] (some 4),
      .write [0x18#8, 0x19#8, 0x1A#8, 0x1B#8] (some 4), .write [0x18#8, 0x19#8, 0x1A#8, 0x1B#8] (some 4), .write [0x1A#8] (some 1)] := by
  decide

/-- V-SPI-6, V-SPI-7. -/
theorem test_spiRecv : answer (exec .spiRecv { spiE with inject := 0x04#8 }) = some 0x00FF#16 ∧
    answer (exec .spiRecv { spiE with inject := 0xFB#8 }) = some 0x0000#16 := by decide

/-- V-SPI-6, the trace. -/
theorem test_spiRecv_trace : events (exec .spiRecv { spiE with inject := 0x04#8 }) =
    some (List.replicate 8 [Event.read (some 0x04#8), .write [0x19#8] (some 1), .write [0x18#8] (some 1)]).flatten := by decide

/-- V-REG-1. -/
theorem test_regBind : events (exec (.regBind 0#3 1#3 2#3 3#3 4#3) planeE) =
    some [.write [0x08#8] (some 1), .write [0x18#8] (some 1),
      .write [0x10#8, 0x10#8, 0x11#8, 0x12#8, 0x13#8, 0x10#8, 0x11#8, 0x10#8, 0x11#8, 0x10#8, 0x11#8, 0x10#8, 0x11#8, 0x10#8, 0x11#8,
        0x10#8, 0x11#8, 0x10#8] (some 18),
      .write [0x10#8, 0x11#8, 0x10#8, 0x11#8, 0x10#8, 0x11#8, 0x10#8, 0x11#8, 0x10#8, 0x11#8, 0x12#8, 0x13#8, 0x10#8, 0x11#8, 0x12#8,
        0x13#8, 0x12#8] (some 17),
      .write [0x10#8, 0x11#8, 0x10#8, 0x11#8, 0x10#8, 0x11#8, 0x10#8, 0x11#8, 0x12#8, 0x13#8, 0x10#8, 0x11#8, 0x10#8, 0x11#8, 0x10#8,
        0x11#8, 0x10#8] (some 17),
      .write [0x18#8] (some 1)] := by decide

/-- V-ERR-8. -/
theorem test_regBind_refused : answer (exec (.regBind 0#3 1#3 2#3 3#3 3#3) planeE) = some 0x1007#16 ∧
    answer (exec (.regBind 0#3 1#3 2#3 5#3 4#3) planeE) = some 0x1005#16 ∧
    answer (exec (.regBind 0#3 1#3 5#3 2#3 4#3) planeE) = some 0x1006#16 := by decide

/-- V-REG-2. -/
theorem test_regWrite : events (exec (.regWrite 3#3 0x29#8 0x3C#8) readyE) =
    some [.write [0x10#8, 0x10#8, 0x11#8, 0x12#8, 0x13#8, 0x10#8, 0x11#8, 0x10#8, 0x11#8, 0x10#8, 0x11#8, 0x12#8, 0x13#8, 0x12#8, 0x13#8,
        0x10#8, 0x11#8, 0x10#8] (some 18),
      .write [0x10#8, 0x11#8, 0x10#8, 0x11#8, 0x10#8, 0x11#8, 0x10#8, 0x11#8, 0x12#8, 0x13#8, 0x10#8, 0x11#8, 0x10#8, 0x11#8, 0x12#8,
        0x13#8, 0x12#8] (some 17),
      .write [0x10#8, 0x11#8, 0x10#8, 0x11#8, 0x12#8, 0x13#8, 0x12#8, 0x13#8, 0x12#8, 0x13#8, 0x12#8, 0x13#8, 0x10#8, 0x11#8, 0x10#8,
        0x11#8, 0x10#8] (some 17),
      .write [0x18#8] (some 1)] := by decide

/-- V-ERR-15: the second write fails. -/
theorem test_regWrite_failed : answer (exec (.regWrite 3#3 0x29#8 0x3C#8) (real readyE [.ok 18, .fail, .ok 0])) = some 0x2201#16 ∧
    (events (exec (.regWrite 3#3 0x29#8 0x3C#8) (real readyE [.ok 18, .fail, .ok 0]))).map List.length = some 3 := by decide

/-- V-REG-3. -/
theorem test_regRead : answer (exec (.regRead 5#3 0x09#8) { readyE with inject := 0x04#8 }) = some 0x00FF#16 ∧
    (events (exec (.regRead 5#3 0x09#8) { readyE with inject := 0x04#8 })).map (·.drop 2) =
      some ((List.replicate 8 [Event.read (some 0x04#8), .write [0x13#8] (some 1), .write [0x12#8] (some 1)]).flatten ++
        [.write [0x1A#8] (some 1)]) := by decide

/-- 42 R191: the flag, before the frame. -/
theorem test_regRead_order : (events (exec (.regRead 5#3 0x09#8) { readyE with haenOk := false })).map List.head? =
    some (some (.orderViolation 5#3)) := by decide

/-- 30 R84: an entry in the payload position. -/
theorem test_planeInitEntry :
    look State.intake (exec (.planeInitEntry 3#8 .output true 0#8) { idleE with intake := some ⟨false, false, 1, []⟩ }) =
      some (some ⟨false, false, 0, [.pin 3#8 .output true 0#8]⟩) := by decide

/-- 30 R104: the frames of V-REG-2 and V-REG-3 by themselves. -/
theorem test_frameWr : look State.txbuf (exec (.frameWr 3#3 9#5 0x3C#8) readyE) = some [] ∧
    events (exec (.frameWr 3#3 9#5 0x3C#8) readyE) = events (exec (.regWrite 3#3 0x29#8 0x3C#8) readyE) := by decide

theorem test_frameRd : answer (exec (.frameRd 5#3 9#5) { readyE with inject := 0x04#8 }) = some 0x00FF#16 := by decide

/-! ## States that meet the hypotheses of the statements -/

/-- Any state with the pins of configuration E has good SPI pins. -/
theorem spiOkE {s : State} (h : s.pins = pinsE) : s.SpiPinsOk spiPinsE := by
  have hd : ∀ i d, s.hasDir i d = planeE.hasDir i d := fun i d => State.hasDir_congr (State.slot_congr (s := planeE) h i)
  constructor <;> (try rw [hd]) <;> decide

/-- Any state with the pins of configuration E has good CS and RST pins. -/
theorem regOkE {s : State} (h : s.pins = pinsE) : s.RegPinsOk spiPinsE regPinsE := by
  have hd : ∀ i d, s.hasDir i d = planeE.hasDir i d := fun i d => State.hasDir_congr (State.slot_congr (s := planeE) h i)
  constructor <;> (try rw [hd]) <;> decide

/-- With `k` good answers ready, none of the next `k` calls fails. -/
theorem linkGood_real (s : State) (k : Nat) : (real s (List.replicate k (.ok 1))).linkGood k := by
  refine .inr fun n hn => ?_
  simp [State.answerAt, real, hn]

/-- The pin list of configuration E has no fault. -/
theorem entriesOkE : EntriesOk entriesE := by
  refine ⟨?_, by decide⟩
  intro e he
  simp only [entriesE, List.mem_cons, List.not_mem_nil, or_false] at he
  obtain rfl | rfl | rfl | rfl | rfl := he <;> exact ⟨_, _, _, _, rfl, by decide⟩

/-- The pin list with the one pin 7, the highest index. -/
theorem entriesOk_seven : EntriesOk [.pin 7#8 .input false 0#8] := by
  refine ⟨?_, by decide⟩
  intro e he
  simp only [List.mem_cons, List.not_mem_nil, or_false] at he
  subst he
  exact ⟨_, _, _, _, rfl, by decide⟩

/-- The READY state meets the invariant in both modes, whatever answers are ready and whatever stands at the port and the framer. -/
theorem readyE_inv (sim : Bool) (answers : List Answer) (port : List Word) (busIn : List Byte) :
    State.Inv { readyE with sim := sim, answers := answers, port := port, busIn := busIn } where
  idle := nofun
  spi_iff := ⟨fun _ => .inr rfl, fun _ => rfl⟩
  reg_iff := ⟨fun _ => rfl, fun _ => rfl⟩
  spi_ok := fun p h => by cases h; exact spiOkE rfl
  reg_ok := fun p r h1 h2 => by cases h1; cases h2; exact regOkE rfl
  haen := fun _ => rfl
  txbuf := (by decide : 0 < 64)
  history := Nat.zero_le _
  link := rfl
  writes := fun e he => by rw [List.mem_singleton.mp he]; rfl
  intake := nofun

theorem test_witness_decodeOfEncode : (Instr.planeInit entriesE true).wellFormed = true ∧ (Instr.frameRd 7#3 31#5).wellFormed = true := by
  decide

theorem test_witness_decodedEncodesBack : decodeCommand 0x2103293C#32 = .one (.regWrite 3#3 0x29#8 0x3C#8) ∧
    decodeCommand 0x02000000#32 = .one .close := by decide

/-- `idleE` with these words at the host port. -/
def given (ws : List Word) : State := { idleE with port := ws }

/-- It waits for a command. -/
theorem given_awaits (ws : List Word) : (given ws).AwaitsCommand ∧ (given ws).port = ws := ⟨⟨rfl, rfl⟩, rfl⟩

/-- The lowest and the highest unassigned OP, those beside assigned ones, and the entry's TAG. -/
theorem test_witness_unassignedOp : ((given [0x08000000#32]).AwaitsCommand ∧ (given [0x08000000#32]).port = [0x08000000#32]) ∧
    ∀ w ∈ [0x00000000#32, 0xFF000000#32, 0x08000000#32, 0x50000100#32, 0x23000000#32], Word.op w ∉ assignedOps :=
  ⟨given_awaits _, by simp [Word.op, assignedOps]⟩

/-- The lowest reserved bit of a row and the highest of another. -/
theorem test_witness_reservedBit : ((given [0x12000001#32]).AwaitsCommand ∧ (given [0x12000001#32]).port = [0x12000001#32]) ∧
    (0x12#8, 0xFFFFFFFF#32, 0x12000000#32) ∈ commandRows ∧ Word.op 0x12000001#32 = 0x12#8 ∧
    0x12000001#32 &&& 0xFFFFFFFF#32 ≠ 0x12000000#32 ∧
    (0x20#8, 0xFFFF8000#32, 0x20000000#32) ∈ commandRows ∧ Word.op 0x20800000#32 = 0x20#8 ∧
    0x20800000#32 &&& 0xFFFF8000#32 ≠ 0x20000000#32 :=
  ⟨given_awaits _, by decide, by decide, by decide, by decide, by decide, by decide⟩

/-- A PLANE_INIT word with a reserved bit and no payload. -/
theorem test_witness_reservedBit_planeInit : ((given [0x01000200#32]).AwaitsCommand ∧ (given [0x01000200#32]).port = [0x01000200#32]) ∧
    Word.op 0x01000200#32 = 0x01#8 ∧ ([] : List Word).length = (Word.fieldA 0x01000200#32).toNat ∧
    0x01000200#32 &&& 0xFF00FEFF#32 ≠ 0x01000000#32 := ⟨given_awaits _, by decide, by decide, by decide⟩

/-- A PLANE_INIT with an illegal pin entry. -/
theorem test_witness_reservedBit_entry :
    ((given [0x01010000#32, 0x50000500#32]).AwaitsCommand ∧ (given [0x01010000#32, 0x50000500#32]).port = [0x01010000#32, 0x50000500#32]) ∧
    Word.op 0x01010000#32 = 0x01#8 ∧ [0x50000500#32].length = (Word.fieldA 0x01010000#32).toNat ∧
    ∃ e ∈ [0x50000500#32], Word.op e = 0x50#8 ∧ e &&& 0xFF00FC00#32 ≠ 0x50000000#32 :=
  ⟨given_awaits _, by decide, by decide, 0x50000500#32, by decide, by decide, by decide⟩

theorem test_witness_step_command : ((given [0x06000000#32]).AwaitsCommand ∧ (given [0x06000000#32]).port = [0x06000000#32]) ∧
    decodeWords [0x06000000#32] = some .getPins ∧ ∀ es sim, Instr.getPins ≠ .planeInit es sim :=
  ⟨given_awaits _, by decide, nofun⟩

theorem test_witness_step_entry : ∃ s : State, s.busIn = [] ∧ s.intake = some ⟨true, false, 1, []⟩ ∧ s.port = [0x50000100#32] ∧
    decodeEntry 0x50000100#32 = some (.pin 0#8 .output false 0#8) :=
  ⟨{ idleE with port := [0x50000100#32], intake := some ⟨true, false, 1, []⟩ }, rfl, rfl, rfl, by decide⟩

theorem test_witness_step_planeInit : ∃ s : State, s.busIn = [] ∧ s.intake = some ⟨true, false, 0, entriesE⟩ :=
  ⟨{ idleE with intake := some ⟨true, false, 0, entriesE⟩ }, rfl, rfl⟩

/-- A write frame, and a read frame with a byte after it. -/
theorem test_witness_step_frame : (∃ s : State, decodeBus s.cfg.opcNibble s.busIn = .frame (.frameWr 3#3 9#5 0x3C#8) []) ∧
    ∃ s : State, decodeBus s.cfg.opcNibble s.busIn = .frame (.frameRd 5#3 9#5) [0x46#8] :=
  ⟨⟨{ readyE with busIn := [0x46#8, 0x09#8, 0x3C#8] }, by decide⟩, { readyE with busIn := [0x4B#8, 0x09#8, 0x46#8] }, by decide⟩

/-- One payload word, and none. -/
theorem test_witness_planeInitRuns :
    ((given [0x01010000#32, 0x50000100#32]).AwaitsCommand ∧ (given [0x01010000#32, 0x50000100#32]).port = [0x01010000#32, 0x50000100#32]) ∧
    decodeWords (0x01010000#32 :: [0x50000100#32]) = some (.planeInit [.pin 0#8 .output false 0#8] false) ∧
    decodeWords (0x01000100#32 :: []) = some (.planeInit [] true) := ⟨given_awaits _, by decide, by decide⟩

theorem test_witness_idleBlock : idleE.AwaitsCommand ∧ idleE.port = [] := ⟨⟨rfl, rfl⟩, rfl⟩

/-- SPI_RECV in PLANE, INJECT in a real-mode plane, PLANE_INIT in READY, SPI_BIND in READY. -/
theorem test_witness_wrongPhase : accepts .spiRecv planeE = false ∧ accepts (.inject 0#8) (real planeE []) = false ∧
    accepts (.planeInit [] true) readyE = false ∧ accepts (.spiBind 0#3 1#3 2#3) readyE = false ∧
    (∀ dev reg data, Instr.spiRecv ≠ .frameWr dev reg data) ∧ ∀ dev reg, Instr.spiRecv ≠ .frameRd dev reg :=
  ⟨by decide, by decide, by decide, by decide, nofun, nofun⟩

/-- A response of every status but REFUSED_ENC. -/
theorem test_witness_responses : (∃ t, exec (.setPin 0#3 true) planeE = .next t ∧ t.responses.getLast?.map Response.word = some 0x0000#16) ∧
    (∃ t, exec (.planeInit [] true) idleE = .next t ∧ t.responses.getLast?.map Response.word = some 0x1001#16) ∧
    (∃ t, exec (.planeInit entriesE false) (real idleE [.fail, .fail, .fail]) = .next t ∧
      t.responses.getLast?.map Response.word = some 0x2001#16) ∧
    (∃ t, exec (.setPins true) (real planeE [.fail, .ok 0]) = .next t ∧ t.responses.getLast?.map Response.word = some 0x2101#16) ∧
    (∃ t, exec (.regRead 0#3 0#8) (real readyE ([.ok 18, .ok 17, .fail, .ok 0])) = .next t ∧
      t.responses.getLast?.map Response.word = some 0x2202#16) ∧
    (∃ t, exec .close idleE = .next t ∧ t.responses.getLast?.map Response.word = some 0x3000#16) ∧
    (∃ t, exec (.setPin 7#3 true) planeE = .next t ∧ t.responses.getLast?.map Response.word = some 0x3207#16) :=
  ⟨next_of_answer (by decide), next_of_answer (by decide), next_of_answer (by decide), next_of_answer (by decide),
    next_of_answer (by decide), next_of_answer (by decide), next_of_answer (by decide)⟩

/-- Each kind of fatal error. -/
theorem test_witness_fatal : (∃ t, exec (.setPins true) (real planeE [.fail, .ok 0]) = .next t ∧ t.responses.getLast?.map Response.word = some 0x2101#16) ∧
    (∃ t, exec (.regRead 0#3 0#8) (real readyE ([.ok 18, .ok 17, .fail, .ok 0])) = .next t ∧
      t.responses.getLast?.map Response.word = some 0x2202#16) ∧
    (∃ t, exec (.spiBind 0#3 0#3 2#3) planeE = .next t ∧ t.responses.getLast?.map Response.word = some 0x1007#16) ∧
    (∃ t, exec (.planeInit entriesE false) (real idleE [.ok 0, .fail, .ok 0]) = .next t ∧
      t.responses.getLast?.map Response.word = some 0x2002#16) :=
  ⟨next_of_answer (by decide), next_of_answer (by decide), next_of_answer (by decide), next_of_answer (by decide)⟩

/-- An output, an input and an absent slot. -/
theorem test_witness_masks : (∃ p, planeE.slot 0#3 = some p ∧ p.dir = .output) ∧ (∃ p, planeE.slot 2#3 = some p ∧ p.dir = .input) ∧
    planeE.slot 7#3 = none := ⟨⟨_, rfl, rfl⟩, ⟨_, rfl, rfl⟩, by decide⟩

/-- Refused in IDLE; an absent slot; a present one. -/
theorem test_witness_setPin : idleE.phase = .idle ∧ planeE.phase ≠ .idle ∧ planeE.slot 7#3 = none ∧
    planeE.slot 0#3 = some ⟨.output, false, 0#8⟩ := by decide

theorem test_witness_getPin : idleE.phase = .idle ∧ planeE.phase ≠ .idle ∧ planeE.slot 7#3 = none ∧ planeE.slot 4#3 = some ⟨.output, true, 0#8⟩ := by decide

/-- One below the bound, with `MAX_PACKET` 2. -/
theorem test_witness_pushBelow : ∃ s : State, s.phase ≠ .idle ∧ s.txbuf.length + 1 < s.cfg.maxPacket ∧ s.txbuf.length + 2 = s.cfg.maxPacket :=
  ⟨{ planeE with cfg := { cfgE with maxPacketPred := 1 } }, by decide, by decide, by decide⟩

/-- A forced flush; a push that just fills the buffer. -/
theorem test_witness_flushingPush : (planeE.phase ≠ .idle ∧ planeE.sim = true ∧ (true = true ∨ planeE.cfg.maxPacket ≤ planeE.txbuf.length + 1)) ∧
    ∃ s : State, s.phase ≠ .idle ∧ s.sim = true ∧ s.cfg.maxPacket = s.txbuf.length + 1 :=
  ⟨by decide, { planeE with cfg := { cfgE with maxPacketPred := 0 } }, by decide, rfl, rfl⟩

/-- A short write, with count 0, a full one, and an answer above the length (log 6). -/
theorem test_witness_shortWrite : (real planeE [.ok 0]).phase ≠ .idle ∧ (real planeE [.ok 0]).sim = false ∧
    (real planeE [.ok 0]).answerAt 0 = .ok 0 ∧ 0 < (real planeE [.ok 0]).txbuf.length + 1 ∧
    (real planeE [.ok 1]).answerAt 0 = .ok 1 ∧ ¬ 1 < (real planeE [.ok 1]).txbuf.length + 1 ∧
    (real planeE [.ok 9]).answerAt 0 = .ok 9 := by decide

theorem test_witness_failedWrite : (real planeE [.fail]).phase ≠ .idle ∧ (real planeE [.fail]).sim = false ∧
    (real planeE [.fail]).answerAt 0 = .fail := by decide

/-- In simulation mode and in real mode, with and without a pending byte. -/
theorem test_witness_getPins : planeE.phase ≠ .idle ∧ planeE.linkGood 2 ∧ planeE.txbuf = [] ∧
    (real { planeE with txbuf := [0#8] } [.ok 1, .ok 1]).linkGood 2 := ⟨by decide, .inl rfl, rfl, linkGood_real _ 2⟩

theorem test_witness_failedRead : (real planeE [.fail]).phase ≠ .idle ∧ (real planeE [.fail]).sim = false ∧
    (real planeE [.fail]).txbuf = [] ∧ (real planeE [.fail]).answerAt 0 = .fail := by decide

theorem test_witness_simulatedRead : planeE.phase ≠ .idle ∧ planeE.sim = true ∧ planeE.cfg.simSource = .inject ∧ planeE.txbuf = [] ∧
    planeE.slot 2#3 = some ⟨.input, false, 0#8⟩ := by decide

theorem test_witness_inject : (planeE.phase ≠ .idle ∧ planeE.sim = true) ∧ idleE.phase = .idle ∧ (real planeE []).sim = false := by decide

theorem test_witness_close : readyE.phase ≠ .idle ∧ idleE.phase = .idle := by decide

/-- An empty and a longer fault-free beginning; the lowest index out of range; an index twice. -/
theorem test_witness_planeInitFaults : idleE.phase = .idle ∧ EntriesOk [] ∧ EntriesOk entriesE ∧ 7 < (8#8).toNat ∧
    some 4#8 ∈ entriesE.map Entry.index? := ⟨rfl, ⟨nofun, by decide⟩, entriesOkE, by decide, by decide⟩

theorem test_witness_planeInit_sim : idleE.phase = .idle ∧ entriesE ≠ [] ∧ EntriesOk entriesE ∧ EntriesOk [.pin 7#8 .input false 0#8] :=
  ⟨rfl, by decide, entriesOkE, entriesOk_seven⟩

/-- No retry, and the last attempt of the budget; the WRITE answered 1, 0, and above its length (log 6). -/
theorem test_witness_planeInit_retries : idleE.phase = .idle ∧ entriesE ≠ [] ∧ EntriesOk entriesE ∧ 0 < idleE.cfg.openAttempts ∧
    2 < idleE.cfg.openAttempts ∧ ¬ 3 < idleE.cfg.openAttempts ∧
    (real idleE [.fail, .fail, .ok 0, .ok 0, .ok 0, .ok 0, .ok 1]).answers =
      List.replicate 2 Answer.fail ++ (.ok 0 :: .ok 0 :: .ok 0 :: .ok 0 :: .ok 1 :: []) ∧
    (real idleE [.ok 0, .ok 0, .ok 0, .ok 0, .ok 0]).answers =
      List.replicate 0 Answer.fail ++ (.ok 0 :: .ok 0 :: .ok 0 :: .ok 0 :: .ok 0 :: []) ∧
    (real idleE [.ok 0, .ok 0, .ok 0, .ok 0, .ok 9]).answers =
      List.replicate 0 Answer.fail ++ (.ok 0 :: .ok 0 :: .ok 0 :: .ok 0 :: .ok 9 :: []) :=
  ⟨rfl, by decide, entriesOkE, by decide, by decide, by decide, rfl, rfl, rfl⟩

theorem test_witness_openBudget : idleE.phase = .idle ∧ entriesE ≠ [] ∧ EntriesOk entriesE ∧
    (real idleE [.fail, .fail, .fail]).answers = List.replicate idleE.cfg.openAttempts Answer.fail ++ [] :=
  ⟨rfl, by decide, entriesOkE, rfl⟩

theorem test_witness_bringUp : (real idleE []).phase = .idle ∧ entriesE ≠ [] ∧ EntriesOk entriesE ∧
    (real idleE [.ok 0, .fail]).answers = .ok 0 :: .fail :: [] ∧
    (real idleE [.ok 0, .ok 0, .fail]).answers = .ok 0 :: .ok 0 :: .fail :: [] ∧
    (real idleE [.ok 0, .ok 0, .ok 0, .fail]).answers = .ok 0 :: .ok 0 :: .ok 0 :: .fail :: [] ∧
    (real idleE [.ok 0, .ok 0, .ok 0, .ok 0, .fail]).answers = .ok 0 :: .ok 0 :: .ok 0 :: .ok 0 :: .fail :: [] :=
  ⟨rfl, by decide, entriesOkE, rfl, rfl, rfl, rfl⟩

theorem test_witness_payloadEntry : State.intake { idleE with intake := some ⟨true, false, 1, []⟩ } = some ⟨true, false, 1, []⟩ ∧
    (⟨true, false, 1, []⟩ : Intake).need = 0 + 1 ∧ idleE.intake = none := by decide

/-- In PLANE and in SPI; pins that are not distinct, of the wrong direction, absent; the two phases that refuse. -/
theorem test_witness_spiBind : planeE.phase = .plane ∧ planeE.SpiPinsOk ⟨0#3, 1#3, 2#3⟩ ∧ spiE.phase = .spi ∧
    ¬ planeE.SpiPinsOk ⟨0#3, 0#3, 2#3⟩ ∧ ¬ planeE.SpiPinsOk ⟨0#3, 1#3, 3#3⟩ ∧ ¬ planeE.SpiPinsOk ⟨0#3, 1#3, 7#3⟩ ∧
    idleE.phase = .idle ∧ readyE.phase = .ready :=
  ⟨rfl, spiOkE rfl, rfl, fun h => absurd h.clk_mosi (by decide), fun h => absurd h.miso (by decide), fun h => absurd h.miso (by decide),
    rfl, rfl⟩

/-- In both phases, in simulation mode and in real mode, with RST high. -/
theorem test_witness_spiSend : (spiE.phase = .spi ∧ spiE.spi = some spiPinsE ∧ spiE.SpiPinsOk spiPinsE ∧ spiE.linkGood 18) ∧
    readyE.phase = .ready ∧ readyE.spi = some spiPinsE ∧ (real spiE (List.replicate 18 (.ok 1))).linkGood 18 ∧
    ∀ r, readyE.reg = some r → readyE.RegPinsOk spiPinsE r ∧ readyE.level r.rst = true :=
  ⟨⟨rfl, rfl, spiOkE rfl, .inl rfl⟩, rfl, rfl, linkGood_real _ 18, fun r h => by cases h; exact ⟨regOkE rfl, by decide⟩⟩

/-- With all states in one packet exactly (`MAX_PACKET` 17, nothing pending), and with `MAX_PACKET` 1. -/
theorem test_witness_spiSendCount : ∃ s1 s2 : State, s1.phase = .spi ∧ s1.spi = some spiPinsE ∧ s1.SpiPinsOk spiPinsE ∧ s1.linkGood 18 ∧
    s1.txbuf.length < s1.cfg.maxPacket ∧ s1.txbuf.length + (if s1.level spiPinsE.clk then 18 else 17) = s1.cfg.maxPacket ∧
    s2.SpiPinsOk spiPinsE ∧ s2.txbuf.length < s2.cfg.maxPacket ∧ s2.cfg.maxPacket = 1 :=
  ⟨{ spiE with cfg := { cfgE with maxPacketPred := 16 } }, { spiE with cfg := { cfgE with maxPacketPred := 0 } }, rfl, rfl, spiOkE rfl,
    .inl rfl, by decide, by decide, spiOkE rfl, by decide, rfl⟩

theorem test_witness_spiRecv : spiE.phase = .spi ∧ spiE.spi = some spiPinsE ∧ spiE.SpiPinsOk spiPinsE ∧ spiE.linkGood 33 ∧
    (real spiE (List.replicate 33 (.ok 1))).linkGood 33 ∧ ∀ r, readyE.reg = some r → readyE.RegPinsOk spiPinsE r ∧ readyE.level r.rst = true :=
  ⟨rfl, rfl, spiOkE rfl, .inl rfl, linkGood_real _ 33, fun r h => by cases h; exact ⟨regOkE rfl, by decide⟩⟩

theorem test_witness_spiRecvTransactions : spiE.phase = .spi ∧ spiE.spi = some spiPinsE ∧ spiE.SpiPinsOk spiPinsE ∧ spiE.sim = true :=
  ⟨rfl, rfl, spiOkE rfl, rfl⟩

theorem test_witness_loopBack : ∃ s : State, s.phase = .spi ∧ s.spi = some spiPinsE ∧ s.SpiPinsOk spiPinsE ∧ s.sim = true ∧
    s.cfg.simSource = .loopBack spiPinsE.clk spiPinsE.mosi spiPinsE.miso :=
  ⟨{ spiE with cfg := { cfgE with simSource := .loopBack 0#3 1#3 2#3 } }, rfl, rfl, spiOkE rfl, rfl, rfl⟩

/-- In PLANE, and again in READY (V-REG-7). -/
theorem test_witness_regBind : planeE.phase ≠ .idle ∧ planeE.SpiPinsOk spiPinsE ∧ planeE.RegPinsOk spiPinsE regPinsE ∧ planeE.linkGood 58 ∧
    readyE.phase ≠ .idle ∧ (real planeE (List.replicate 58 (.ok 1))).linkGood 58 :=
  ⟨by decide, spiOkE rfl, regOkE rfl, .inl rfl, by decide, linkGood_real _ 58⟩

/-- Each check of 42 R182 the first to fail: pins not distinct, CS absent, CS an input, RST absent, RST an input, MISO absent. -/
theorem test_witness_regBind_badPins : planeE.phase ≠ .idle ∧ ¬ [0#3, 1#3, 2#3, 3#3, 3#3].Nodup ∧
    planeE.slot 5#3 = none ∧ planeE.hasDir 2#3 .output = false ∧ planeE.checkSpiPins ⟨0#3, 1#3, 5#3⟩ = some .missing ∧
    [0#3, 1#3, 5#3, 3#3, 4#3].Nodup ∧ planeE.slot 3#3 ≠ none ∧ planeE.hasDir 3#3 .output = true ∧ planeE.slot 4#3 ≠ none ∧
    planeE.hasDir 4#3 .output = true := by decide

theorem test_witness_regWrite : readyE.phase = .ready ∧ readyE.spi = some spiPinsE ∧ readyE.reg = some regPinsE ∧
    readyE.SpiPinsOk spiPinsE ∧ readyE.RegPinsOk spiPinsE regPinsE ∧ readyE.linkGood 56 ∧ readyE.level regPinsE.rst = true ∧
    (real readyE (List.replicate 56 (.ok 1))).linkGood 56 :=
  ⟨rfl, rfl, rfl, spiOkE rfl, regOkE rfl, .inl rfl, by decide, linkGood_real _ 56⟩

theorem test_witness_regRead : readyE.phase = .ready ∧ readyE.spi = some spiPinsE ∧ readyE.reg = some regPinsE ∧
    readyE.SpiPinsOk spiPinsE ∧ readyE.RegPinsOk spiPinsE regPinsE ∧ readyE.linkGood 71 ∧
    (real readyE (List.replicate 71 (.ok 1))).linkGood 71 :=
  ⟨rfl, rfl, rfl, spiOkE rfl, regOkE rfl, .inl rfl, linkGood_real _ 71⟩

theorem test_witness_frames : readyE.phase = .ready ∧ readyE.spi = some spiPinsE ∧ readyE.reg = some regPinsE ∧
    readyE.SpiPinsOk spiPinsE ∧ readyE.RegPinsOk spiPinsE regPinsE ∧ readyE.linkGood 56 ∧ readyE.linkGood 71 ∧
    readyE.level regPinsE.rst = true := ⟨rfl, rfl, rfl, spiOkE rfl, regOkE rfl, .inl rfl, .inl rfl, by decide⟩

/-- With `MAX_PACKET` exactly 18; the broadcast address without the ghost, and the ghost with any device. -/
theorem test_witness_writeCounts : ∃ s : State, s.phase = .ready ∧ s.spi = some spiPinsE ∧ s.reg = some regPinsE ∧ s.SpiPinsOk spiPinsE ∧
    s.RegPinsOk spiPinsE regPinsE ∧ s.sim = true ∧ s.txbuf = [] ∧ s.level spiPinsE.clk = false ∧ s.cfg.maxPacket = 18 ∧
    (7#3 = 0#3 ∨ s.haenOk = true) :=
  ⟨{ readyE with cfg := { cfgE with maxPacketPred := 17 } }, rfl, rfl, rfl, spiOkE rfl, regOkE rfl, rfl, rfl, by decide, by decide, .inr rfl⟩

/-- With the ghost and without it. -/
theorem test_witness_orderViolation : readyE.phase = .ready ∧ readyE.haenOk = true ∧
    State.phase { readyE with haenOk := false } = .ready ∧ (1#3 ≠ 0#3 ∧ State.haenOk { readyE with haenOk := false } = false) := by decide

/-- Two devices; a plain register, and the control register with the HAEN bit set. -/
theorem test_witness_roundTrip : ∃ s : State, s.phase ≠ .idle ∧ s.SpiPinsOk spiPinsE ∧ s.RegPinsOk spiPinsE regPinsE ∧ s.sim = true ∧
    s.cfg.simSource = .expanders 0#3 1#3 2#3 3#3 4#3 [3#3, 5#3] ∧ 5#3 ∈ [3#3, 5#3] ∧
    regByte 0x09#8 ≠ s.cfg.ctrlReg.zeroExtend 8 ∧ regByte 0x05#8 = s.cfg.ctrlReg.zeroExtend 8 ∧ 0x08#8 &&& s.cfg.haenMask ≠ 0x00#8 :=
  ⟨{ planeE with cfg := { cfgE with simSource := .expanders 0#3 1#3 2#3 3#3 4#3 [3#3, 5#3] } }, by decide, spiOkE rfl, regOkE rfl, rfl, rfl,
    by decide, by decide, by decide, by decide⟩

/-- The register commands, in READY with `MAX_PACKET` exactly 18, and both kinds of device address. -/
theorem test_witness_failedTransfer : ∃ s : State, s.phase = .ready ∧ s.spi = some spiPinsE ∧ s.reg = some regPinsE ∧ s.SpiPinsOk spiPinsE ∧
    s.RegPinsOk spiPinsE regPinsE ∧ s.sim = false ∧ s.txbuf = [] ∧ s.level spiPinsE.clk = false ∧ s.cfg.maxPacket = 18 ∧
    s.answerAt 0 = .fail ∧ (0#3 = 0#3 ∨ s.haenOk = true) ∧ (7#3 = 0#3 ∨ s.haenOk = true) :=
  ⟨real { readyE with cfg := { cfgE with maxPacketPred := 17 } } [.fail], rfl, rfl, rfl, spiOkE rfl, regOkE rfl, rfl, rfl, by decide,
    by decide, by decide, .inl rfl, .inr rfl⟩

/-- The SPI commands, in SPI with `MAX_PACKET` exactly 17. -/
theorem test_witness_failedTransfer_spi : ∃ s : State, s.phase = .spi ∧ s.spi = some spiPinsE ∧ s.SpiPinsOk spiPinsE ∧ s.sim = false ∧
    s.txbuf = [] ∧ s.level spiPinsE.clk = false ∧ s.cfg.maxPacket = 17 ∧ s.answerAt 0 = .fail :=
  ⟨real { spiE with cfg := { cfgE with maxPacketPred := 16 } } [.fail], rfl, rfl, spiOkE rfl, rfl, rfl, by decide, by decide, by decide⟩

/-- REG_BIND in PLANE. -/
theorem test_witness_failedTransfer_regBind : (real planeE [.fail]).phase ≠ .idle ∧ (real planeE [.fail]).SpiPinsOk spiPinsE ∧
    (real planeE [.fail]).RegPinsOk spiPinsE regPinsE ∧ (real planeE [.fail]).sim = false ∧ (real planeE [.fail]).txbuf = [] ∧
    (real planeE [.fail]).answerAt 0 = .fail := ⟨by decide, spiOkE rfl, regOkE rfl, rfl, rfl, by decide⟩

/-- V-ERR-16: the third READ of REG_READ, which is its ninth link call. -/
theorem test_witness_failedLinkCall : (real readyE (List.replicate 8 (.ok 18) ++ [.fail])).Inv ∧
    (real readyE (List.replicate 8 (.ok 18) ++ [.fail])).sim = false ∧
    accepts (.regRead 5#3 0x09#8) (real readyE (List.replicate 8 (.ok 18) ++ [.fail])) = true ∧
    (∀ p, readyE.spi = some p → p.clk = 0#3) ∧ (∀ c mo mi cs rst, Instr.regRead 5#3 0x09#8 ≠ .regBind c mo mi cs rst) ∧
    (readyE.linkCalls 0#3 (.regRead 5#3 0x09#8))[8]? = some .read ∧
    (∀ m, m < 8 → (real readyE (List.replicate 8 (.ok 18) ++ [.fail])).answerAt m ≠ .fail) ∧
    (real readyE (List.replicate 8 (.ok 18) ++ [.fail])).answerAt 8 = .fail :=
  ⟨readyE_inv _ _ _ _, rfl, by decide, fun p h => by cases h; rfl, nofun, by decide, by decide, by decide⟩

/-- The first call of REG_BIND, a WRITE, and its last one. -/
theorem test_witness_failedLinkCall_regBind : (real readyE [.fail]).Inv ∧
    accepts (.regBind 0#3 1#3 2#3 3#3 4#3) (real readyE [.fail]) = true ∧ readyE.SpiPinsOk ⟨0#3, 1#3, 2#3⟩ ∧
    readyE.RegPinsOk ⟨0#3, 1#3, 2#3⟩ ⟨3#3, 4#3⟩ ∧ (readyE.linkCalls 0#3 (.regBind 0#3 1#3 2#3 3#3 4#3))[0]? = some .write ∧
    (real readyE [.fail]).answerAt 0 = .fail ∧ (readyE.linkCalls 0#3 (.regBind 0#3 1#3 2#3 3#3 4#3))[5]? = some .write ∧
    (readyE.linkCalls 0#3 (.regBind 0#3 1#3 2#3 3#3 4#3)).length = 6 :=
  ⟨readyE_inv _ _ _ _, by decide, spiOkE rfl, regOkE rfl, by decide, by decide, by decide, by decide⟩

/-- In simulation mode and in real mode. -/
theorem test_witness_transferCalls : State.Inv { readyE with sim := true, answers := [], port := [], busIn := [] } ∧
    accepts .getPins readyE = true ∧ (∀ p, readyE.spi = some p → p.clk = 0#3) ∧
    (∀ c mo mi cs rst, Instr.getPins ≠ .regBind c mo mi cs rst) ∧ readyE.linkCalls 0#3 .getPins ≠ [] ∧
    readyE.linkGood (readyE.linkCalls 0#3 .getPins).length ∧ (real readyE [.ok 1]).Inv ∧
    (real readyE [.ok 1]).linkGood ((real readyE [.ok 1]).linkCalls 0#3 .getPins).length :=
  ⟨readyE_inv _ _ _ _, by decide, fun p h => by cases h; rfl, nofun, by decide, .inl rfl, readyE_inv _ _ _ _, linkGood_real _ 1⟩

/-- A READY state with the invariant, and a step from it. -/
theorem test_witness_invariant : State.Inv { readyE with port := [0x06000000#32] } ∧ State.HistoryIsTail { readyE with port := [0x06000000#32] } ∧
    ∃ t, step { readyE with port := [0x06000000#32] } = .next t ∧ t.responses.getLast?.map Response.word = some 0x0018#16 := by
  exact ⟨readyE_inv _ _ _ _, rfl, next_of_answer (by decide)⟩

/-- An empty framer, part of a frame, and a frame. -/
theorem test_witness_noStop : (∀ bs, State.Inv { readyE with busIn := bs }) ∧ decodeBus readyE.cfg.opcNibble [] ≠ .foreign ∧
    decodeBus readyE.cfg.opcNibble [0x46#8, 0x09#8] ≠ .foreign ∧ decodeBus readyE.cfg.opcNibble [0x46#8, 0x09#8, 0x3C#8] ≠ .foreign :=
  ⟨fun _ => readyE_inv _ _ _ _, by decide, by decide, by decide⟩

theorem test_witness_traceGrows : ∃ t, step { planeE with port := [0x05010000#32] } = .next t ∧
    t.responses.getLast?.map Response.word = some 0x0000#16 := next_of_answer (by decide)

/-- A transfer that leaves the plane standing. -/
theorem test_witness_shapes : ∃ t, exec (.spiSend 0xA5#8) spiE = .next t ∧ spiE.phase ≠ .idle ∧ t.phase ≠ .idle := by
  have h : look State.phase (exec (.spiSend 0xA5#8) spiE) = some .spi := by decide
  cases ho : exec (.spiSend 0xA5#8) spiE with
  | next t =>
    rw [ho] at h
    exact ⟨t, rfl, by decide, fun h' => by simp [look, h'] at h⟩
  | fault r => rw [ho] at h; cases h
  | refused r => rw [ho] at h; cases h

/-- An instruction that keeps the control state, one that ends at power-on, and the two that bind. -/
theorem test_witness_controlState : (∃ t, exec .getPins readyE = .next t ∧ t.responses.getLast?.map Response.word = some 0x0018#16) ∧
    (∃ t, exec .close readyE = .next t ∧ t.responses.getLast?.map Response.word = some 0x0000#16) ∧
    (∃ t, exec (.spiBind 0#3 1#3 2#3) planeE = .next t ∧ t.responses.getLast?.map Response.word = some 0x0000#16) ∧
    (∃ t, exec (.regBind 0#3 1#3 2#3 3#3 4#3) planeE = .next t ∧ t.responses.getLast?.map Response.word = some 0x0000#16) ∧
    (∀ es sim, Instr.getPins ≠ .planeInit es sim) ∧ (∀ c mo mi, Instr.getPins ≠ .spiBind c mo mi) ∧
    (∀ c mo mi cs rst, Instr.getPins ≠ .regBind c mo mi cs rst) ∧ ∀ v, Instr.getPins ≠ .inject v :=
  ⟨next_of_answer (by decide), next_of_answer (by decide), next_of_answer (by decide), next_of_answer (by decide), nofun, nofun, nofun,
    nofun⟩

/-- Two states with different ghosts and different flags, in simulation mode and in real mode; an instruction and a step. -/
theorem test_witness_ghost :
    readyE.SameButGhost { readyE with haenOk := false, trace := [.orderViolation 3#3, .openLink 0 true, .orderViolation 5#3] } ∧
    (∀ n, readyE.cfg.simSource ≠ .other n) ∧ (real readyE []).sim = false ∧
    (∃ t, exec (.regWrite 3#3 0x29#8 0x3C#8) readyE = .next t ∧ t.responses.getLast?.map Response.word = some 0x0000#16) ∧
    ∃ t, step { readyE with port := [0x06000000#32] } = .next t ∧ t.responses.getLast?.map Response.word = some 0x0018#16 :=
  ⟨⟨rfl, by decide⟩, nofun, rfl, next_of_answer (by decide), next_of_answer (by decide)⟩

end Sys2Proof.Tests
end

section
/-!
The procedures of the block, walked through once: every one is composed of pushes, refreshes, quiet updates and reads of what is not
the ghost (`Composed`), so a fact about these building blocks is a fact about all of them.
-/

namespace Sys2Proof.Machine

/-! ## Two states that differ in the ghost and its flags -/

section SameButGhost

variable {s s' : State}

/-- An update that neither reads nor writes the ghost and the trace keeps the relation. -/
theorem State.SameButGhost.map {f : State → State} (h : s.SameButGhost s')
    (hf : ∀ (u : State) b tr, f { u with haenOk := b, trace := tr } = { f u with haenOk := b, trace := tr }) :
    (f s).SameButGhost (f s') := by
  have htr : ∀ u : State, (f u).trace = u.trace := fun u => (congrArg State.trace (hf u u.haenOk u.trace) :)
  have hfs : f s' = { f s with haenOk := s'.haenOk, trace := s'.trace } := (congrArg f h.eq_update).trans (hf s _ _)
  exact ⟨by rw [hfs], by simpa [htr] using h.trace⟩

theorem State.SameButGhost.phase (h : s.SameButGhost s') : s'.phase = s.phase := by rw [h.eq_update]
theorem State.SameButGhost.sim (h : s.SameButGhost s') : s'.sim = s.sim := by rw [h.eq_update]
theorem State.SameButGhost.pins (h : s.SameButGhost s') : s'.pins = s.pins := by rw [h.eq_update]
theorem State.SameButGhost.txbuf (h : s.SameButGhost s') : s'.txbuf = s.txbuf := by rw [h.eq_update]
theorem State.SameButGhost.spi (h : s.SameButGhost s') : s'.spi = s.spi := by rw [h.eq_update]
theorem State.SameButGhost.reg (h : s.SameButGhost s') : s'.reg = s.reg := by rw [h.eq_update]
theorem State.SameButGhost.inject (h : s.SameButGhost s') : s'.inject = s.inject := by rw [h.eq_update]
theorem State.SameButGhost.cfg (h : s.SameButGhost s') : s'.cfg = s.cfg := by rw [h.eq_update]
theorem State.SameButGhost.port (h : s.SameButGhost s') : s'.port = s.port := by rw [h.eq_update]
theorem State.SameButGhost.intake (h : s.SameButGhost s') : s'.intake = s.intake := by rw [h.eq_update]
theorem State.SameButGhost.busIn (h : s.SameButGhost s') : s'.busIn = s.busIn := by rw [h.eq_update]

theorem State.SameButGhost.slot (h : s.SameButGhost s') (i : PinIx) : s'.slot i = s.slot i := State.slot_congr h.pins i
theorem State.SameButGhost.level (h : s.SameButGhost s') (i : PinIx) : s'.level i = s.level i := State.level_congr (h.slot i)
theorem State.SameButGhost.pinByte (h : s.SameButGhost s') : s'.pinByte = s.pinByte := State.pinByte_congr h.slot

/-- The order check raises a flag or does nothing (42 R191). -/
theorem State.sameButGhost_orderCheck (s : State) (dev : DevAddr) : s.SameButGhost (s.orderCheck dev) := by
  unfold State.orderCheck
  split
  · exact ⟨rfl, by simp [withoutOrderFlags_append, withoutOrderFlags]⟩
  · exact .refl s

/-- The ghost's rule for a push writes the ghost or does nothing (10 R32). -/
theorem State.sameButGhost_noteReset (s : State) (b : Byte) : s.SameButGhost (s.noteReset b) := by
  unfold State.noteReset
  split
  · split
    · exact .refl s
    · exact ⟨rfl, rfl⟩
  · exact .refl s

theorem State.SameButGhost.orderCheck (h : s.SameButGhost s') (dev : DevAddr) :
    (s.orderCheck dev).SameButGhost (s'.orderCheck dev) :=
  ((s.sameButGhost_orderCheck dev).symm.trans h).trans (s'.sameButGhost_orderCheck dev)

theorem State.SameButGhost.noteReset (h : s.SameButGhost s') (b : Byte) : (s.noteReset b).SameButGhost (s'.noteReset b) :=
  ((s.sameButGhost_noteReset b).symm.trans h).trans (s'.sameButGhost_noteReset b)

theorem State.SameButGhost.noteShortWrite (h : s.SameButGhost s') (n len : Nat) :
    (s.noteShortWrite n len).SameButGhost (s'.noteShortWrite n len) := by
  unfold State.noteShortWrite
  split
  · exact h.record _
  · exact h

theorem State.SameButGhost.buffer (h : s.SameButGhost s') : s.buffer.SameButGhost s'.buffer := by
  unfold State.buffer
  rw [h.pinByte]
  exact (h.map (f := fun u => { u with txbuf := u.txbuf ++ [s.pinByte] }) fun _ _ _ => rfl).noteReset _

/-- Two answered calls: the same answer, and states equal but for the ghost and its flags. -/
def AnsweredAlike {α : Type} (r r' : α × State) : Prop := ∃ a t t', r = (a, t) ∧ r' = (a, t') ∧ t.SameButGhost t'

theorem State.SameButGhost.takeAnswer (h : s.SameButGhost s') (a : Answer) : AnsweredAlike (s.takeAnswer a) (s'.takeAnswer a) := by
  unfold State.takeAnswer
  rw [h.sim]
  split
  · exact ⟨_, _, _, rfl, rfl, h⟩
  · exact ⟨_, _, _, rfl, by rw [h.eq_update]; rfl, h.map (f := State.drawn) fun _ _ _ => rfl⟩

theorem State.SameButGhost.linkCall (h : s.SameButGhost s') (event : Bool → Event) :
    AnsweredAlike (linkCall event s) (linkCall event s') := by
  obtain ⟨a, t, t', e, e', ht⟩ := h.takeAnswer (.ok 0)
  simp only [Machine.linkCall, e, e']
  cases a <;> exact ⟨_, _, _, rfl, rfl, ht.record _⟩

theorem State.SameButGhost.linkWrite (h : s.SameButGhost s') (bytes : List Byte) :
    AnsweredAlike (linkWrite bytes s) (linkWrite bytes s') := by
  obtain ⟨a, t, t', e, e', ht⟩ := h.takeAnswer (.ok bytes.length)
  simp only [Machine.linkWrite, e, e']
  cases a <;> exact ⟨_, _, _, rfl, rfl, ht.record _⟩

/-- No READ of the state looks at the flags: real mode, or a named `sim_source` (20 R66). -/
def State.Blind (s : State) : Prop := s.sim = false ∨ ∀ n, s.cfg.simSource ≠ .other n

theorem State.Blind.congr (h : s.Blind) (hsim : s'.sim = s.sim) (hcfg : s'.cfg = s.cfg) : s'.Blind := by
  simpa [State.Blind, hsim, hcfg] using h

/-- The answer to a READ does not depend on the flags. -/
theorem State.SameButGhost.takeAnswer_read (h : s.SameButGhost s') (hb : s.Blind) :
    s'.takeAnswer (.ok (simRead s'.cfg s'.inject s'.trace).toNat) =
      s'.takeAnswer (.ok (simRead s.cfg s.inject s.trace).toNat) := by
  rcases hb with hreal | hnamed
  · simp [State.takeAnswer, h.sim, hreal]
  · rw [h.cfg, h.inject, simRead_congr hnamed s.inject h.trace]

theorem State.SameButGhost.linkRead (h : s.SameButGhost s') (hb : s.Blind) : AnsweredAlike (linkRead s) (linkRead s') := by
  obtain ⟨a, t, t', e, e', ht⟩ := h.takeAnswer (.ok (simRead s.cfg s.inject s.trace).toNat)
  simp only [Machine.linkRead, h.takeAnswer_read hb, e, e']
  cases a <;> exact ⟨_, _, _, rfl, rfl, ht.record _⟩

end SameButGhost

/-! ## The end of a run -/

/-- The state a run ends in, finished or failed. -/
def Run.state {α : Type} : Run α → State
  | .done _ s => s
  | .failed _ s => s

/-- Two runs that end alike, in states equal but for the ghost and its flags. -/
inductive Run.SameButGhost {α : Type} : Run α → Run α → Prop
  | done (a : α) {s s' : State} : s.SameButGhost s' → Run.SameButGhost (.done a s) (.done a s')
  | failed (k : LinkOp) {s s' : State} : s.SameButGhost s' → Run.SameButGhost (.failed k s) (.failed k s')

theorem Run.SameButGhost.andThen {α β : Type} {r r' : Run α} {f : α → State → Run β} (h : r.SameButGhost r')
    (hb : r.state.Blind) (hf : ∀ a s s', s.SameButGhost s' → s.Blind → (f a s).SameButGhost (f a s')) :
    (r.andThen f).SameButGhost (r'.andThen f) := by
  cases h with
  | done a hs => exact hf a _ _ hs hb
  | failed k hs => exact .failed k hs

/-! ## What procedures are composed of -/

/-- An update that every procedure may make: it stays within `Evolves` and the bounds, and it does not tell states apart that are
equal but for the ghost and its flags. -/
structure Quiet (g : State → State) : Prop where
  evolves : ∀ s : State, s.Evolves (g s)
  bounded : ∀ s : State, s.Bounded → (g s).Bounded
  ghost   : ∀ s s' : State, s.SameButGhost s' → (g s).SameButGhost (g s')

/-- Procedures built from pushes, refreshes, quiet updates and reads of what is not the ghost. -/
inductive Composed : {α : Type} → (State → Run α) → Prop
  | done {α : Type} (a : α) : Composed (Run.done a)
  | push (force : Bool) : Composed (pushState force)
  | refresh : Composed refresh
  | after {α : Type} {g : State → State} {f : State → Run α} : Quiet g → Composed f → Composed fun s => f (g s)
  | reads {α β : Type} (view : State → β) {f : β → State → Run α} :
      (∀ s s' : State, s.SameButGhost s' → view s' = view s) → (∀ b, Composed (f b)) → Composed fun s => f (view s) s
  | andThen {α β : Type} {f : State → Run α} {g : α → State → Run β} : Composed f → (∀ a, Composed (g a)) →
      Composed fun s => (f s).andThen g

theorem flush_evolves (s : State) : s.Evolves (flush s).state := by
  rcases flush_cases s with h | ⟨n, -, h⟩ <;> rw [h]
  · exact s.evolves_failedWrite _ _
  · exact s.evolves_afterFlush n

theorem pushState_evolves (force : Bool) (s : State) : s.Evolves (pushState force s).state := by
  unfold pushState
  split
  · exact s.evolves_buffer.trans (flush_evolves _)
  · exact s.evolves_buffer

theorem Run.evolves_andThen {α β : Type} {s : State} {r : Run α} {f : α → State → Run β} (hr : s.Evolves r.state)
    (hf : ∀ (a : α) (t : State), t.Evolves (f a t).state) : s.Evolves (r.andThen f).state := by
  cases r with
  | done a t => exact hr.trans (hf a t)
  | failed k t => exact hr

/-- The flush that a refresh begins with (40 R125). -/
theorem flushPending_evolves (s : State) : s.Evolves (if s.txbuf = [] then Run.done () s else flush s).state := by
  split
  · exact .refl s
  · exact flush_evolves s

theorem refresh_evolves (s : State) : s.Evolves (refresh s).state := by
  refine Run.evolves_andThen (flushPending_evolves s) fun _ (t : State) => ?_
  rcases linkRead_cases t with h | ⟨b, h⟩ <;> rw [h]
  · exact (t.evolves_takeAnswer _).trans (State.evolves_record _ rfl rfl)
  · exact ((t.evolves_takeAnswer _).trans (State.evolves_record _ rfl rfl)).trans (State.evolves_takeSnapshot _ _)

/-- A procedure changes nothing but what `Evolves` allows, in any state and whatever the link answers. -/
theorem Composed.evolves {α : Type} {f : State → Run α} (h : Composed f) (s : State) : s.Evolves (f s).state := by
  induction h generalizing s with
  | done a => exact .refl s
  | push force => exact pushState_evolves force s
  | refresh => exact refresh_evolves s
  | after hg _ ih => exact (hg.evolves s).trans (ih _)
  | reads view _ _ ih => exact ih (view s) s
  | andThen _ _ ihf ihg => exact Run.evolves_andThen (ihf s) fun a t => ihg a t

/-- A procedure that starts within the bounds keeps them (10 R27, R40). -/
theorem Composed.safe {α : Type} {f : State → Run α} (h : Composed f) {s : State} (hs : s.Bounded) : (f s).Safe s := by
  induction h generalizing s with
  | done a => exact Run.safe_done a hs
  | push force => exact pushState_safe force hs
  | refresh => exact refresh_safe hs
  | after hg _ ih => exact (ih (hg.bounded s hs)).of_evolves (hg.evolves s)
  | reads view _ _ ih => exact ih (view s) hs
  | andThen _ _ ihf ihg => exact (ihf hs).andThen fun a _ ht => ihg a ht

theorem State.SameButGhost.flush {s s' : State} (h : s.SameButGhost s') : (flush s).SameButGhost (flush s') := by
  obtain ⟨a, t, t', e, e', hs⟩ := h.linkWrite s.txbuf
  unfold Machine.flush
  rw [h.txbuf, e, e']
  cases a with
  | none => exact .failed _ hs
  | some n =>
    exact .done _ (((hs.map (f := (·.appendHistory s.txbuf)) fun _ _ _ => rfl).noteShortWrite _ _).map
      (f := fun u => { u with txbuf := [] }) fun _ _ _ => rfl)

theorem State.SameButGhost.pushState {s s' : State} (h : s.SameButGhost s') (force : Bool) :
    (pushState force s).SameButGhost (pushState force s') := by
  unfold Machine.pushState
  rw [h.cfg, h.buffer.txbuf]
  split
  · exact h.buffer.flush
  · exact .done _ h.buffer

theorem State.SameButGhost.refresh {s s' : State} (h : s.SameButGhost s') (hb : s.Blind) :
    (refresh s).SameButGhost (refresh s') := by
  have he := flushPending_evolves s
  refine Run.SameButGhost.andThen ?_ (hb.congr he.sim he.cfg) fun _ t t' ht htb => ?_
  · rw [h.txbuf]
    split
    · exact .done _ h
    · exact h.flush
  · obtain ⟨a, u, u', e, e', hs⟩ := ht.linkRead htb
    rw [e, e']
    cases a with
    | none => exact .failed _ hs
    | some b => exact .done _ (hs.map (f := (·.takeSnapshot b)) fun _ _ _ => rfl)

/-- No procedure depends on the ghost (10 R32). -/
theorem Composed.ghost {α : Type} {f : State → Run α} (h : Composed f) {s s' : State} (hs : s.SameButGhost s') (hb : s.Blind) :
    (f s).SameButGhost (f s') := by
  induction h generalizing s s' with
  | done a => exact .done a hs
  | push force => exact hs.pushState force
  | refresh => exact hs.refresh hb
  | after hg _ ih => exact ih (hg.ghost _ _ hs) (hb.congr (hg.evolves s).sim (hg.evolves s).cfg)
  | reads view hview _ ih =>
    beta_reduce
    rw [hview _ _ hs]
    exact ih _ hs hb
  | andThen hf _ ihf ihg =>
    exact (ihf hs hb).andThen (hb.congr (hf.evolves s).sim (hf.evolves s).cfg) fun a _ _ ht htb => ihg a ht htb

/-! ## The procedures -/

theorem quiet_setValue (i : PinIx) (b : Bool) : Quiet (·.setValue i b) :=
  ⟨fun s => s.evolves_setValue i b, fun _ h => h.setValue i b, fun _ _ h => h.map (f := (·.setValue i b)) fun _ _ _ => rfl⟩

theorem quiet_clkNotIdle : Quiet (·.record .clkNotIdle) :=
  ⟨fun s => s.evolves_record rfl rfl, fun _ h => ⟨h.txbuf, h.writes.record rfl⟩, fun _ _ h => h.record _⟩

theorem quiet_orderCheck (dev : DevAddr) : Quiet (·.orderCheck dev) where
  evolves s := s.evolves_orderCheck dev
  bounded s h := ⟨by simpa using h.txbuf, by
    unfold State.orderCheck
    split
    · exact h.writes.record rfl
    · exact h.writes⟩
  ghost _ _ h := h.orderCheck dev

/-- A push after a pin write. -/
theorem composed_pushValue (force : Bool) (i : PinIx) (b : Bool) : Composed fun s => pushState force (s.setValue i b) :=
  .after (quiet_setValue i b) (.push force)

/-- A push after two pin writes. -/
theorem composed_pushValues (force : Bool) (i j : PinIx) (b c : Bool) :
    Composed fun s => pushState force ((s.setValue i b).setValue j c) :=
  .after (f := fun s => pushState force (s.setValue j c)) (quiet_setValue i b) (composed_pushValue force j c)

/-- A procedure that may read the parameters. -/
theorem Composed.readsCfg {α : Type} {f : Params → State → Run α} (h : ∀ c, Composed (f c)) : Composed fun s => f s.cfg s :=
  .reads State.cfg (fun _ _ h => h.cfg) h

/-- A procedure that may read the level of a pin. -/
theorem Composed.readsLevel {α : Type} (i : PinIx) {f : Bool → State → Run α} (h : ∀ b, Composed (f b)) :
    Composed fun s => f (s.level i) s :=
  .reads (·.level i) (fun _ _ h => h.level i) h

theorem composed_clockIdleFix (p : SpiPins) : Composed (clockIdleFix p) :=
  .readsLevel p.clk
    (f := fun high s => if high then pushState false ((s.record .clkNotIdle).setValue p.clk false) else .done () s) fun high =>
    match high with
    | true => .after quiet_clkNotIdle (composed_pushValue false p.clk false)
    | false => .done ()

theorem composed_sendBit (p : SpiPins) (b : Bool) : Composed (sendBit p b) :=
  .andThen (composed_pushValues false p.clk p.mosi false b) fun _ => composed_pushValue false p.clk true

theorem composed_sendBits (p : SpiPins) (bs : List Bool) : Composed (sendBits p bs) := by
  induction bs with
  | nil => exact .done ()
  | cons b bs ih => exact .andThen (composed_sendBit p b) fun _ => ih

theorem composed_spiSend (p : SpiPins) (v : Byte) : Composed (spiSend p v) :=
  .andThen (composed_clockIdleFix p) fun _ => .andThen (composed_sendBits p _) fun _ => composed_pushValue true p.clk false

theorem composed_recvBit (p : SpiPins) (acc : Byte) : Composed (recvBit p acc) :=
  .andThen .refresh fun _ => .readsLevel p.miso
    (f := fun miso t => (pushState true (t.setValue p.clk true)).andThen fun _ u =>
      (pushState true (u.setValue p.clk false)).andThen fun _ w => .done (shiftIn acc miso) w)
    fun _ => .andThen (composed_pushValue true p.clk true) fun _ => .andThen (composed_pushValue true p.clk false) fun _ => .done _

theorem composed_recvBits (p : SpiPins) (k : Nat) (acc : Byte) : Composed (recvBits p k acc) := by
  induction k generalizing acc with
  | zero => exact .done acc
  | succ k ih => exact .andThen (composed_recvBit p acc) ih

theorem composed_spiRecv (p : SpiPins) : Composed (spiRecv p) :=
  .andThen (composed_clockIdleFix p) fun _ => composed_recvBits p 8 _

/-- CS low and an opcode byte, then the rest of the frame. -/
theorem composed_frame {α : Type} (p : SpiPins) (r : RegPins) (dev : DevAddr) (read : Bool) {rest : State → Run α}
    (h : Composed rest) :
    Composed fun s => (csAssert r s).andThen fun _ s1 =>
      (spiSend p (opcode s1.cfg.opcNibble dev read) s1).andThen fun _ s2 => rest s2 :=
  .andThen (composed_pushValue false r.cs false) fun _ =>
    .readsCfg (f := fun c s1 => (spiSend p (opcode c.opcNibble dev read) s1).andThen fun _ s2 => rest s2)
      fun _ => .andThen (composed_spiSend p _) fun _ => h

theorem composed_writeFrame (p : SpiPins) (r : RegPins) (dev : DevAddr) (reg data : Byte) :
    Composed (writeFrame p r dev reg data) :=
  composed_frame p r dev false (.andThen (composed_spiSend p _) fun _ => .andThen (composed_spiSend p _) fun _ =>
    composed_pushValue true r.cs true)

theorem composed_readFrame (p : SpiPins) (r : RegPins) (dev : DevAddr) (reg : Byte) : Composed (readFrame p r dev reg) :=
  composed_frame p r dev true (.andThen (composed_spiSend p _) fun _ => .andThen (composed_spiRecv p) fun v =>
    .andThen (composed_pushValue true r.cs true) fun _ => .done v)

/-- The transfer of REG_BIND: the device reset and the broadcast's frame (42 R184, R185). -/
def bindTransfer (p : SpiPins) (r : RegPins) (s : State) : Run Unit :=
  (deviceReset r s).andThen fun _ t => writeFrame p r 0#3 (t.cfg.ctrlReg.zeroExtend 8) (t.cfg.ctrlDefault ||| t.cfg.haenMask) t

theorem composed_bindTransfer (p : SpiPins) (r : RegPins) : Composed (bindTransfer p r) :=
  .andThen (.andThen (composed_pushValues true r.cs r.rst true false) fun _ => composed_pushValue true r.rst true)
    fun _ => .readsCfg (f := fun c => writeFrame p r 0#3 (c.ctrlReg.zeroExtend 8) (c.ctrlDefault ||| c.haenMask))
      fun _ => composed_writeFrame p r _ _ _

/-- REG_BIND writes the control state before and after its transfer only (42 R182, R185). -/
theorem bindAndBroadcast_eq (p : SpiPins) (r : RegPins) (s : State) :
    bindAndBroadcast p r s =
      (bindTransfer p r { s with spi := some p, reg := some r }).andThen fun _ u =>
        .done 0x00#8 { u with haenOk := true, phase := .ready } := by
  unfold bindAndBroadcast bindTransfer haenBroadcast
  cases deviceReset r { s with spi := some p, reg := some r } with
  | failed k t => rfl
  | done _ t =>
    simp only [Run.andThen]
    cases writeFrame p r 0#3 (t.cfg.ctrlReg.zeroExtend 8) (t.cfg.ctrlDefault ||| t.cfg.haenMask) t <;> rfl

end Sys2Proof.Machine
end

section
/-!
What an instruction and a step can do, said once: `Effect` lists the ways an instruction ends, `State.Took` what the fetch takes. The
statements about every instruction and every step are case analyses of these two.
-/

namespace Sys2Proof.Machine

/-! ## Transfers and what leads up to a teardown -/

/-- A run to its end: what `Evolves` allows, within the bounds. -/
structure State.Transfers (s u : State) : Prop where
  evolves : s.Evolves u
  bounded : s.Bounded → u.Bounded

/-- What is left of a command when it is torn down: the surroundings of the block as they were, a longer trace, legal WRITEs. -/
structure State.Leads (s u : State) : Prop where
  cfg       : u.cfg = s.cfg
  port      : u.port = s.port
  intake    : u.intake = s.intake
  busIn     : u.busIn = s.busIn
  responses : u.responses = s.responses
  trace     : s.trace <+: u.trace
  writes    : s.Bounded → u.WritesLegal

section Transfers

variable {s t u : State}

theorem Quiet.transfers {g : State → State} (hg : Quiet g) (s : State) : s.Transfers (g s) := ⟨hg.evolves s, hg.bounded s⟩

theorem State.Transfers.trans (h1 : s.Transfers t) (h2 : t.Transfers u) : s.Transfers u :=
  ⟨h1.evolves.trans h2.evolves, h2.bounded ∘ h1.bounded⟩

theorem State.Leads.of_evolves (h : s.Evolves u) (hw : s.Bounded → u.WritesLegal) : s.Leads u :=
  ⟨h.cfg, h.port, h.intake, h.busIn, h.responses, h.trace_grows, hw⟩

theorem State.Transfers.leads (h : s.Transfers u) : s.Leads u := .of_evolves h.evolves fun hs => (h.bounded hs).writes

theorem State.Leads.refl (s : State) : s.Leads s := ⟨rfl, rfl, rfl, rfl, rfl, ⟨[], List.append_nil _⟩, State.Bounded.writes⟩

theorem State.Leads.trans (h1 : s.Leads t) (hb : s.Bounded → t.Bounded) (h2 : t.Leads u) : s.Leads u :=
  ⟨h2.cfg.trans h1.cfg, h2.port.trans h1.port, h2.intake.trans h1.intake, h2.busIn.trans h1.busIn,
    h2.responses.trans h1.responses, h1.trace.trans h2.trace, h2.writes ∘ hb⟩

theorem Composed.transfers {α : Type} {f : State → Run α} (h : Composed f) {a : α} (hr : f s = .done a u) : s.Transfers u := by
  have he := h.evolves s
  rw [hr] at he
  refine ⟨he, fun hs => ?_⟩
  have := h.safe hs
  rw [hr] at this
  exact this.2

theorem Composed.leads {α : Type} {f : State → Run α} (h : Composed f) {k : LinkOp} (hr : f s = .failed k u) : s.Leads u := by
  have he := h.evolves s
  rw [hr] at he
  refine .of_evolves he fun hs => ?_
  have := h.safe hs
  rw [hr] at this
  exact this.2

end Transfers

/-! ## The link calls of PLANE_INIT -/

/-- What a link call answered `ok | fail` does (10 R40). -/
theorem linkCall_cases (event : Bool → Event) (s : State) :
    ∃ ok, linkCall event s = (ok, (s.takeAnswer (.ok 0)).2.record (event ok)) := by
  unfold linkCall
  rcases s.takeAnswer (.ok 0) with ⟨_ | n, t⟩
  · exact ⟨false, rfl⟩
  · exact ⟨true, rfl⟩

theorem State.record_transfers {s : State} {e : Event} (hi : Event.inner e = true) (hs : sent [e] = [])
    (hl : ∀ m, Event.legal m e = true) : s.Transfers (s.record e) :=
  ⟨s.evolves_record hi hs, fun h => ⟨h.txbuf, h.writes.record (hl _)⟩⟩

theorem State.takeAnswer_transfers (s : State) (a : Answer) : s.Transfers (s.takeAnswer a).2 :=
  have he := s.evolves_takeAnswer a
  ⟨he, fun h => h.congr (s.takeAnswer_txbuf a) (s.takeAnswer_trace a) he.cfg⟩

theorem linkCall_transfers {event : Bool → Event} (hi : ∀ ok, Event.inner (event ok) = true) (hs : ∀ ok, sent [event ok] = [])
    (hl : ∀ ok m, Event.legal m (event ok) = true) (s : State) : s.Transfers (linkCall event s).2 := by
  obtain ⟨ok, h⟩ := linkCall_cases event s
  rw [h]
  exact (s.takeAnswer_transfers _).trans (State.record_transfers (hi ok) (hs ok) (hl ok))

/-- `ConfigureLink()` stays within a transfer, wherever it ends (40 R115). -/
theorem configureLink_transfers (s : State) : s.Transfers (configureLink s).2 := by
  have h1 : s.Transfers (linkCall .resetLink s).2 := linkCall_transfers (fun _ => rfl) (fun _ => rfl) (fun _ _ => rfl) s
  unfold configureLink
  generalize linkCall .resetLink s = r at h1 ⊢
  obtain ⟨_ | _, t⟩ := r
  · exact h1
  have h2 : t.Transfers (linkCall (.setClock t.cfg.clockRate) t).2 :=
    linkCall_transfers (fun _ => rfl) (fun _ => rfl) (fun _ _ => rfl) t
  dsimp only
  generalize linkCall (.setClock t.cfg.clockRate) t = r at h2 ⊢
  obtain ⟨_ | _, u⟩ := r
  · exact h1.trans h2
  · exact (h1.trans h2).trans (linkCall_transfers (fun _ => rfl) (fun _ => rfl) (fun _ _ => rfl) u)

/-- `t` comes from `s` by open attempts, the last of which was answered `ok`: the link calls alone are new, and the link is open after
them if it was or if `ok` (40 R114). -/
structure State.Dialled (s : State) (ok : Bool) (t : State) : Prop where
  fields : t = { s with trace := t.trace, answers := t.answers, draws := t.draws }
  trace  : ∃ ext, t.trace = s.trace ++ ext ∧ (∀ was, linkOpenFrom was ext = (was || ok)) ∧
    ∀ e ∈ ext, ∀ m, Event.legal m e = true

section Dialled

variable {s t u : State} {ok : Bool}

theorem State.Dialled.trans (h1 : s.Dialled false t) (h2 : t.Dialled ok u) : s.Dialled ok u where
  fields := by rw [h2.fields, h1.fields]
  trace := by
    obtain ⟨e1, t1, o1, l1⟩ := h1.trace
    obtain ⟨e2, t2, o2, l2⟩ := h2.trace
    refine ⟨e1 ++ e2, by rw [t2, t1, List.append_assoc], fun was => ?_, fun e he => ?_⟩
    · rw [linkOpenFrom_append, o1, o2, Bool.or_false]
    · exact (List.mem_append.1 he).elim (l1 e) (l2 e)

/-- One event that opens the link if `ok` and does nothing to it otherwise. -/
theorem State.dialled_record (s : State) {e : Event} (ho : ∀ was, linkOpenFrom was [e] = (was || ok))
    (hl : ∀ m, Event.legal m e = true) : s.Dialled ok (s.record e) :=
  ⟨rfl, [e], rfl, ho, fun x hx => by rw [List.mem_singleton.1 hx]; exact hl⟩

theorem State.dialled_takeAnswer (s : State) (a : Answer) : s.Dialled false (s.takeAnswer a).2 := by
  refine ⟨?_, [], by simp [s.takeAnswer_trace], fun _ => (Bool.or_false _).symm, nofun⟩
  unfold State.takeAnswer
  split <;> rfl

theorem openLink_dialled (n : Nat) (s : State) : s.Dialled (openLink n s).1 (openLink n s).2 := by
  induction n generalizing s with
  | zero => exact ⟨rfl, [], (List.append_nil _).symm, fun _ => (Bool.or_false _).symm, nofun⟩
  | succ n ih =>
    have hcall := s.dialled_takeAnswer (.ok 0)
    obtain ⟨ok, h⟩ := linkCall_cases (.openLink s.cfg.deviceIndex) s
    unfold openLink
    rw [h]
    cases ok with
    | true => exact hcall.trans (State.dialled_record _ (fun was => (Bool.or_true was).symm) fun _ => rfl)
    | false =>
      have hfail := hcall.trans (State.dialled_record _ (e := .openLink s.cfg.deviceIndex false) (ok := false)
        (fun was => (Bool.or_false was).symm) fun _ => rfl)
      dsimp only
      split
      · exact hfail
      · refine (hfail.trans (State.dialled_record _ (e := .delayBackoff _) ?_ fun _ => rfl)).trans (ih _)
        exact fun was => (Bool.or_false was).symm

theorem State.Dialled.cfg (h : s.Dialled ok t) : t.cfg = s.cfg := by rw [h.fields]
theorem State.Dialled.intake (h : s.Dialled ok t) : t.intake = s.intake := by rw [h.fields]

theorem State.Dialled.trace_grows (h : s.Dialled ok t) : s.trace <+: t.trace := by
  obtain ⟨ext, ht, -⟩ := h.trace
  exact ⟨ext, ht.symm⟩

theorem State.Dialled.linkOpen (h : s.Dialled ok t) (was : Bool) :
    linkOpenFrom was t.trace = (linkOpenFrom was s.trace || ok) := by
  obtain ⟨ext, ht, ho, -⟩ := h.trace
  rw [ht, linkOpenFrom_append, ho]

theorem State.Dialled.writes (h : s.Dialled ok t) (hs : s.WritesLegal) : t.WritesLegal := by
  obtain ⟨ext, ht, -, hl⟩ := h.trace
  intro e he
  rw [ht, List.mem_append] at he
  rw [h.cfg]
  exact he.elim (hs e) (hl e · _)

/-- From the state PLANE_INIT starts in to the plane with its link open. -/
theorem State.Dialled.plane_leads {es : List Entry} {sim : Bool} (h : (s.buildArena es sim).Dialled ok t) :
    s.Leads { t with phase := .plane } ∧ (s.Bounded → State.Bounded { t with phase := .plane }) := by
  have hb (hs : s.Bounded) : State.Bounded { t with phase := .plane } :=
    ⟨by rw [h.fields]; exact Nat.succ_pos _, h.writes hs.writes⟩
  refine ⟨⟨h.cfg, ?_, h.intake, ?_, ?_, h.trace_grows, fun hs => (hb hs).writes⟩, hb⟩ <;> rw [h.fields] <;> rfl

end Dialled

/-! ## The checks of the binding commands -/

theorem State.hasDir_of_checkPin {s : State} {i : PinIx} {d : Dir} (h : s.checkPin i d = none) : s.hasDir i d = true := by
  unfold State.checkPin at h
  unfold State.hasDir
  cases hs : s.slot i with
  | none => simp [hs] at h
  | some p => simpa [hs] using h

theorem State.spiPinsOk_of_check {s : State} {p : SpiPins} (h : s.checkSpiPins p = none) : s.SpiPinsOk p := by
  unfold State.checkSpiPins at h
  split at h
  · cases h
  · next hne =>
    obtain ⟨h1, h2, h3⟩ : p.clk ≠ p.mosi ∧ p.clk ≠ p.miso ∧ p.mosi ≠ p.miso := by simpa using hne
    obtain ⟨hclk, hmosi, hmiso⟩ := by simpa [Option.or_eq_none_iff] using h
    exact ⟨h1, h2, h3, State.hasDir_of_checkPin hclk, State.hasDir_of_checkPin hmosi, State.hasDir_of_checkPin hmiso⟩

theorem State.regPinsOk_of_check {s : State} {p : SpiPins} {r : RegPins} (h : s.checkRegPins p r = none) :
    s.SpiPinsOk p ∧ s.RegPinsOk p r := by
  unfold State.checkRegPins at h
  split at h
  · cases h
  · next hnd =>
    obtain ⟨hcs, hrst, hspi⟩ := by simpa only [Option.or_eq_none_iff] using h
    exact ⟨State.spiPinsOk_of_check hspi, ⟨not_not.1 hnd, State.hasDir_of_checkPin hcs, State.hasDir_of_checkPin hrst⟩⟩

/-! ## The commands as procedures -/

theorem composed_setPins (force : Bool) : Composed fun s => (pushState force s).andThen fun _ t => .done 0x00#8 t :=
  .andThen (.push force) fun _ => .done _

theorem composed_getPins : Composed fun s => (refresh s).andThen fun _ t => .done t.pinValues t :=
  .andThen .refresh fun _ =>
    .reads (f := fun v t => .done v t) State.pinValues (fun _ _ h => byteOf_congr h.level) fun v => .done v

theorem composed_spiSendCommand (p : SpiPins) (v : Byte) :
    Composed fun s => (spiSend p v s).andThen fun _ t => .done 0x00#8 t :=
  .andThen (composed_spiSend p v) fun _ => .done _

theorem composed_frameWr (p : SpiPins) (r : RegPins) (dev : DevAddr) (reg data : Byte) :
    Composed fun s => (writeFrame p r dev reg data s).andThen fun _ t => .done 0x00#8 t :=
  .andThen (composed_writeFrame p r dev reg data) fun _ => .done _

theorem composed_regWrite (p : SpiPins) (r : RegPins) (dev : DevAddr) (reg data : Byte) :
    Composed fun s => (writeFrame p r dev reg data (s.orderCheck dev)).andThen fun _ t => .done 0x00#8 t :=
  .after (quiet_orderCheck dev) (composed_frameWr p r dev reg data)

theorem composed_regRead (p : SpiPins) (r : RegPins) (dev : DevAddr) (reg : Byte) :
    Composed fun s => readFrame p r dev reg (s.orderCheck dev) :=
  .after (quiet_orderCheck dev) (composed_readFrame p r dev reg)

/-! ## The effect of an instruction -/

/-- The ways in which an instruction, run in `s`, ends in a next state. -/
inductive Effect (s : State) : Instr → State → Prop
  /-- A response and nothing else: an answer from the state, or a refusal (60 R219). -/
  | answered {i : Instr} (c : Status) (d : Byte) : Effect s i (s.respond c d)
  /-- Pin writes and link activity, then OK. -/
  | transferred {i : Instr} {u : State} (d : Byte) : s.phase ≠ .idle → s.Transfers u → Effect s i (u.respond .ok d)
  /-- CLOSE, or error entry at any point of a command (40 R128, 60 R220). -/
  | tornDown {i : Instr} {u : State} (c : Status) (d : Byte) : s.Leads u → Effect s i (u.closeDown.respond c d)
  /-- INJECT (40 R127). -/
  | injected (v : Byte) : s.phase ≠ .idle → Effect s (.inject v) (State.respond { s with inject := v } .ok 0x00#8)
  /-- SPI_BIND (41 R150). -/
  | spiBound (clk mosi miso : PinIx) : s.phase = .plane ∨ s.phase = .spi → s.SpiPinsOk ⟨clk, mosi, miso⟩ →
      Effect s (.spiBind clk mosi miso) (State.respond { s with spi := some ⟨clk, mosi, miso⟩, phase := .spi } .ok 0x00#8)
  /-- REG_BIND (42 R182 to R185). -/
  | regBound (clk mosi miso cs rst : PinIx) {u : State} : s.phase ≠ .idle → s.SpiPinsOk ⟨clk, mosi, miso⟩ →
      s.RegPinsOk ⟨clk, mosi, miso⟩ ⟨cs, rst⟩ →
      State.Transfers { s with spi := some ⟨clk, mosi, miso⟩, reg := some ⟨cs, rst⟩ } u →
      Effect s (.regBind clk mosi miso cs rst) (State.respond { u with haenOk := true, phase := .ready } .ok 0x00#8)
  /-- PLANE_INIT where no open attempt succeeds (40 R114). -/
  | unopened (es : List Entry) (sim : Bool) {b : State} : s.phase = .idle → (s.buildArena es sim).Dialled false b →
      Effect s (.planeInit es sim) (b.powerOn.respond .fatalIo fatalOpen)
  /-- PLANE_INIT to its end (40 R111). -/
  | built (es : List Entry) (sim : Bool) {b u : State} : s.phase = .idle → (s.buildArena es sim).Dialled true b →
      State.Transfers { b with phase := .plane } u → Effect s (.planeInit es sim) (u.respond .ok 0x00#8)
  /-- A payload entry where one is expected (30 R83, R84). -/
  | entryReceived (index : Byte) (dir : Dir) (init : Bool) (name : Byte) {k : Intake} {need : Nat} : s.intake = some k →
      k.need = need + 1 → Effect s (.planeInitEntry index dir init name)
        { s with intake := some { k with need := need, entries := k.entries ++ [.pin index dir init name] } }

section Effect

variable {s t : State} {i : Instr}

theorem State.open_iff : s.open = true ↔ s.phase ≠ .idle := by simp [State.open]

theorem State.phase_ne_idle_of_linked (h : s.linked = true) : s.phase ≠ .idle := by
  intro hi
  simp [State.linked, hi] at h

theorem refuseState_effect (h : refuseState s = .next t) : Effect s i t := by
  cases h
  exact .answered _ _

/-- A command that ends with its procedure. -/
theorem finish_effect {c : Status} {f : State → Run Byte} (hf : Composed f) (hp : s.phase ≠ .idle)
    (h : finish c (f s) = .next t) : Effect s i t := by
  cases hr : f s with
  | done v u =>
    rw [hr] at h
    cases h
    exact .transferred v hp (hf.transfers hr)
  | failed k u =>
    rw [hr] at h
    cases h
    exact .tornDown c _ (hf.leads hr)

theorem bringUp_cases (h : bringUp s = .next t) :
    (∃ u, s.Transfers u ∧ t = u.respond .ok 0x00#8) ∨ ∃ u c d, s.Leads u ∧ t = u.closeDown.respond c d := by
  have hconf := configureLink_transfers s
  unfold bringUp at h
  generalize configureLink s = r at hconf h
  obtain ⟨_ | _, u⟩ := r
  · cases h
    exact .inr ⟨u, _, _, hconf.leads, rfl⟩
  have hdelay := hconf.trans (State.record_transfers (e := .delaySettle u.cfg.settleDelay) rfl rfl fun _ => rfl)
  dsimp only at h
  cases hr : pushState true (u.record (.delaySettle u.cfg.settleDelay)) with
  | done a w =>
    rw [hr] at h
    cases h
    exact .inl ⟨w, hdelay.trans ((Composed.push true).transfers hr), rfl⟩
  | failed k w =>
    rw [hr] at h
    cases h
    exact .inr ⟨w, _, _, hdelay.leads.trans hdelay.bounded ((Composed.push true).leads hr), rfl⟩

theorem execPlaneInit_effect {es : List Entry} {sim : Bool} (h : execPlaneInit es sim s = .next t) :
    Effect s (.planeInit es sim) t := by
  unfold execPlaneInit at h
  split at h
  · next hp =>
    split at h
    · cases h
      exact .answered _ _
    · have hd := openLink_dialled s.cfg.openAttempts (s.buildArena es sim)
      unfold construct at h
      generalize openLink s.cfg.openAttempts (s.buildArena es sim) = r at hd h
      obtain ⟨_ | _, b⟩ := r
      · cases h
        exact .unopened es sim hp hd
      · obtain ⟨hlead, hb⟩ := hd.plane_leads
        rcases bringUp_cases h with ⟨u, hu, rfl⟩ | ⟨u, c, d, hu, rfl⟩
        · exact .built es sim hp hd hu
        · exact .tornDown c d (hlead.trans hb hu)
  · exact refuseState_effect h

theorem execSpiBind_effect {clk mosi miso : PinIx} (h : execSpiBind clk mosi miso s = .next t) :
    Effect s (.spiBind clk mosi miso) t := by
  unfold execSpiBind at h
  split at h
  · next hp =>
    split at h
    · cases h
      exact .tornDown _ _ (.refl s)
    · next hc =>
      cases h
      exact .spiBound clk mosi miso hp (State.spiPinsOk_of_check hc)
  · exact refuseState_effect h

theorem execRegBind_effect {clk mosi miso cs rst : PinIx} (h : execRegBind clk mosi miso cs rst s = .next t) :
    Effect s (.regBind clk mosi miso cs rst) t := by
  unfold execRegBind at h
  split at h
  · next hp =>
    split at h
    · cases h
      exact .tornDown _ _ (.refl s)
    · next hc =>
      obtain ⟨hspi, hreg⟩ := State.regPinsOk_of_check hc
      have hf := composed_bindTransfer ⟨clk, mosi, miso⟩ ⟨cs, rst⟩
      rw [bindAndBroadcast_eq] at h
      cases hr : bindTransfer ⟨clk, mosi, miso⟩ ⟨cs, rst⟩
          { s with spi := some ⟨clk, mosi, miso⟩, reg := some ⟨cs, rst⟩ } with
      | done a u =>
        rw [hr] at h
        cases h
        exact .regBound clk mosi miso cs rst (State.open_iff.1 hp) hspi hreg (hf.transfers hr)
      | failed k u =>
        rw [hr] at h
        cases h
        obtain ⟨hcfg, hport, hintake, hbus, hresp, htrace, hw⟩ := hf.leads hr
        exact .tornDown _ _ ⟨hcfg, hport, hintake, hbus, hresp, htrace, fun hs => hw (hs.congr rfl rfl rfl)⟩
  · exact refuseState_effect h

theorem execPlaneInitEntry_effect {index : Byte} {dir : Dir} {init : Bool} {name : Byte}
    (h : execPlaneInitEntry index dir init name s = .next t) : Effect s (.planeInitEntry index dir init name) t := by
  unfold execPlaneInitEntry at h
  split at h
  · cases h
    exact .answered _ _
  · next k hk =>
    split at h
    · cases h
      exact .answered _ _
    · next need hn =>
      cases h
      exact .entryReceived index dir init name hk hn

/-- An access over the bus: what its procedure does, or the refusal of another phase. -/
theorem withBus_effect {k : SpiPins → RegPins → Out} (hk : ∀ p r, s.phase ≠ .idle → k p r = .next t → Effect s i t)
    (h : s.withBus k = .next t) : Effect s i t := by
  unfold State.withBus at h
  split at h
  · next hp =>
    split at h
    · cases h
    · cases h
    · exact hk _ _ (by simp [hp]) h
  · exact refuseState_effect h

/-- A transfer of the SPI Link: what its procedure does, or the refusal of another phase. -/
theorem withLink_effect {f : SpiPins → State → Run Byte} (hf : ∀ p, Composed (f p))
    (h : (if s.linked then match s.spi with | none => .fault .spiUnbound | some p => finish .ioErr (f p s) else refuseState s) =
      (.next t : Out)) : Effect s i t := by
  split at h
  · next hl =>
    split at h
    · cases h
    · exact finish_effect (hf _) (State.phase_ne_idle_of_linked hl) h
  · exact refuseState_effect h

/-- Every next state of an instruction is one of its effects. -/
theorem exec_effect (h : exec i s = .next t) : Effect s i t := by
  cases i with
  | planeInit es sim => exact execPlaneInit_effect h
  | spiBind clk mosi miso => exact execSpiBind_effect h
  | regBind clk mosi miso cs rst => exact execRegBind_effect h
  | planeInitEntry index dir init name => exact execPlaneInitEntry_effect h
  | close =>
    simp only [exec, execClose] at h
    split at h
    · cases h
      exact .tornDown _ _ (.refl s)
    · exact refuseState_effect h
  | setPin n v =>
    simp only [exec, execSetPin] at h
    split at h
    · next hp =>
      split at h
      · cases h
        exact .transferred _ (State.open_iff.1 hp) ((quiet_setValue n v).transfers s)
      · cases h
        exact .answered _ _
    · exact refuseState_effect h
  | getPin n =>
    simp only [exec, execGetPin] at h
    split at h
    · cases h
      exact .answered _ _
    · exact refuseState_effect h
  | setPins force =>
    simp only [exec, execSetPins] at h
    split at h
    · next hp => exact finish_effect (composed_setPins force) (State.open_iff.1 hp) h
    · exact refuseState_effect h
  | getPins =>
    simp only [exec, execGetPins] at h
    split at h
    · next hp => exact finish_effect composed_getPins (State.open_iff.1 hp) h
    · exact refuseState_effect h
  | inject v =>
    simp only [exec, execInject] at h
    split at h
    · next hp =>
      cases h
      exact .injected v (State.open_iff.1 (Bool.and_eq_true_iff.1 hp).1)
    · exact refuseState_effect h
  | spiSend v => exact withLink_effect (fun p => composed_spiSendCommand p v) h
  | spiRecv => exact withLink_effect composed_spiRecv h
  | regWrite dev reg data => exact withBus_effect (fun p r hp => finish_effect (composed_regWrite p r dev reg data) hp) h
  | regRead dev reg => exact withBus_effect (fun p r hp => finish_effect (composed_regRead p r dev reg) hp) h
  | frameWr dev reg data => exact withBus_effect (fun p r hp => finish_effect (composed_frameWr p r dev _ data) hp) h
  | frameRd dev reg => exact withBus_effect (fun p r hp => finish_effect (composed_readFrame p r dev _) hp) h

end Effect

/-! ## What a step takes -/

/-- A PLANE_INIT being received has at most 255 entries in all (30 R83). -/
def State.IntakeBounded (s : State) : Prop := ∀ k, s.intake = some k → k.need + k.entries.length ≤ 255

/-- `u` is `s` with words or bytes of an instruction taken: the port, the framer and the intake alone may differ. -/
structure State.Took (s u : State) : Prop where
  fields : u = { s with port := u.port, intake := u.intake, busIn := u.busIn }
  intake : s.IntakeBounded → u.IntakeBounded

/-- Every state that a fetch leaves satisfies `P`. -/
def Fetched.All (P : State → Prop) : Fetched → Prop
  | .idle => True
  | .run _ u => P u
  | .receive u => P u
  | .refuse u => P u
  | .stop _ => True

/-- A row of the opcode map that is passed over. -/
theorem eq_planeInit_of_ite {c : Prop} [Decidable c] {i : Instr} {x : Head} {n : Nat} {sim legal : Bool}
    (h : (if c then .one i else x) = Head.planeInit n sim legal) : x = .planeInit n sim legal := by
  split at h
  · cases h
  · exact h

theorem planeInit_count_le {w : Word} {n : Nat} {sim legal : Bool} (h : decodeCommand w = .planeInit n sim legal) : n ≤ 255 := by
  by_cases hop : Word.op w = 0x01#8
  · rw [decodeCommand, if_pos hop] at h
    cases h
    exact Nat.le_of_lt_succ (Word.fieldA w).isLt
  · rw [decodeCommand, if_neg hop] at h
    iterate 12 replace h := eq_planeInit_of_ite h
    cases h

theorem fetchFrame_took (s : State) : (fetchFrame s).All s.Took := by
  unfold fetchFrame
  split
  · exact ⟨rfl, id⟩
  · trivial
  · trivial

theorem fetchPayload_took {s : State} {k : Intake} (hk : s.intake = some k) : (fetchPayload k s).All s.Took := by
  unfold fetchPayload
  split
  · split <;> exact ⟨rfl, fun _ => nofun⟩
  · next need hn =>
    split
    · trivial
    · split
      · exact ⟨rfl, id⟩
      all_goals
        refine ⟨rfl, fun hs k' hk' => ?_⟩
        cases hk'
        have := hs k hk
        simp only [List.length_append, List.length_singleton]
        omega

theorem fetchCommand_took {s : State} : (fetchCommand s).All s.Took := by
  unfold fetchCommand
  split
  · trivial
  · split
    · exact ⟨rfl, id⟩
    · next hd =>
      refine ⟨rfl, fun _ k hk => ?_⟩
      cases hk
      exact planeInit_count_le hd
    · exact ⟨rfl, id⟩

theorem fetch_took (s : State) : (fetch s).All s.Took := by
  unfold fetch
  split
  · exact fetchFrame_took s
  · next hk => exact fetchPayload_took hk
  · exact fetchCommand_took

/-- What a step can do: nothing, or take words and then wait for more, refuse them, or run an instruction. -/
theorem step_cases {s t : State} (h : step s = .next t) :
    t = s ∨ ∃ u, s.Took u ∧ (t = u ∨ t = u.respond .refusedEnc 0x00#8 ∨ ∃ i, exec i u = .next t) := by
  have hf := fetch_took s
  unfold step at h
  cases hs : fetch s with
  | idle => rw [hs] at h; cases h; exact .inl rfl
  | run i u => rw [hs] at h hf; exact .inr ⟨u, hf, .inr (.inr ⟨i, h⟩)⟩
  | receive u => rw [hs] at h hf; cases h; exact .inr ⟨_, hf, .inl rfl⟩
  | refuse u => rw [hs] at h hf; cases h; exact .inr ⟨u, hf, .inr (.inl rfl)⟩
  | stop r => rw [hs] at h; cases h

end Sys2Proof.Machine
end

section
/-!
The statements about the state: the invariant and who keeps it, the trace, the arena, the control state, the masks and reset.
-/

namespace Sys2Proof.Machine

/-! ## The invariant -/

section Inv

variable {s u : State}

theorem State.Inv.bounded (h : s.Inv) : s.Bounded := ⟨h.txbuf, h.writes⟩

/-- The invariant does not look at the port, the framer and the responses, and at the intake only for its bound. -/
theorem State.Inv.surroundings (h : s.Inv)
    (hu : u = { s with port := u.port, intake := u.intake, busIn := u.busIn, responses := u.responses }) (hk : u.IntakeBounded) :
    u.Inv := by
  rw [hu]
  refine ⟨fun hp => ?_, h.spi_iff, h.reg_iff, fun p hs => (h.spi_ok p hs).congr fun _ => rfl,
    fun p r hs hr => (h.reg_ok p r hs hr).congr fun _ => rfl, h.haen, h.txbuf, h.history, h.link, h.writes, hk⟩
  exact congrArg (fun b : State => { b with port := u.port, intake := u.intake, busIn := u.busIn, responses := u.responses })
    (h.idle hp)

theorem State.Inv.respond (h : s.Inv) (c : Status) (d : Byte) : (s.respond c d).Inv := h.surroundings rfl h.intake

theorem State.Inv.took (h : s.Inv) (hu : s.Took u) : u.Inv :=
  h.surroundings (by rw [hu.fields]) (hu.intake h.intake)

/-- The power-on state meets the invariant once the link is closed (70 R240). -/
theorem State.inv_powerOn (hl : linkOpenFrom false u.trace = false) (hw : u.WritesLegal) (hk : u.IntakeBounded) :
    u.powerOn.Inv where
  idle _ := rfl
  spi_iff := by simp
  reg_iff := by simp
  spi_ok := nofun
  reg_ok := nofun
  haen := nofun
  txbuf := Nat.succ_pos _
  history := Nat.zero_le _
  link := hl
  writes := hw
  intake := hk

/-- Error entry and CLOSE end within the invariant (40 R128, 60 R220). -/
theorem State.Inv.closeDown (h : s.Inv) (hu : s.Leads u) : u.closeDown.Inv := by
  obtain ⟨ok, hc⟩ := linkCall_cases .closeLink u
  have ht := u.takeAnswer_transfers (.ok 0)
  unfold State.closeDown
  rw [hc]
  apply State.inv_powerOn
  · rw [State.record_trace, linkOpenFrom_append]
    rfl
  · exact ((hu.writes h.bounded).congr (u.takeAnswer_trace _) ht.evolves.cfg).record rfl
  · have : (u.takeAnswer (.ok 0)).2.intake = s.intake := ht.evolves.intake.trans hu.intake
    simpa [State.IntakeBounded, this] using h.intake

/-- A transfer keeps the invariant where there is a plane. -/
theorem State.Inv.transfers (h : s.Inv) (hp : s.phase ≠ .idle) (hu : s.Transfers u) : u.Inv := by
  have he := hu.evolves
  have hb := hu.bounded h.bounded
  obtain ⟨ext, htrace, hinner, -⟩ := he.trace
  exact
    { idle := fun hi => absurd (he.phase.symm.trans hi) hp
      spi_iff := by rw [he.spi, he.phase]; exact h.spi_iff
      reg_iff := by rw [he.reg, he.phase]; exact h.reg_iff
      spi_ok := fun p hs => (h.spi_ok p (he.spi ▸ hs)).congr he.shape
      reg_ok := fun p r hs hr => (h.reg_ok p r (he.spi ▸ hs) (he.reg ▸ hr)).congr he.shape
      haen := fun hh => he.phase.trans (h.haen (he.haen hh))
      txbuf := hb.txbuf
      history := he.history_le h.history
      link := by rw [htrace, linkOpenFrom_append, linkOpenFrom_inner hinner, h.link, State.open, State.open, he.phase]
      writes := hb.writes
      intake := by rw [he.intake]; exact h.intake }

theorem State.Inv.inject (h : s.Inv) (hp : s.phase ≠ .idle) (v : Byte) : State.Inv { s with inject := v } :=
  { h with
    idle := fun hi => absurd hi hp
    spi_ok := fun p hs => (h.spi_ok p hs).congr fun _ => rfl
    reg_ok := fun p r hs hr => (h.reg_ok p r hs hr).congr fun _ => rfl }

/-- The invariant once SPI_BIND has bound pins that it checked (41 R150). -/
theorem State.Inv.spiBound {p : SpiPins} (h : s.Inv) (hp : s.phase = .plane ∨ s.phase = .spi) (hok : s.SpiPinsOk p) :
    State.Inv { s with spi := some p, phase := .spi } := by
  have hready : s.phase ≠ .ready := by rcases hp with hp | hp <;> simp [hp]
  have hopen : s.phase ≠ .idle := by rcases hp with hp | hp <;> simp [hp]
  have hreg : ¬ s.reg.isSome = true := fun hr => hready (h.reg_iff.1 hr)
  exact
    { idle := nofun
      spi_iff := by simp
      reg_iff := by simpa using hreg
      spi_ok := fun q hq => by cases hq; exact hok.congr fun _ => rfl
      reg_ok := fun q r _ hr => absurd (Option.isSome_of_eq_some hr) hreg
      haen := fun hh => absurd (h.haen hh) hready
      txbuf := h.txbuf
      history := h.history
      link := h.link.trans (State.open_iff.2 hopen)
      writes := h.writes
      intake := h.intake }

/-- The invariant with both bindings, as REG_BIND leaves them (42 R182). -/
theorem State.Inv.regBound {p : SpiPins} {r : RegPins} (h : s.Inv) (hp : s.phase ≠ .idle) (hspi : s.SpiPinsOk p)
    (hreg : s.RegPinsOk p r) : State.Inv { s with spi := some p, reg := some r, haenOk := true, phase := .ready } where
  idle := nofun
  spi_iff := by simp
  reg_iff := by simp
  spi_ok q hq := by cases hq; exact hspi.congr fun _ => rfl
  reg_ok q r' hq hr := by cases hq; cases hr; exact hreg.congr fun _ => rfl
  haen _ := rfl
  txbuf := h.txbuf
  history := h.history
  link := h.link.trans (State.open_iff.2 hp)
  writes := h.writes
  intake := h.intake

/-- A transfer between two states is one between the same states with the ghost set and another phase. -/
theorem State.Transfers.ready (hu : s.Transfers u) :
    State.Transfers { s with haenOk := true, phase := .ready } { u with haenOk := true, phase := .ready } where
  evolves := { hu.evolves with phase := rfl, haen := id }
  bounded hb := (hu.bounded (hb.congr rfl rfl rfl)).congr rfl rfl rfl

/-- The plane with its link open and nothing sent yet meets the invariant (40 R113, R114). -/
theorem State.Inv.dialled {es : List Entry} {sim : Bool} {b : State} (h : s.Inv) (hd : (s.buildArena es sim).Dialled true b) :
    State.Inv { b with phase := .plane } := by
  obtain ⟨hlead, hb⟩ := hd.plane_leads
  have hspi : b.spi = none := by rw [hd.fields]; rfl
  have hreg : b.reg = none := by rw [hd.fields]; rfl
  have hhist : b.history = [] := by rw [hd.fields]; rfl
  have hhaen : b.haenOk = false := by rw [hd.fields]; rfl
  exact
    { idle := nofun
      spi_iff := by simp [hspi]
      reg_iff := by simp [hreg]
      spi_ok := by simp [hspi]
      reg_ok := by simp [hspi]
      haen := by simp [hhaen]
      txbuf := (hb h.bounded).txbuf
      history := by simp [hhist]
      link := (hd.linkOpen false).trans (Bool.or_true _)
      writes := (hb h.bounded).writes
      intake := by rw [show State.intake { b with phase := .plane } = s.intake from hd.intake]; exact h.intake }

/-- No effect of an instruction leaves the invariant. -/
theorem Effect.keeps_inv {i : Instr} (hi : Effect s i u) (h : s.Inv) : u.Inv := by
  cases hi with
  | answered c d => exact h.respond c d
  | transferred d hp ht => exact (h.transfers hp ht).respond _ _
  | tornDown c d hl => exact (h.closeDown hl).respond c d
  | injected v hp => exact (h.inject hp v).respond _ _
  | spiBound clk mosi miso hp hok => exact (h.spiBound hp hok).respond _ _
  | regBound clk mosi miso cs rst hp hspi hreg ht =>
    exact ((h.regBound hp hspi hreg).transfers nofun ht.ready).respond _ _
  | unopened es sim hp hd =>
    have hidle : linkOpenFrom false s.trace = false := by simp [h.link, State.open, hp]
    refine (State.inv_powerOn ?_ (hd.writes h.writes) ?_).respond _ _
    · rw [hd.linkOpen, State.buildArena_trace, hidle]
      rfl
    · simpa [State.IntakeBounded, hd.intake] using h.intake
  | built es sim hp hd ht => exact ((h.dialled hd).transfers nofun ht).respond _ _
  | entryReceived index dir init name hk hn =>
    refine h.surroundings rfl fun k' hk' => ?_
    cases hk'
    have := h.intake _ hk
    simp only [List.length_append, List.length_singleton]
    omega

end Inv

/-- Settles O53: what a step takes leaves the invariant alone, and every effect of an instruction keeps it. -/
theorem everyStepKeepsTheInvariant : Obligations.EveryStepKeepsTheInvariant := by
  intro s t hs h
  rcases step_cases h with rfl | ⟨u, hu, rfl | rfl | ⟨i, hi⟩⟩
  · exact hs
  · exact hs.took hu
  · exact (hs.took hu).respond _ _
  · exact (exec_effect hi).keeps_inv (hs.took hu)

/-! ## The masks -/

theorem State.hasDir_iff {s : State} {i : PinIx} {d : Dir} : s.hasDir i d = true ↔ ∃ p, s.slot i = some p ∧ p.dir = d := by
  simp [State.hasDir]

@[simp] theorem State.bitAt_outMask (s : State) (i : PinIx) : bitAt s.outMask i = s.hasDir i .output := bitAt_byteOf _ i

@[simp] theorem State.bitAt_inMask (s : State) (i : PinIx) : bitAt s.inMask i = s.hasDir i .input := bitAt_byteOf _ i

theorem State.hasDir_absent {s : State} {i : PinIx} (h : s.slot i = none) (d : Dir) : s.hasDir i d = false := by
  simp [State.hasDir, h]

/-- No pin is an output and an input (10 R24). -/
theorem State.outMask_and_inMask (s : State) : s.outMask &&& s.inMask = 0x00#8 := by
  apply byte_ext
  intro i
  rw [bitAt_and, State.bitAt_outMask, State.bitAt_inMask, bitAt_zero]
  cases h : s.hasDir i .output with
  | false => rfl
  | true => rw [State.not_both_dirs h]; rfl

/-- Settles O12: each mask has the bits of its direction, and a slot has one direction. -/
theorem masksDescribeTheArena : Obligations.MasksDescribeTheArena := by
  refine ⟨fun s i => ⟨?_, ?_, fun h => ?_⟩, fun s => ⟨rfl, s.outMask_and_inMask⟩, by decide, by decide, by decide⟩
  · rw [State.bitAt_outMask, State.hasDir_iff]
  · rw [State.bitAt_inMask, State.hasDir_iff]
  · simp [State.activeMask, State.hasDir_absent h]

/-! ## The trace and the parameters -/

theorem State.closeDown_trace_grows (s : State) : s.trace <+: s.closeDown.trace := by
  rw [State.closeDown_eq_closed]
  exact ⟨_, rfl⟩

theorem State.closeDown_cfg (s : State) : s.closeDown.cfg = s.cfg := by
  rw [State.closeDown_eq_closed]
  rfl

/-- Every effect of an instruction only appends to the trace, and leaves the parameters (10 R35, R42). -/
theorem Effect.grows {s t : State} {i : Instr} (h : Effect s i t) : s.trace <+: t.trace ∧ t.cfg = s.cfg := by
  cases h with
  | answered c d => exact ⟨⟨[], List.append_nil _⟩, rfl⟩
  | transferred d hp ht => exact ⟨ht.evolves.trace_grows, ht.evolves.cfg⟩
  | tornDown c d hl => exact ⟨hl.trace.trans (State.closeDown_trace_grows _), (State.closeDown_cfg _).trans hl.cfg⟩
  | injected v hp => exact ⟨⟨[], List.append_nil _⟩, rfl⟩
  | spiBound clk mosi miso hp hok => exact ⟨⟨[], List.append_nil _⟩, rfl⟩
  | regBound clk mosi miso cs rst hp hspi hreg ht => exact ⟨ht.evolves.trace_grows, ht.evolves.cfg⟩
  | unopened es sim hp hd => exact ⟨hd.trace_grows, hd.cfg⟩
  | built es sim hp hd ht => exact ⟨hd.trace_grows.trans ht.evolves.trace_grows, ht.evolves.cfg.trans hd.cfg⟩
  | entryReceived index dir init name hk hn => exact ⟨⟨[], List.append_nil _⟩, rfl⟩

/-- Settles O56: the fetch touches neither, and every effect of an instruction appends. -/
theorem traceOnlyGrows : Obligations.TraceOnlyGrows := by
  intro s t h
  have took {u : State} (hu : s.Took u) : u.trace = s.trace ∧ u.cfg = s.cfg := by rw [hu.fields]; exact ⟨rfl, rfl⟩
  rcases step_cases h with rfl | ⟨u, hu, hu'⟩
  · exact ⟨⟨[], List.append_nil _⟩, rfl⟩
  obtain ⟨htrace, hcfg⟩ := took hu
  rw [← htrace, ← hcfg]
  rcases hu' with rfl | rfl | ⟨i, hi⟩
  · exact ⟨⟨[], List.append_nil _⟩, rfl⟩
  · exact ⟨⟨[], List.append_nil _⟩, rfl⟩
  · exact (exec_effect hi).grows

/-! ## The arena and the control state -/

theorem State.closeDown_atPowerOn (s : State) (c : Status) (d : Byte) : (s.closeDown.respond c d).AtPowerOn :=
  ⟨rfl, rfl, rfl, rfl, rfl, rfl, rfl, rfl, rfl⟩

/-- Settles O57: of the effects, those that shape the arena start or end in IDLE. -/
theorem onlyPlaneInitShapesTheArena : Obligations.OnlyPlaneInitShapesTheArena := by
  intro i s t h hs ht j
  cases exec_effect h with
  | answered c d => rfl
  | transferred d hp hu => exact hu.evolves.shape j
  | tornDown c d hl => exact absurd rfl ht
  | injected v hp => rfl
  | spiBound clk mosi miso hp hok => rfl
  | regBound clk mosi miso cs rst hp hspi hreg hu => exact hu.evolves.shape j
  | unopened es sim hp hd => exact absurd hp hs
  | built es sim hp hd hu => exact absurd hp hs
  | entryReceived index dir init name hk hn => rfl

/-- Settles O58: each effect writes the control state of its own command only, or leaves the block at power-on. -/
theorem controlStateHasItsWriters : Obligations.ControlStateHasItsWriters := by
  intro i s t h hplane
  cases exec_effect h with
  | answered c d => exact .inr ⟨rfl, fun _ => rfl, fun _ => ⟨rfl, fun _ => ⟨rfl, rfl⟩⟩⟩
  | transferred d hp hu =>
    have he := hu.evolves
    exact .inr ⟨he.sim, fun _ => he.inject, fun _ => ⟨he.reg, fun _ => ⟨he.phase, he.spi⟩⟩⟩
  | tornDown c d hl => exact .inl (State.closeDown_atPowerOn _ c d)
  | injected v hp => exact .inr ⟨rfl, fun hne => absurd rfl (hne v), fun _ => ⟨rfl, fun _ => ⟨rfl, rfl⟩⟩⟩
  | spiBound clk mosi miso hp hok =>
    exact .inr ⟨rfl, fun _ => rfl, fun _ => ⟨rfl, fun hne => absurd rfl (hne clk mosi miso)⟩⟩
  | regBound clk mosi miso cs rst hp hspi hreg hu =>
    exact .inr ⟨hu.evolves.sim, fun _ => hu.evolves.inject, fun hne => absurd rfl (hne clk mosi miso cs rst)⟩
  | unopened es sim hp hd => exact absurd rfl (hplane es sim)
  | built es sim hp hd hu => exact absurd rfl (hplane es sim)
  | entryReceived index dir init name hk hn => exact .inr ⟨rfl, fun _ => rfl, fun _ => ⟨rfl, fun _ => ⟨rfl, rfl⟩⟩⟩

/-! ## Reset -/

/-- Settles O51: the values of 10 R43, field by field. -/
theorem resetIsPowerOn : Obligations.ResetIsPowerOn :=
  ⟨rfl, rfl, by decide, by decide, by decide, by decide, rfl, rfl, rfl, rfl, rfl, rfl, rfl⟩

/-- Settles O52: reset is a power-on state with a closed link and nothing received. -/
theorem invariantAtReset : Obligations.InvariantAtReset :=
  ⟨State.inv_powerOn (u := State.reset) rfl nofun nofun, rfl⟩

end Sys2Proof.Machine
end

section
/-!
The ghost (10 R32): every instruction and every step takes states equal but for the ghost and its flags to such states.
-/

namespace Sys2Proof.Machine

/-- Outcomes equal but for the ghost and its flags. -/
inductive OutAlike : Out → Out → Prop
  | next {t t' : State} : t.SameButGhost t' → OutAlike (.next t) (.next t')
  | fault (r : Fault) : OutAlike (.fault r) (.fault r)
  | refused (r : Refusal) : OutAlike (.refused r) (.refused r)

theorem OutAlike.exists_next {o o' : Out} (h : OutAlike o o') {t : State} (ho : o = .next t) :
    ∃ t', o' = .next t' ∧ t.SameButGhost t' := by
  cases h with
  | next ht => cases ho; exact ⟨_, rfl, ht⟩
  | fault r => cases ho
  | refused r => cases ho

section Ghost

variable {s s' : State}

theorem State.SameButGhost.respond (h : s.SameButGhost s') (c : Status) (d : Byte) :
    (s.respond c d).SameButGhost (s'.respond c d) :=
  h.map (f := (·.respond c d)) fun _ _ _ => rfl

/-- At power-on the ghost is the same too (70 R240). -/
theorem State.SameButGhost.powerOn (h : s.SameButGhost s') : s.powerOn.SameButGhost s'.powerOn where
  fields := by rw [h.eq_update]; rfl
  trace := h.trace

theorem State.SameButGhost.closeDown (h : s.SameButGhost s') : s.closeDown.SameButGhost s'.closeDown := by
  obtain ⟨a, t, t', e, e', ht⟩ := h.linkCall .closeLink
  simp only [State.closeDown, e, e']
  exact ht.powerOn

theorem State.SameButGhost.open (h : s.SameButGhost s') : s'.open = s.open := by rw [State.open, State.open, h.phase]
theorem State.SameButGhost.linked (h : s.SameButGhost s') : s'.linked = s.linked := by rw [State.linked, State.linked, h.phase]

theorem State.SameButGhost.checkPin (h : s.SameButGhost s') (i : PinIx) (d : Dir) : s'.checkPin i d = s.checkPin i d := by
  rw [State.checkPin, State.checkPin, h.slot]

theorem State.SameButGhost.checkSpiPins (h : s.SameButGhost s') (p : SpiPins) : s'.checkSpiPins p = s.checkSpiPins p := by
  simp only [State.checkSpiPins, h.checkPin]

theorem State.SameButGhost.checkRegPins (h : s.SameButGhost s') (p : SpiPins) (r : RegPins) :
    s'.checkRegPins p r = s.checkRegPins p r := by
  simp only [State.checkRegPins, h.checkPin, h.checkSpiPins]

/-! ## Ways to end -/

theorem reply_alike (h : s.SameButGhost s') (d : Byte) : OutAlike (reply d s) (reply d s') := .next (h.respond _ _)

theorem refuse_alike (h : s.SameButGhost s') (c : Status) (d : Byte) : OutAlike (refuse c d s) (refuse c d s') :=
  .next (h.respond _ _)

theorem fatal_alike (h : s.SameButGhost s') (c : Status) (d : Byte) : OutAlike (fatal c d s) (fatal c d s') :=
  .next (h.closeDown.respond _ _)

theorem finish_alike {r r' : Run Byte} (h : r.SameButGhost r') (c : Status) : OutAlike (finish c r) (finish c r') := by
  cases h with
  | done v hs => exact reply_alike hs v
  | failed k hs => exact fatal_alike hs c _

/-- A command behind a condition on the state, refused where it does not hold. -/
theorem gated_alike (h : s.SameButGhost s') {c c' : Prop} [Decidable c] [Decidable c'] (hc : c' ↔ c) {o o' : Out}
    (ho : c → OutAlike o o') : OutAlike (if c then o else refuseState s) (if c' then o' else refuseState s') := by
  by_cases hcc : c
  · rw [if_pos hcc, if_pos (hc.2 hcc)]
    exact ho hcc
  · rw [if_neg hcc, if_neg (mt hc.1 hcc)]
    exact refuse_alike h _ _

theorem openGated_alike (h : s.SameButGhost s') {o o' : Out} (ho : OutAlike o o') :
    OutAlike (if s.open then o else refuseState s) (if s'.open then o' else refuseState s') :=
  gated_alike h (by rw [h.open]) fun _ => ho

/-! ## PLANE_INIT -/

theorem openLink_alike (n : Nat) (h : s.SameButGhost s') : AnsweredAlike (openLink n s) (openLink n s') := by
  induction n generalizing s s' with
  | zero => exact ⟨_, _, _, rfl, rfl, h⟩
  | succ n ih =>
    obtain ⟨ok, t, t', e, e', ht⟩ := h.linkCall (.openLink s.cfg.deviceIndex)
    unfold openLink
    rw [h.cfg, e, e']
    cases ok with
    | true => exact ⟨_, _, _, rfl, rfl, ht⟩
    | false =>
      dsimp only
      split
      · exact ⟨_, _, _, rfl, rfl, ht⟩
      · rw [ht.cfg]
        exact ih (ht.record _)

theorem configureLink_alike (h : s.SameButGhost s') : AnsweredAlike (configureLink s) (configureLink s') := by
  obtain ⟨ok, t, t', e, e', ht⟩ := h.linkCall .resetLink
  unfold configureLink
  rw [e, e']
  cases ok with
  | false => exact ⟨_, _, _, rfl, rfl, ht⟩
  | true =>
    obtain ⟨ok, u, u', e, e', hu⟩ := ht.linkCall (.setClock t.cfg.clockRate)
    dsimp only
    rw [ht.cfg, e, e']
    cases ok with
    | false => exact ⟨_, _, _, rfl, rfl, hu⟩
    | true =>
      have hmask : u'.outMask = u.outMask := byteOf_congr fun i => State.hasDir_congr (hu.slot i)
      dsimp only
      rw [hu.cfg, hmask]
      exact hu.linkCall _

theorem bringUp_alike (h : s.SameButGhost s') : OutAlike (bringUp s) (bringUp s') := by
  obtain ⟨ok, t, t', e, e', ht⟩ := configureLink_alike h
  unfold bringUp
  rw [e, e']
  cases ok with
  | false => exact fatal_alike ht _ _
  | true =>
    dsimp only
    rw [ht.cfg]
    have hpush := (ht.record (.delaySettle t.cfg.settleDelay)).pushState true
    generalize pushState true (t.record (.delaySettle t.cfg.settleDelay)) = r at hpush ⊢
    generalize pushState true (t'.record (.delaySettle t.cfg.settleDelay)) = r' at hpush ⊢
    cases hpush with
    | done a hu => exact reply_alike hu _
    | failed k hu => exact fatal_alike hu _ _

theorem construct_alike (h : s.SameButGhost s') (es : List Entry) (sim : Bool) :
    OutAlike (construct es sim s) (construct es sim s') := by
  have harena : (s.buildArena es sim).SameButGhost (s'.buildArena es sim) := ⟨by rw [h.eq_update]; rfl, h.trace⟩
  obtain ⟨ok, t, t', e, e', ht⟩ := openLink_alike s.cfg.openAttempts harena
  unfold construct
  rw [h.cfg, e, e']
  cases ok with
  | false => exact .next (ht.powerOn.respond _ _)
  | true => exact bringUp_alike (ht.map (f := fun u => { u with phase := .plane }) fun _ _ _ => rfl)

theorem execPlaneInit_alike (h : s.SameButGhost s') (es : List Entry) (sim : Bool) :
    OutAlike (execPlaneInit es sim s) (execPlaneInit es sim s') := by
  refine gated_alike h (by rw [h.phase]) fun _ => ?_
  split
  · exact refuse_alike h _ _
  · exact construct_alike h es sim

theorem execPlaneInitEntry_alike (h : s.SameButGhost s') (index : Byte) (dir : Dir) (init : Bool) (name : Byte) :
    OutAlike (execPlaneInitEntry index dir init name s) (execPlaneInitEntry index dir init name s') := by
  unfold execPlaneInitEntry
  rw [h.intake]
  split
  · exact refuse_alike h _ _
  · next k _ =>
    split
    · exact refuse_alike h _ _
    · next need _ =>
      exact .next (h.map (f := fun u => { u with
        intake := some { k with need := need, entries := k.entries ++ [.pin index dir init name] } }) fun _ _ _ => rfl)

/-! ## The binding commands and the accesses over their bindings -/

theorem execSpiBind_alike (h : s.SameButGhost s') (clk mosi miso : PinIx) :
    OutAlike (execSpiBind clk mosi miso s) (execSpiBind clk mosi miso s') := by
  refine gated_alike h (by rw [h.phase]) fun _ => ?_
  rw [h.checkSpiPins]
  split
  · exact fatal_alike h _ _
  · exact reply_alike (h.map (f := fun u => { u with spi := some ⟨clk, mosi, miso⟩, phase := .spi }) fun _ _ _ => rfl) _

theorem bindAndBroadcast_alike (h : s.SameButGhost s') (hb : s.Blind) (p : SpiPins) (r : RegPins) :
    (bindAndBroadcast p r s).SameButGhost (bindAndBroadcast p r s') := by
  have hbound := h.map (f := fun u => { u with spi := some p, reg := some r }) fun _ _ _ => rfl
  rw [bindAndBroadcast_eq, bindAndBroadcast_eq]
  have he := (composed_bindTransfer p r).evolves { s with spi := some p, reg := some r }
  exact ((composed_bindTransfer p r).ghost hbound hb).andThen (hb.congr he.sim he.cfg) fun _ u u' hu _ =>
    .done _ ⟨by rw [hu.eq_update], hu.trace⟩

theorem execRegBind_alike (h : s.SameButGhost s') (hb : s.Blind) (clk mosi miso cs rst : PinIx) :
    OutAlike (execRegBind clk mosi miso cs rst s) (execRegBind clk mosi miso cs rst s') := by
  refine openGated_alike h ?_
  rw [h.checkRegPins]
  split
  · exact fatal_alike h _ _
  · exact finish_alike (bindAndBroadcast_alike h hb _ _) _

theorem withLink_alike (h : s.SameButGhost s') (hb : s.Blind) {f : SpiPins → State → Run Byte} (hf : ∀ p, Composed (f p)) :
    OutAlike (if s.linked then match s.spi with | none => .fault .spiUnbound | some p => finish .ioErr (f p s) else refuseState s)
      (if s'.linked then match s'.spi with | none => .fault .spiUnbound | some p => finish .ioErr (f p s') else refuseState s') := by
  refine gated_alike h (by rw [h.linked]) fun _ => ?_
  rw [h.spi]
  split
  · exact .fault _
  · exact finish_alike ((hf _).ghost h hb) _

theorem withBus_alike (h : s.SameButGhost s') (hb : s.Blind) {f : SpiPins → RegPins → State → Run Byte}
    (hf : ∀ p r, Composed (f p r)) (c : Status) :
    OutAlike (s.withBus fun p r => finish c (f p r s)) (s'.withBus fun p r => finish c (f p r s')) := by
  refine gated_alike h (by rw [h.phase]) fun _ => ?_
  rw [h.spi, h.reg]
  split
  · exact .fault _
  · exact .fault _
  · exact finish_alike ((hf _ _).ghost h hb) c

/-! ## Every instruction -/

/-- No instruction tells apart two states that are equal but for the ghost and its flags. -/
theorem exec_alike (h : s.SameButGhost s') (hb : s.Blind) (i : Instr) : OutAlike (exec i s) (exec i s') := by
  cases i with
  | planeInit es sim => exact execPlaneInit_alike h es sim
  | close => exact openGated_alike h (reply_alike h.closeDown _)
  | setPin n v =>
    refine openGated_alike h ?_
    rw [h.slot]
    split
    · exact reply_alike ((quiet_setValue n v).ghost _ _ h) _
    · exact refuse_alike h _ _
  | getPin n =>
    refine openGated_alike h ?_
    rw [h.slot]
    exact reply_alike h _
  | setPins force => exact openGated_alike h (finish_alike ((composed_setPins force).ghost h hb) _)
  | getPins => exact openGated_alike h (finish_alike (composed_getPins.ghost h hb) _)
  | inject v =>
    exact gated_alike h (by rw [h.open, h.sim]) fun _ =>
      reply_alike (h.map (f := fun u => { u with inject := v }) fun _ _ _ => rfl) _
  | spiBind clk mosi miso => exact execSpiBind_alike h clk mosi miso
  | spiSend v => exact withLink_alike h hb fun p => composed_spiSendCommand p v
  | spiRecv => exact withLink_alike h hb composed_spiRecv
  | regBind clk mosi miso cs rst => exact execRegBind_alike h hb clk mosi miso cs rst
  | regWrite dev reg data => exact withBus_alike h hb (fun p r => composed_regWrite p r dev reg data) _
  | regRead dev reg => exact withBus_alike h hb (fun p r => composed_regRead p r dev reg) _
  | planeInitEntry index dir init name => exact execPlaneInitEntry_alike h index dir init name
  | frameWr dev reg data => exact withBus_alike h hb (fun p r => composed_frameWr p r dev _ data) _
  | frameRd dev reg => exact withBus_alike h hb (fun p r => composed_readFrame p r dev _) _

/-! ## Every step -/

/-- Fetches of the same, in states equal but for the ghost and its flags. -/
inductive FetchedAlike : Fetched → Fetched → Prop
  | idle : FetchedAlike .idle .idle
  | run (i : Instr) {u u' : State} : u.SameButGhost u' → FetchedAlike (.run i u) (.run i u')
  | receive {u u' : State} : u.SameButGhost u' → FetchedAlike (.receive u) (.receive u')
  | refuse {u u' : State} : u.SameButGhost u' → FetchedAlike (.refuse u) (.refuse u')
  | stop (r : Refusal) : FetchedAlike (.stop r) (.stop r)

/-- Other surroundings, the same in both, keep the relation. -/
theorem State.SameButGhost.surround (h : s.SameButGhost s') (port : List Word) (intake : Option Intake) (busIn : List Byte) :
    State.SameButGhost { s with port := port, intake := intake, busIn := busIn }
      { s' with port := port, intake := intake, busIn := busIn } :=
  h.map (f := fun u => { u with port := port, intake := intake, busIn := busIn }) fun _ _ _ => rfl

theorem fetchFrame_alike (h : s.SameButGhost s') : FetchedAlike (fetchFrame s) (fetchFrame s') := by
  have hd : decodeBus s'.cfg.opcNibble s'.busIn = decodeBus s.cfg.opcNibble s.busIn := by rw [h.cfg, h.busIn]
  unfold fetchFrame
  rw [hd, h.port, h.intake]
  split
  · exact .run _ (h.surround _ _ _)
  · exact .idle
  · exact .stop _

theorem fetchPayload_alike (h : s.SameButGhost s') (k : Intake) : FetchedAlike (fetchPayload k s) (fetchPayload k s') := by
  unfold fetchPayload
  rw [h.port, h.intake, h.busIn]
  split
  · split
    · exact .refuse (h.surround _ _ _)
    · exact .run _ (h.surround _ _ _)
  · split
    · exact .idle
    · split
      · exact .run _ (h.surround _ _ _)
      · exact .receive (h.surround _ _ _)
      · exact .receive (h.surround _ _ _)

theorem fetchCommand_alike (h : s.SameButGhost s') : FetchedAlike (fetchCommand s) (fetchCommand s') := by
  unfold fetchCommand
  rw [h.port, h.intake, h.busIn]
  split
  · exact .idle
  · split
    · exact .run _ (h.surround _ _ _)
    · exact .receive (h.surround _ _ _)
    · exact .refuse (h.surround _ _ _)

theorem fetch_alike (h : s.SameButGhost s') : FetchedAlike (fetch s) (fetch s') := by
  unfold fetch
  rw [h.busIn, h.intake]
  split
  · exact fetchFrame_alike h
  · exact fetchPayload_alike h _
  · exact fetchCommand_alike h

/-- No step tells apart two states that are equal but for the ghost and its flags. -/
theorem step_alike (h : s.SameButGhost s') (hb : s.Blind) : OutAlike (step s) (step s') := by
  have htook := fetch_took s
  have hfetch := fetch_alike h
  unfold step
  generalize fetch s = f at htook hfetch ⊢
  generalize fetch s' = f' at hfetch ⊢
  cases hfetch with
  | idle => exact .next h
  | @run i u u' hu =>
    have hsame : u.sim = s.sim ∧ u.cfg = s.cfg := by rw [State.Took.fields htook]; exact ⟨rfl, rfl⟩
    exact exec_alike hu (hb.congr hsame.1 hsame.2) i
  | receive hu => exact .next hu
  | refuse hu => exact refuse_alike hu _ _
  | stop r => exact .refused r

end Ghost

/-- Settles O59: every instruction and every step is blind to the ghost, and so is the outcome. -/
theorem ghostNeverMatters : Obligations.GhostNeverMatters := fun _ _ h hb =>
  ⟨fun i _ ht => (exec_alike h hb i).exists_next ht, fun _ ht => (step_alike h hb).exists_next ht⟩

end Sys2Proof.Machine
end

section
/-!
GET_PINS in simulation mode: what a refresh answers when nothing is pending, and what the command leaves.
-/

namespace Sys2Proof.Machine

/-- GET_PINS after a refresh that does not fail answers the values of the pins (40 R125, R126). -/
theorem exec_getPins_of_refresh {s t : State} (hp : s.phase ≠ .idle) (hr : refresh s = .done () t) :
    exec .getPins s = .next (t.respond .ok t.pinValues) := by
  simp [exec, execGetPins, State.open_iff.2 hp, hr, Run.andThen, finish, reply]

/-- The default `sim_source` is the INJECT register (10 R31, 20 R66). -/
theorem simRead_inject {cfg : Params} (h : cfg.simSource = .inject) (inject : Byte) (trace : List Event) :
    simRead cfg inject trace = inject := by
  simp [simRead, h]

/-- In simulation mode a refresh with nothing pending is one READ, of what `sim_source` answers (20 R66, 40 R125). -/
theorem refresh_sim {s : State} (hs : s.sim = true) (hb : s.txbuf = []) :
    refresh s = .done () ((s.record (.read (some (simRead s.cfg s.inject s.trace)))).takeSnapshot
      (simRead s.cfg s.inject s.trace)) := by
  simp [refresh, hb, Run.andThen, linkRead_sim hs]

/-- A present input pin takes its bit of a snapshot (40 R125). -/
theorem State.slot_takeSnapshot_input {s : State} {i : PinIx} {p : Pin} (h : s.slot i = some p) (hd : p.dir = .input) (b : Byte) :
    (s.takeSnapshot b).slot i = some { p with value := bitAt b i } := by
  rw [State.slot_takeSnapshot, h, Option.map_some, if_pos hd]

/-- Settles O22: the refresh is one READ, which the INJECT register answers, and the input pins take that byte. -/
theorem simulatedReadTakesInject : Obligations.SimulatedReadTakesInject := by
  intro s hp hs hsrc hb
  have hr := refresh_sim hs hb
  rw [simRead_inject hsrc] at hr
  refine ⟨_, exec_getPins_of_refresh hp hr, by simp, fun i p hi hd => ?_⟩
  rw [State.slot_respond]
  exact State.slot_takeSnapshot_input hi hd _

end Sys2Proof.Machine
end

section
/-!
The encoding (spec/30_encoding.md): a row's mask and match read field by field, so that the decoder and the encoder are inverse to each
other row by row; PLANE_INIT's payload and the bus frames beside them.
-/

namespace Sys2Proof

open Sys2Proof.Laws.WireForm (op_pack fieldA_pack)
open Sys2Proof.Machine (commandRows assignedOps opcode)

/-! ## The four fields of a word -/

@[simp] theorem Word.fieldB_pack (op a b c : Byte) : Word.fieldB (Word.pack op a b c) = b := by
  rw [Word.fieldB, Word.pack, BitVec.extractLsb'_append_eq_of_le (by decide)]
  exact BitVec.extractLsb'_append_eq_right

@[simp] theorem Word.fieldC_pack (op a b c : Byte) : Word.fieldC (Word.pack op a b c) = c :=
  BitVec.extractLsb'_append_eq_right

theorem Word.pack_fields (w : Word) : Word.pack (Word.op w) (Word.fieldA w) (Word.fieldB w) (Word.fieldC w) = w := by
  rw [Word.pack, Word.op, Word.fieldA, Word.fieldB, Word.fieldC]
  iterate 3 rw [BitVec.extractLsb'_append_extractLsb'_eq_extractLsb' (by decide)]
  exact BitVec.extractLsb'_eq_self

/-- A word is determined by its fields (30 R81). -/
theorem Word.eq_iff {w v : Word} : w = v ↔
    Word.op w = Word.op v ∧ Word.fieldA w = Word.fieldA v ∧ Word.fieldB w = Word.fieldB v ∧ Word.fieldC w = Word.fieldC v := by
  refine ⟨by rintro rfl; simp, fun ⟨ho, ha, hb, hc⟩ => ?_⟩
  rw [← Word.pack_fields w, ho, ha, hb, hc, Word.pack_fields]

/-- A row's mask and match, field by field (30 R82); of literals, `simp` computes the eight bytes. -/
theorem Word.and_eq_iff {w m v : Word} : w &&& m = v ↔
    Word.op w &&& m.extractLsb' 24 8 = v.extractLsb' 24 8 ∧ Word.fieldA w &&& m.extractLsb' 16 8 = v.extractLsb' 16 8 ∧
    Word.fieldB w &&& m.extractLsb' 8 8 = v.extractLsb' 8 8 ∧ Word.fieldC w &&& m.extractLsb' 0 8 = v.extractLsb' 0 8 := by
  simp only [Word.eq_iff, Word.op, Word.fieldA, Word.fieldB, Word.fieldC, BitVec.extractLsb'_and]

/-! ## Rows of the opcode map -/

/-- Every row's mask covers the whole OP, so only the OP's own row can match (30 R82). -/
theorem op_of_row {w : Word} {row : Byte × Word × Word} (hrow : row ∈ commandRows) (h : w &&& row.2.1 = row.2.2) :
    Word.op w = row.1 := by
  have hmask : ∀ row ∈ commandRows, Word.op row.2.1 = 0xFF#8 ∧ Word.op row.2.2 = row.1 := by simp [commandRows, Word.op]
  obtain ⟨hm, hv⟩ := hmask row hrow
  calc Word.op w
    _ = Word.op w &&& Word.op row.2.1 := by rw [hm]; exact BitVec.and_allOnes.symm
    _ = Word.op (w &&& row.2.1) := BitVec.extractLsb'_and.symm
    _ = row.1 := by rw [h, hv]

theorem decodeCommand_of_no_row {w : Word} (hop : Word.op w ≠ 0x01#8) (h : ∀ row ∈ commandRows, w &&& row.2.1 ≠ row.2.2) :
    decodeCommand w = .illegal := by
  simp only [commandRows, List.forall_mem_cons] at h
  obtain ⟨h1, h2, h3, h4, h5, h6, h7, h8, h9, h10, h11, h12, -⟩ := h
  rw [decodeCommand, if_neg hop, if_neg h1, if_neg h2, if_neg h3, if_neg h4, if_neg h5, if_neg h6, if_neg h7, if_neg h8, if_neg h9,
    if_neg h10, if_neg h11, if_neg h12]

/-- An OP outside the map matches no row (30 R98). -/
theorem decodeCommand_of_unassigned {w : Word} (h : Word.op w ∉ assignedOps) : decodeCommand w = .illegal := by
  have hops : ∀ row ∈ commandRows, row.1 ∈ assignedOps := by simp [commandRows, assignedOps]
  refine decodeCommand_of_no_row (fun hop => h ?_) fun row hrow hw => h ?_
  · rw [hop]; decide
  · rw [op_of_row hrow hw]; exact hops row hrow

/-- A word that its OP's own row does not match is matched by no other (30 R97). -/
theorem decodeCommand_of_reserved {w : Word} {row : Byte × Word × Word} (hrow : row ∈ commandRows) (hop : Word.op w = row.1)
    (h : w &&& row.2.1 ≠ row.2.2) : decodeCommand w = .illegal := by
  have hops : ∀ row ∈ commandRows, row.1 ≠ 0x01#8 ∧ ∀ row' ∈ commandRows, row'.1 = row.1 → row' = row := by
    simp [commandRows]
  obtain ⟨hne, huniq⟩ := hops row hrow
  refine decodeCommand_of_no_row (hop ▸ hne) fun row' hrow' hw => ?_
  obtain rfl := huniq row' hrow' ((op_of_row hrow' hw).symm.trans hop)
  exact h hw

/-! ## Operands in a field

A pin stands in the low 3 bits of a field and a flag in its lowest bit, the bits above being reserved (30 R82, R97). -/

theorem Word.pin_eq_fieldA (w : Word) : w.extractLsb' 16 3 = (Word.fieldA w).setWidth 3 :=
  (BitVec.setWidth_extractLsb'_of_le (by decide)).symm

theorem Word.pin_eq_fieldB (w : Word) : w.extractLsb' 8 3 = (Word.fieldB w).setWidth 3 :=
  (BitVec.setWidth_extractLsb'_of_le (by decide)).symm

theorem Word.pin_eq_fieldC (w : Word) : w.extractLsb' 0 3 = (Word.fieldC w).setWidth 3 :=
  (BitVec.setWidth_extractLsb'_of_le (by decide)).symm

theorem Word.flag_eq_fieldA (w : Word) : w[16] = (Word.fieldA w)[0] := by simp [Word.fieldA]

theorem Word.flag_eq_fieldB (w : Word) : w[8] = (Word.fieldB w)[0] := by simp [Word.fieldB]

theorem Word.init_eq_fieldB (w : Word) : w[9] = (Word.fieldB w)[1] := by simp [Word.fieldB]

@[simp] theorem byte_and_ones (b : Byte) : b &&& 0xFF#8 = b := BitVec.and_allOnes

@[simp] theorem pinField_and : ∀ i : PinIx, i.setWidth 8 &&& 0xF8#8 = 0#8 := by decide

theorem pinField_of_and : ∀ {b : Byte}, b &&& 0xF8#8 = 0#8 → (b.setWidth 3).setWidth 8 = b := by decide

@[simp] theorem bitByte_and : ∀ v : Bool, bitByte v &&& 0xFE#8 = 0#8 := by decide

@[simp] theorem bitByte_bit : ∀ v : Bool, (bitByte v)[0] = v := by decide

theorem bitByte_of_and : ∀ {b : Byte}, b &&& 0xFE#8 = 0#8 → bitByte b[0] = b := by decide

/-! ## REG_BIND, whose five operands straddle the fields (30 R94) -/

/-- The word of REG_BIND. -/
def regBindWord (clk mosi miso cs rst : PinIx) : Word := 0x20#8 ++ 0#9 ++ clk ++ mosi ++ miso ++ cs ++ rst

/-- REG_BIND's row reads `word[31:15]` alone. -/
theorem regBindRow_iff {w : Word} : w &&& 0xFFFF8000#32 = 0x20000000#32 ↔ w.extractLsb' 15 17 = 0x20#8 ++ 0#9 := by
  constructor <;> intro h
  · have := congrArg (BitVec.extractLsb' 15 17) h
    rw [BitVec.extractLsb'_and] at this
    exact BitVec.and_allOnes.symm.trans this
  · calc w &&& 0xFFFF8000#32
      _ = (w.extractLsb' 15 17 ++ w.extractLsb' 0 15) &&& (BitVec.allOnes 17 ++ 0#15) := by
        rw [BitVec.extractLsb'_append_extractLsb'_eq_extractLsb' (show 15 = 0 + 15 from rfl), BitVec.extractLsb'_eq_self]
        rfl
      _ = 0x20000000#32 := by
        rw [BitVec.and_append, BitVec.and_allOnes, BitVec.and_zero, h]
        rfl

theorem regBindWord_row (clk mosi miso cs rst : PinIx) :
    regBindWord clk mosi miso cs rst &&& 0xFFFF8000#32 = 0x20000000#32 := by
  rw [regBindRow_iff, regBindWord]
  iterate 5 rw [BitVec.extractLsb'_append_eq_of_le (by decide)]
  exact BitVec.extractLsb'_eq_self

theorem regBindWord_pins (clk mosi miso cs rst : PinIx) :
    (regBindWord clk mosi miso cs rst).extractLsb' 12 3 = clk ∧ (regBindWord clk mosi miso cs rst).extractLsb' 9 3 = mosi ∧
    (regBindWord clk mosi miso cs rst).extractLsb' 6 3 = miso ∧ (regBindWord clk mosi miso cs rst).extractLsb' 3 3 = cs ∧
    (regBindWord clk mosi miso cs rst).extractLsb' 0 3 = rst := by
  rw [regBindWord]
  refine ⟨?_, ?_, ?_, ?_, ?_⟩
  all_goals
    repeat rw [BitVec.extractLsb'_append_eq_of_le (by decide)]
    exact BitVec.extractLsb'_append_eq_right

theorem regBindWord_of_row {w : Word} (h : w &&& 0xFFFF8000#32 = 0x20000000#32) :
    regBindWord (w.extractLsb' 12 3) (w.extractLsb' 9 3) (w.extractLsb' 6 3) (w.extractLsb' 3 3) (w.extractLsb' 0 3) = w := by
  rw [regBindWord, ← regBindRow_iff.1 h]
  iterate 5 rw [BitVec.extractLsb'_append_extractLsb'_eq_extractLsb' (by decide)]
  exact BitVec.extractLsb'_eq_self

theorem decodeCommand_regBind {w : Word} (h : w &&& 0xFFFF8000#32 = 0x20000000#32) : decodeCommand w =
    .one (.regBind (w.extractLsb' 12 3) (w.extractLsb' 9 3) (w.extractLsb' 6 3) (w.extractLsb' 3 3) (w.extractLsb' 0 3)) := by
  have hop := op_of_row (row := (0x20#8, 0xFFFF8000#32, 0x20000000#32)) (by simp [commandRows]) h
  simp [decodeCommand, h, Word.and_eq_iff, hop]

/-! ## The decoder and the encoder, row by row -/

/-- The word of a one-word command matches its own row, whose fields give its operands back. -/
theorem decodeCommand_encode {nibble : BitVec 4} {w : Word} {i : Instr} (hi : ∀ es sim, i ≠ .planeInit es sim)
    (he : encode nibble i = .command [w]) : decodeCommand w = .one i := by
  cases i with
  | planeInit es sim => exact absurd rfl (hi es sim)
  | regBind clk mosi miso cs rst =>
    obtain ⟨hclk, hmosi, hmiso, hcs, hrst⟩ := regBindWord_pins clk mosi miso cs rst
    cases he
    refine (decodeCommand_regBind (regBindWord_row clk mosi miso cs rst)).trans ?_
    rw [hclk, hmosi, hmiso, hcs, hrst]
  | planeInitEntry | frameWr | frameRd => cases he
  | _ =>
    cases he
    simp [decodeCommand, Word.and_eq_iff, op_pack, fieldA_pack, Word.pin_eq_fieldA, Word.pin_eq_fieldB, Word.pin_eq_fieldC,
      Word.flag_eq_fieldA, Word.flag_eq_fieldB]

/-- A row of the opcode map: its command, or a later row's. -/
theorem eq_one_of_ite {c : Prop} [Decidable c] {i j : Instr} {x : Head} (h : (if c then .one j else x) = Head.one i) :
    (c ∧ j = i) ∨ x = .one i := by
  by_cases hc : c
  · rw [if_pos hc] at h
    cases h
    exact .inl ⟨hc, rfl⟩
  · rw [if_neg hc] at h
    exact .inr h

/-- The matched row fixes every bit of the word but its operands' (30 R97). REG_BIND's row is read by its bits, the other eleven by
their fields. -/
theorem encode_of_decodeCommand (nibble : BitVec 4) {w : Word} {i : Instr} (h : decodeCommand w = .one i) :
    encode nibble i = .command [w] := by
  by_cases hreg : w &&& 0xFFFF8000#32 = 0x20000000#32
  · rw [decodeCommand_regBind hreg] at h
    cases h
    exact congrArg (Wire.command [·]) (regBindWord_of_row hreg)
  · by_cases hop : Word.op w = 0x01#8
    · rw [decodeCommand, if_pos hop] at h
      cases h
    · rw [decodeCommand, if_neg hop, if_neg hreg] at h
      iterate 11
        obtain ⟨hrow, rfl⟩ | h := eq_one_of_ite h
        · simp only [Word.and_eq_iff, BitVec.reduceExtractLsb', byte_and_ones, BitVec.and_zero, true_and, and_true] at hrow
          simp [encode, Word.eq_iff (v := w), hrow, op_pack, fieldA_pack, Word.pin_eq_fieldA, Word.pin_eq_fieldB,
            Word.pin_eq_fieldC, Word.flag_eq_fieldA, Word.flag_eq_fieldB, pinField_of_and, bitByte_of_and]
      cases h

/-- Settles O2: each row's mask leaves free only the bits its operands fill. -/
theorem decodedCommandWordEncodesBack : Obligations.DecodedCommandWordEncodesBack :=
  fun nibble _ _ h => encode_of_decodeCommand nibble h

/-! ## PLANE_INIT and its payload (30 R83, R84) -/

theorem decodeEntry_encodeEntry (e : Entry) : decodeEntry (encodeEntry e) = some e := by
  cases e with
  | nonPin => rfl
  | pin index dir init name =>
    cases dir <;> cases init <;>
      simp [decodeEntry, encodeEntry, Word.and_eq_iff, op_pack, fieldA_pack, Word.flag_eq_fieldB, Word.init_eq_fieldB, Dir.bit,
        Dir.ofBit]

theorem decodePayload_encode (es : List Entry) : decodePayload (es.map encodeEntry) = some es := by
  induction es with
  | nil => rfl
  | cons e es ih => simp only [List.map_cons, decodePayload, decodeEntry_encodeEntry, ih]

theorem decodeCommand_planeInitWord (n : Byte) (sim : Bool) :
    decodeCommand (Word.pack 0x01#8 n (bitByte sim) 0#8) = .planeInit n.toNat sim true := by
  simp [decodeCommand, Word.and_eq_iff, op_pack, fieldA_pack, Word.flag_eq_fieldB]

theorem decodeWords_encode_planeInit {es : List Entry} (h : es.length ≤ 255) (sim : Bool) :
    decodeWords (Word.pack 0x01#8 (BitVec.ofNat 8 es.length) (bitByte sim) 0#8 :: es.map encodeEntry) =
      some (.planeInit es sim) := by
  have hn : es.length % 256 = es.length := Nat.mod_eq_of_lt (by omega)
  simp [decodeWords, decodeCommand_planeInitWord, hn, decodePayload_encode]

/-- PLANE_INIT is no one-word command: its OP announces a payload (30 R83). -/
theorem decodeCommand_ne_planeInit (w : Word) (es : List Entry) (sim : Bool) : decodeCommand w ≠ .one (.planeInit es sim) := by
  intro h
  obtain ⟨hw, -⟩ := List.cons.inj (Wire.command.inj (encode_of_decodeCommand 0#4 h))
  rw [← hw, decodeCommand_planeInitWord] at h
  cases h

theorem decodeWords_one {w : Word} {i : Instr} (hi : ∀ es sim, i ≠ .planeInit es sim) (h : decodeWords [w] = some i) :
    decodeCommand w = .one i := by
  rw [decodeWords] at h
  split at h
  · next hd => cases h; exact hd
  · split at h
    · cases h; exact absurd rfl (hi _ _)
    · cases h
  · cases h

theorem decodeWords_planeInit {w : Word} {payload : List Word} {es : List Entry} {sim : Bool}
    (h : decodeWords (w :: payload) = some (.planeInit es sim)) :
    decodeCommand w = .planeInit payload.length sim true ∧ decodePayload payload = some es := by
  rw [decodeWords] at h
  split at h
  · next i hd =>
    split at h
    · cases h
      exact absurd hd (decodeCommand_ne_planeInit w es sim)
    · cases h
  · next hd =>
    split at h
    · next hc =>
      obtain ⟨rfl, rfl⟩ := hc
      rw [Option.map_eq_some_iff] at h
      obtain ⟨es', hes, he⟩ := h
      cases he
      exact ⟨hd, hes⟩
    · cases h
  · cases h

/-! ## The bus frame (30 R103, R104) -/

theorem opcode_fields (nibble : BitVec 4) (dev : DevAddr) (read : Bool) :
    (opcode nibble dev read).extractLsb' 4 4 = nibble ∧ (opcode nibble dev read).extractLsb' 1 3 = dev ∧
      (opcode nibble dev read).getLsbD 0 = read := by
  rw [opcode]
  refine ⟨?_, ?_, ?_⟩
  · rw [BitVec.extractLsb'_append_eq_of_le (by decide)]
    exact BitVec.extractLsb'_append_eq_left
  · rw [BitVec.extractLsb'_append_eq_of_le (by decide)]
    exact BitVec.extractLsb'_append_eq_right
  · rw [BitVec.getLsbD_append, if_pos (by decide)]
    cases read <;> rfl

theorem registerByte_fields (reg : BitVec 5) : (0#3 ++ reg).extractLsb' 5 3 = 0#3 ∧ (0#3 ++ reg).extractLsb' 0 5 = reg :=
  ⟨BitVec.extractLsb'_append_eq_left, BitVec.extractLsb'_append_eq_right⟩

theorem decodeBus_frameWr (nibble : BitVec 4) (dev : DevAddr) (reg : BitVec 5) (data : Byte) :
    decodeBus nibble [opcode nibble dev false, 0#3 ++ reg, data] = .frame (.frameWr dev reg data) [] := by
  simp only [decodeBus, opcode_fields, registerByte_fields, if_true]

theorem decodeBus_frameRd (nibble : BitVec 4) (dev : DevAddr) (reg : BitVec 5) :
    decodeBus nibble [opcode nibble dev true, 0#3 ++ reg] = .frame (.frameRd dev reg) [] := by
  simp only [decodeBus, opcode_fields, registerByte_fields, if_true]

/-! ## The three formats together -/

theorem decodeWire_of_one {nibble : BitVec 4} {w : Word} {i : Instr} (hi : ∀ es sim, i ≠ .planeInit es sim)
    (he : encode nibble i = .command [w]) : decodeWire nibble (encode nibble i) = some i := by
  simp [he, decodeWire, decodeWords, decodeCommand_encode hi he]

theorem decodeWire_of_frame {nibble : BitVec 4} {bs : List Byte} {i : Instr} (h : decodeBus nibble bs = .frame i []) :
    decodeWire nibble (.bus bs) = some i := by
  simp [decodeWire, h]

/-- Settles O1, format by format: PLANE_INIT with its payload, the one-word commands by their rows, the payload entry, the frames. -/
theorem decodeOfEncodeIsTheInstruction : Obligations.DecodeOfEncodeIsTheInstruction := by
  intro nibble i hi
  cases i with
  | planeInit es sim => exact decodeWords_encode_planeInit (by simpa [Instr.wellFormed] using hi) sim
  | planeInitEntry index dir init name => simp [encode, decodeWire, decodeEntry_encodeEntry]
  | frameWr dev reg data => exact decodeWire_of_frame (decodeBus_frameWr nibble dev reg data)
  | frameRd dev reg => exact decodeWire_of_frame (decodeBus_frameRd nibble dev reg)
  | _ => exact decodeWire_of_one nofun rfl

/-- Settles O3: each of the words evaluates. -/
theorem specExampleWordsDecode : Obligations.SpecExampleWordsDecode := by
  unfold Obligations.SpecExampleWordsDecode
  decide

end Sys2Proof
end

section
/-!
Steps: what one step does with a command word, a payload word, a received PLANE_INIT and a frame, and PLANE_INIT's intake as a run.
-/

namespace Sys2Proof.Machine

/-! ## One step -/

section Steps

variable {s : State} {w : Word} {ws : List Word}

theorem fetch_command (h : s.AwaitsCommand) : fetch s = fetchCommand s := by
  obtain ⟨hbus, hin⟩ := h
  rw [fetch, hbus, hin]

theorem fetch_payload {k : Intake} (hbus : s.busIn = []) (hin : s.intake = some k) : fetch s = fetchPayload k s := by
  rw [fetch, hbus, hin]

/-- A command word runs its instruction (30 R82). -/
theorem step_of_one {i : Instr} (hs : s.AwaitsCommand) (hp : s.port = w :: ws) (hd : decodeCommand w = .one i) :
    step s = exec i { s with port := ws } := by
  simp [step, fetch_command hs, fetchCommand, hp, hd]

/-- An illegal word in the command position is taken and refused (30 R97, R98). -/
theorem step_of_illegal (hs : s.AwaitsCommand) (hp : s.port = w :: ws) (hd : decodeCommand w = .illegal) :
    step s = .next { s with port := ws, responses := s.responses ++ [⟨.refusedEnc, 0x00#8⟩] } := by
  simp [step, fetch_command hs, fetchCommand, hp, hd, refuseEnc, refuse, State.respond]

/-- A PLANE_INIT word opens the intake (30 R83, log 2). -/
theorem step_of_planeInit {n : Nat} {sim legal : Bool} (hs : s.AwaitsCommand) (hp : s.port = w :: ws)
    (hd : decodeCommand w = .planeInit n sim legal) :
    step s = .next { s with port := ws, intake := some ⟨sim, !legal, n, []⟩ } := by
  simp [step, fetch_command hs, fetchCommand, hp, hd]

/-- A pin entry in the payload position runs as PLANE_INIT_ENTRY (30 R84, log 2). -/
theorem step_of_pinEntry {k : Intake} {n : Nat} {index : Byte} {dir : Dir} {init : Bool} {name : Byte} (hbus : s.busIn = [])
    (hin : s.intake = some k) (hk : k.need = n + 1) (hp : s.port = w :: ws) (hd : decodeEntry w = some (.pin index dir init name)) :
    step s = exec (.planeInitEntry index dir init name) { s with port := ws } := by
  simp [step, fetch_payload hbus hin, fetchPayload, hk, hp, hd]

/-- A received PLANE_INIT without an illegal word runs (30 R83, log 2). -/
theorem step_of_received {k : Intake} (hbus : s.busIn = []) (hin : s.intake = some k) (hk : k.need = 0) (hl : k.illegal = false) :
    step s = exec (.planeInit k.entries k.sim) { s with intake := none } := by
  simp [step, fetch_payload hbus hin, fetchPayload, hk, hl]

/-- A received PLANE_INIT with an illegal word is refused (30 R97, log 2). -/
theorem step_of_received_illegal {k : Intake} (hbus : s.busIn = []) (hin : s.intake = some k) (hk : k.need = 0)
    (hl : k.illegal = true) :
    step s = .next { s with intake := none, responses := s.responses ++ [⟨.refusedEnc, 0x00#8⟩] } := by
  simp [step, fetch_payload hbus hin, fetchPayload, hk, hl, refuseEnc, refuse, State.respond]

/-- A frame at the framer runs (30 R103, log 10). -/
theorem step_of_frame {i : Instr} {rest : List Byte} (hd : decodeBus s.cfg.opcNibble s.busIn = .frame i rest) :
    step s = exec i { s with busIn := rest } := by
  have hf : fetch s = fetchFrame s := by
    cases hb : s.busIn with
    | nil => rw [hb] at hd; cases hd
    | cons b bs => rw [fetch, hb]
  simp [step, hf, fetchFrame, hd]

/-! ## PLANE_INIT_ENTRY -/

theorem exec_planeInitEntry {k : Intake} {n : Nat} (hin : s.intake = some k) (hk : k.need = n + 1) (index : Byte) (dir : Dir)
    (init : Bool) (name : Byte) : exec (.planeInitEntry index dir init name) s =
      .next { s with intake := some { k with need := n, entries := k.entries ++ [.pin index dir init name] } } := by
  simp [exec, execPlaneInitEntry, hin, hk]

theorem exec_planeInitEntry_outside (hin : s.intake = none) (index : Byte) (dir : Dir) (init : Bool) (name : Byte) :
    exec (.planeInitEntry index dir init name) s = .next (s.answered .refusedEnc 0x00#8) := by
  simp [exec, execPlaneInitEntry, hin, refuseEnc, refuse, State.respond_eq_answered]

/-! ## The payload, a word a step -/

/-- The PLANE_INIT being received once it has taken the payload word `w` (30 R84, R97). -/
def Intake.receive (k : Intake) (w : Word) : Intake :=
  match decodeEntry w with
  | some e => { k with need := k.need - 1, entries := k.entries ++ [e] }
  | none => { k with need := k.need - 1, illegal := true }

theorem Intake.receive_of_entry (k : Intake) {e : Entry} (h : decodeEntry w = some e) :
    k.receive w = { k with need := k.need - 1, entries := k.entries ++ [e] } := by
  simp [Intake.receive, h]

theorem Intake.receive_of_illegal (k : Intake) (h : decodeEntry w = none) :
    k.receive w = { k with need := k.need - 1, illegal := true } := by
  simp [Intake.receive, h]

@[simp] theorem Intake.receive_need (k : Intake) (w : Word) : (k.receive w).need = k.need - 1 := by
  unfold Intake.receive
  split <;> rfl

theorem Intake.receive_illegal_iff (k : Intake) (w : Word) :
    (k.receive w).illegal = true ↔ k.illegal = true ∨ decodeEntry w = none := by
  unfold Intake.receive
  split <;> simp [*]

/-- Every payload word is received by one step (30 R83, log 2). -/
theorem step_of_payload {k : Intake} {n : Nat} (hbus : s.busIn = []) (hin : s.intake = some k) (hk : k.need = n + 1)
    (hp : s.port = w :: ws) : step s = .next { s with port := ws, intake := some (k.receive w) } := by
  cases hd : decodeEntry w with
  | none => simp [step, fetch_payload hbus hin, fetchPayload, hk, hp, hd, k.receive_of_illegal hd]
  | some e =>
    rw [k.receive_of_entry hd, hk]
    cases e with
    | nonPin => simp [step, fetch_payload hbus hin, fetchPayload, hk, hp, hd]
    | pin index dir init name =>
      exact (step_of_pinEntry hbus hin hk hp hd).trans (exec_planeInitEntry (s := { s with port := ws }) hin hk ..)

theorem receiveAll_need (payload : List Word) (k : Intake) :
    (payload.foldl Intake.receive k).need = k.need - payload.length := by
  induction payload generalizing k with
  | nil => rfl
  | cons w ws ih => simp [ih]; omega

theorem receiveAll_illegal_iff (payload : List Word) (k : Intake) :
    (payload.foldl Intake.receive k).illegal = true ↔ k.illegal = true ∨ ∃ e ∈ payload, decodeEntry e = none := by
  induction payload generalizing k with
  | nil => simp
  | cons w ws ih => simp [ih, Intake.receive_illegal_iff, or_assoc]

theorem receiveAll_of_decoded {payload : List Word} {es : List Entry} (h : decodePayload payload = some es) (k : Intake) :
    payload.foldl Intake.receive k = { k with need := k.need - payload.length, entries := k.entries ++ es } := by
  induction payload generalizing k es with
  | nil => cases h; simp
  | cons w ws ih =>
    rw [decodePayload] at h
    split at h
    · next e es' he hes =>
      cases h
      simp [ih hes, k.receive_of_entry he, Nat.sub_sub, Nat.add_comm 1]
    · cases h

end Steps

/-! ## Runs of steps -/

theorem run_succ {s t : State} (h : step s = .next t) (n : Nat) : core.run (n + 1) s = core.run n t := by
  have hs : core.step s = .next t := h
  simp only [Host.Core.run, hs]

theorem run_one (s : State) : core.run 1 s = step s := by
  cases hs : step s
  all_goals
    have hc : core.step s = _ := hs
    simp only [Host.Core.run, hc]
    rfl

/-- One step more is the step of the state that a run has reached. -/
theorem run_succ_of_run {s t : State} {n : Nat} (h : core.run n s = .next t) : core.run (n + 1) s = step t := by
  induction n generalizing s with
  | zero =>
    cases h
    exact run_one _
  | succ n ih =>
    cases hs : step s with
    | next u =>
      rw [run_succ hs] at h ⊢
      exact ih h
    | fault r | refused r =>
      have hc : core.step s = _ := hs
      simp [Host.Core.run, hc] at h

/-- A payload is received in as many steps as it has words (30 R83, R84, log 2). -/
theorem run_payload {payload ws : List Word} {s : State} {k : Intake} (hbus : s.busIn = []) (hin : s.intake = some k)
    (hk : k.need = payload.length) (hp : s.port = payload ++ ws) :
    core.run payload.length s = .next { s with port := ws, intake := some (payload.foldl Intake.receive k) } := by
  induction payload generalizing s k with
  | nil =>
    obtain rfl : s.port = ws := hp
    rw [List.foldl_nil, ← hin]
    rfl
  | cons w payload ih =>
    rw [List.length_cons, run_succ (step_of_payload hbus hin hk hp)]
    exact ih (s := { s with port := payload ++ ws, intake := some (k.receive w) }) hbus rfl (by simp [hk]) rfl

/-- A PLANE_INIT word and its payload are received in as many steps as they are words (30 R100, log 2). -/
theorem run_planeInit {s : State} {w : Word} {payload ws : List Word} {sim legal : Bool} (hs : s.AwaitsCommand)
    (hp : s.port = w :: payload ++ ws) (hd : decodeCommand w = .planeInit payload.length sim legal) :
    core.run (payload.length + 1) s =
      .next { s with port := ws, intake := some (payload.foldl Intake.receive ⟨sim, !legal, payload.length, []⟩) } := by
  rw [run_succ (step_of_planeInit hs hp hd)]
  exact run_payload (s := { s with port := payload ++ ws, intake := some _ }) hs.1 rfl rfl rfl

/-! ## The statements -/

/-- Settles O30: the two cases of PLANE_INIT_ENTRY. -/
theorem payloadEntryIsReceived : Obligations.PayloadEntryIsReceived := fun _ index dir init name =>
  ⟨fun _ _ hin hk => exec_planeInitEntry hin hk index dir init name,
    fun hin => exec_planeInitEntry_outside hin index dir init name⟩

/-- Settles O4: a word whose OP is in no row is illegal. -/
theorem unassignedOpIsRefused : Obligations.UnassignedOpIsRefused :=
  fun _ _ _ hs hp hop => step_of_illegal hs hp (decodeCommand_of_unassigned hop)

/-- Settles O6, a clause for each place that an instruction is taken from. -/
theorem stepRunsTheDecodedInstruction : Obligations.StepRunsTheDecodedInstruction :=
  ⟨fun _ _ _ _ hs hp hd hi => step_of_one hs hp (decodeWords_one hi hd),
    fun _ _ _ _ _ _ _ _ _ hbus hin hk hp hd => step_of_pinEntry hbus hin hk hp hd,
    fun _ _ hbus hin hk hl => step_of_received hbus hin hk hl,
    fun _ _ _ hd => step_of_frame hd⟩

/-- Settles O7: the intake collects the entries that the payload decodes to, and the step after its last word runs them. -/
theorem planeInitRunsWhenItsPayloadIsIn : Obligations.PlaneInitRunsWhenItsPayloadIsIn := by
  intro s w payload ws es sim hs hp h
  obtain ⟨hd, hes⟩ := decodeWords_planeInit h
  have hrun := run_planeInit hs hp hd
  rw [receiveAll_of_decoded hes] at hrun
  simp only [Nat.sub_self, List.nil_append, Bool.not_true] at hrun
  refine ⟨hrun, ?_⟩
  rw [run_succ_of_run hrun]
  refine (step_of_received (s := { s with port := ws, intake := some ⟨sim, false, 0, es⟩ }) hs.1 rfl rfl rfl).trans ?_
  rw [← hs.2]

/-- Settles O5: a one-word command with a reserved bit matches no row; an illegal word of a PLANE_INIT marks the intake, and the step
after the last word refuses it. -/
theorem reservedBitIsRefused : Obligations.ReservedBitIsRefused := by
  refine ⟨fun s w ws row hs hp hrow hop hbad => step_of_illegal hs hp (decodeCommand_of_reserved hrow hop hbad), ?_⟩
  intro s w payload ws hs hp hop hlen hbad
  have hd : decodeCommand w = .planeInit payload.length (w.getLsbD 8) (w &&& 0xFF00FEFF#32 = 0x01000000#32) := by
    rw [decodeCommand, if_pos hop, hlen]
  rw [run_succ_of_run (run_planeInit hs hp hd)]
  refine (step_of_received_illegal (s := { s with port := ws, intake := some _ }) hs.1 rfl ?_ ?_).trans ?_
  · simp [receiveAll_need]
  · rw [receiveAll_illegal_iff]
    refine hbad.imp (fun h => by simp [h]) fun ⟨e, he, htag, hres⟩ => ⟨e, he, ?_⟩
    rw [decodeEntry, if_pos htag, if_neg hres]
  · rw [← hs.2]
    rfl

end Sys2Proof.Machine
end

section
/-!
The bus frames as instructions (30 R103, R104, log 10): what an access over both bindings keeps, and the frames' own effect.
-/

namespace Sys2Proof.Machine

section Bus

variable {s t : State} {p : SpiPins} {r : RegPins}

theorem State.withBus_bound (hp : s.phase = .ready) (hspi : s.spi = some p) (hreg : s.reg = some r)
    (k : SpiPins → RegPins → Out) : s.withBus k = k p r := by
  simp [State.withBus, hp, hspi, hreg]

theorem State.RegPinsOk.rst_not_input (h : s.RegPinsOk p r) : ¬ s.isInput r.rst := by
  rw [State.isInput, State.not_both_dirs h.rst]
  exact Bool.false_ne_true

theorem State.RegPinsOk.rst_not_driven (h : s.RegPinsOk p r) : ¬ frameDriven p r r.rst := by
  rintro ((hc | hm) | hcs)
  · exact h.rst_clk hc
  · exact h.rst_mosi hm
  · exact h.cs_rst hcs.symm

/-- With RST high, moves that leave RST alone keep the ghost (42 R185). -/
theorem State.Moves.haenOk_of_rst_high {T : PinIx → Prop} {bs : List Byte} {rs : List (Option Byte)} {k : Nat}
    (h : s.Moves t T bs rs k) (hreg : s.reg = some r) (hok : s.RegPinsOk p r) (hT : ¬ T r.rst) (hl : s.level r.rst = true) : t.haenOk = s.haenOk := by
  refine h.ghost fun r' hr' => ?_
  obtain rfl : r = r' := Option.some.inj (hreg.symm.trans hr')
  exact ⟨hok.rst, hl, hT⟩

/-- A response is nothing that a transfer has to leave alone. -/
theorem State.SameOutside.respond {T : PinIx → Prop} (h : s.SameOutside t T) (c : Status) (d : Byte) :
    s.SameOutside (t.respond c d) T :=
  { h with }

end Bus

/-- A 5-bit register is its own register byte (42 R181). -/
theorem regByte_zeroExtend : ∀ reg : BitVec 5, regByte (reg.zeroExtend 8) = reg.zeroExtend 8 := by decide

/-- Settles O43: the frames of REG_WRITE and REG_READ run from the bound state as it is, and their register byte already fits R181's
mask. -/
theorem busFramesPushTheirStates : Obligations.BusFramesPushTheirStates := by
  intro s p r dev reg hph hspi hreg hp hr
  refine ⟨fun data hg => ?_, fun hg => ?_⟩
  · obtain ⟨t, ht, hm, htx, -⟩ := writeFrame_moves hp hr dev (reg.zeroExtend 8) data hg
    rw [regByte_zeroExtend] at hm
    refine ⟨t.respond .ok 0x00#8, ?_, ?_, hm.stream, htx, ?_, hm.haenOk_of_rst_high hreg hr hr.rst_not_driven⟩
    · rw [exec, execFrameWr, State.withBus_bound hph hspi hreg, ht]
      rfl
    · rw [State.respond_responses, hm.evolves.responses]
    · exact (hm.mono (fun _ => or_assoc.1) le_rfl).sameOutside.respond _ _
  · obtain ⟨bs, t, hlen, ht, hm, htx, -⟩ := readFrame_moves hp hr dev (reg.zeroExtend 8) hg
    rw [regByte_zeroExtend] at hm
    refine ⟨bs, t.respond .ok (byteOfSamples (bs.map (bitAt · p.miso))), hlen, ?_, ?_, hm.reads, hm.stream, htx, ?_,
      hm.haenOk_of_rst_high hreg hr fun h => h.elim hr.rst_not_driven hr.rst_not_input⟩
    · rw [exec, execFrameRd, State.withBus_bound hph hspi hreg, ht]
      rfl
    · rw [State.respond_responses, hm.evolves.responses]
    · exact (hm.mono (fun _ hi => by rwa [or_assoc, or_assoc] at hi) le_rfl).sameOutside.respond _ _

end Sys2Proof.Machine
end

section
/-!
The history (40 R124): every effect of an instruction keeps it the tail of what was sent since the link was opened.
-/

namespace Sys2Proof.Machine

section History

variable {s t u : State}

/-- The history looks at the phase, the parameters and the trace only. -/
theorem State.HistoryIsTail.congr (h : s.HistoryIsTail) (hhist : t.history = s.history) (hopen : t.open = s.open)
    (hcfg : t.cfg = s.cfg) (htrace : t.trace = s.trace) : t.HistoryIsTail := by
  rw [State.HistoryIsTail, hhist, hopen, hcfg, htrace]
  exact h

theorem State.HistoryIsTail.took (h : s.HistoryIsTail) (hu : s.Took u) : u.HistoryIsTail := by
  rw [hu.fields]
  exact h

/-- A transfer appends what it sends, to the history and to what was sent since the link was opened alike. -/
theorem State.HistoryIsTail.transfers (h : s.HistoryIsTail) (hle : s.history.length ≤ s.cfg.histCap) (hp : s.phase ≠ .idle)
    (hu : s.Transfers u) : u.HistoryIsTail := by
  have he := hu.evolves
  have hopen : s.open = true := State.open_iff.2 hp
  obtain ⟨ext, htrace, hinner, hhist⟩ := he.trace
  have hopen' : u.open = true := State.open_iff.2 (he.phase ▸ hp)
  rw [State.HistoryIsTail, hopen, if_pos rfl] at h
  rw [State.HistoryIsTail, hopen', if_pos rfl, hhist hle, htrace, he.cfg, h, lastOf_append, sentSinceOpen_append,
    sentSinceOpen_inner hinner]

theorem State.historyIsTail_idle (hp : s.phase = .idle) (hh : s.history = []) : s.HistoryIsTail := by
  simp [State.HistoryIsTail, State.open, hp, hh]

/-- Events without a WRITE that open the link end after a successful OPEN with nothing sent. -/
theorem sentSinceOpen_of_opened {es : List Event} (hl : ∀ e ∈ es, ∀ m, Event.legal m e = true) {was : Bool} {acc : List Byte}
    (hw : was = true → acc = []) (ho : linkOpenFrom was es = true) : sentSinceOpen acc es = [] := by
  induction es generalizing was acc with
  | nil => exact hw ho
  | cons e es ih =>
    have hes : ∀ x ∈ es, ∀ m, Event.legal m x = true := fun x hx => hl x (List.mem_cons_of_mem _ hx)
    cases e with
    | openLink d ok =>
      cases ok with
      | true => exact ih hes (fun _ => rfl) ho
      | false => exact ih hes hw ho
    | closeLink ok => exact ih hes (was := false) nofun ho
    | write bytes answer =>
      have h0 : Event.legal 0 (.write bytes answer) = true := hl _ List.mem_cons_self 0
      simp only [Event.legal, Bool.and_eq_true, decide_eq_true_eq] at h0
      omega
    | _ => exact ih hes hw ho

/-- Where PLANE_INIT has opened the link, nothing has been sent (40 R113, R114). -/
theorem State.Dialled.historyIsTail {es : List Entry} {sim : Bool} (hd : (s.buildArena es sim).Dialled true t) :
    State.HistoryIsTail { t with phase := .plane } := by
  obtain ⟨ext, htrace, hopen, hlegal⟩ := hd.trace
  have hhist : t.history = [] := by rw [hd.fields]; rfl
  have hsent : sentSinceOpen [] t.trace = [] := by
    rw [htrace, State.buildArena_trace, sentSinceOpen_append]
    exact sentSinceOpen_of_opened hlegal (was := false) nofun (hopen false)
  simp [State.HistoryIsTail, State.open, hhist, hsent, lastOf]

/-- Every effect of an instruction keeps the history a tail. -/
theorem Effect.keeps_historyIsTail {i : Instr} (hi : Effect s i t) (hs : s.Inv) (h : s.HistoryIsTail) : t.HistoryIsTail := by
  cases hi with
  | answered c d => exact h
  | transferred d hp ht => exact (h.transfers hs.history hp ht).congr rfl rfl rfl rfl
  | tornDown c d hl => exact State.historyIsTail_idle rfl rfl
  | injected v hp => exact h
  | spiBound clk mosi miso hp hok =>
    refine h.congr rfl (State.open_iff.2 ?_).symm rfl rfl
    rcases hp with hp | hp <;> simp [hp]
  | regBound clk mosi miso cs rst hp hspi hreg ht =>
    have hb : State.HistoryIsTail { s with spi := some ⟨clk, mosi, miso⟩, reg := some ⟨cs, rst⟩ } := h
    have hu := hb.transfers hs.history hp ht
    exact hu.congr rfl (State.open_iff.2 (ht.evolves.phase ▸ hp)).symm rfl rfl
  | unopened es sim hp hd =>
    exact State.historyIsTail_idle rfl rfl
  | built es sim hp hd ht =>
    exact (hd.historyIsTail.transfers (hs.dialled hd).history nofun ht).congr rfl rfl rfl rfl
  | entryReceived index dir init name hk hn => exact h

end History

/-- Settles O54: what a step takes leaves the history alone, and every effect of an instruction keeps it a tail. -/
theorem everyStepKeepsTheHistoryATail : Obligations.EveryStepKeepsTheHistoryATail := by
  intro s t hs h hstep
  rcases step_cases hstep with rfl | ⟨u, hu, rfl | rfl | ⟨i, hi⟩⟩
  · exact h
  · exact h.took hu
  · exact (h.took hu).congr rfl rfl rfl rfl
  · exact (exec_effect hi).keeps_historyIsTail (hs.took hu) (h.took hu)

end Sys2Proof.Machine
end

section
/-!
The Pin Plane commands that make no WRITE: SET_PIN, GET_PIN, INJECT and CLOSE, and the pin-state byte (spec/40_pin_plane.md).
-/

namespace Sys2Proof.Machine

theorem State.open_of_idle {s : State} (h : s.phase = .idle) : s.open = false := by simp [State.open, h]

/-- A value bit that is set belongs to a present pin (40 R126). -/
theorem State.level_iff {s : State} {i : PinIx} : s.level i = true ↔ ∃ p, s.slot i = some p ∧ p.value = true := by
  simp [State.level, Option.getD_eq_iff]

/-- No bit of the pin-state byte is set outside the outputs (40 R121). -/
theorem State.pinByte_and_not_outMask (s : State) : s.pinByte &&& ~~~s.outMask = 0x00#8 := by
  apply byte_ext
  intro i
  rw [bitAt_and, bitAt_not, State.bitAt_pinByte, State.bitAt_outMask, bitAt_zero]
  cases s.hasDir i .output <;> simp

/-- Settles O13: a bit of the byte is the pin's being an output and its level. -/
theorem pinByteShowsOutputsOnly : Obligations.PinByteShowsOutputsOnly := by
  refine fun s => ⟨s.pinByte_and_not_outMask, fun i => ?_⟩
  rw [State.bitAt_pinByte, Bool.and_eq_true, State.hasDir_iff, State.level_iff]
  constructor
  · rintro ⟨⟨p, hp, hd⟩, ⟨q, hq, hv⟩⟩
    obtain rfl : p = q := Option.some.inj (hp.symm.trans hq)
    exact ⟨p, hp, hd, hv⟩
  · rintro ⟨p, hp, hd, hv⟩
    exact ⟨⟨p, hp, hd⟩, ⟨p, hp, hv⟩⟩

/-- Settles O14, a clause for IDLE, an absent slot and a present pin. -/
theorem setPinWritesOneValue : Obligations.SetPinWritesOneValue := by
  intro s i v
  refine ⟨fun hp => ?_, fun hp hs => ?_, fun p hp hs => ⟨(s.setValue i v).pins, ?_, ?_, fun j hj => ?_⟩⟩
  · simp [exec, execSetPin, State.open_of_idle hp, refuseState, refuse, State.respond_eq_answered]
  · simp [exec, execSetPin, State.open_iff.2 hp, hs, refuse, State.respond_eq_answered]
  · simp [exec, execSetPin, State.open_iff.2 hp, hs, reply, State.respond_eq_answered]
    rfl
  · exact (s.slot_setValue i i v).trans (by simp [hs])
  · exact s.slot_setValue_ne v hj.symm

/-- The four parts of GET_PIN's answer for a present pin (30 R86). -/
theorem pinReport_bits (p : Pin) :
    (pinReport (some p)).getLsbD 0 = true ∧ ((pinReport (some p)).getLsbD 1 = true ↔ p.dir = .output) ∧
      (pinReport (some p)).getLsbD 2 = p.value ∧ (pinReport (some p)).extractLsb' 3 5 = 0#5 := by
  have hbits : ∀ v d : Bool, (0#5 ++ BitVec.ofBool v ++ BitVec.ofBool d ++ 1#1 : Byte).getLsbD 0 = true ∧
      (0#5 ++ BitVec.ofBool v ++ BitVec.ofBool d ++ 1#1 : Byte).getLsbD 1 = d ∧
      (0#5 ++ BitVec.ofBool v ++ BitVec.ofBool d ++ 1#1 : Byte).getLsbD 2 = v ∧
      (0#5 ++ BitVec.ofBool v ++ BitVec.ofBool d ++ 1#1 : Byte).extractLsb' 3 5 = 0#5 := by decide
  obtain ⟨h0, h1, h2, h3⟩ := hbits p.value (p.dir == .output)
  exact ⟨h0, by rw [pinReport, h1, beq_iff_eq], h2, h3⟩

/-- Settles O15: GET_PIN answers the report of the slot. -/
theorem getPinReportsTheSlot : Obligations.GetPinReportsTheSlot := by
  intro s i
  refine ⟨fun hp => ?_, fun hp => ⟨pinReport (s.slot i), ?_, fun hs => ?_, fun p hs => ?_⟩⟩
  · simp [exec, execGetPin, State.open_of_idle hp, refuseState, refuse, State.respond_eq_answered]
  · simp [exec, execGetPin, State.open_iff.2 hp, reply, State.respond_eq_answered]
  · rw [hs, pinReport]
  · rw [hs]
    exact pinReport_bits p

/-- Settles O23: INJECT asks for a plane in simulation mode. -/
theorem injectWritesTheByte : Obligations.InjectWritesTheByte := by
  refine fun s v => ⟨fun hp hs => ?_, fun h => ?_⟩
  · simp [exec, execInject, State.open_iff.2 hp, hs, reply, State.respond_eq_answered]
  · have hno : (s.open && s.sim) = false := by
      rcases h with hp | hs
      · rw [State.open_of_idle hp, Bool.false_and]
      · rw [hs, Bool.and_false]
    simp [exec, execInject, hno, refuseState, refuse, State.respond_eq_answered]

/-- Settles O24: CLOSE is the teardown's CLOSE and an OK. -/
theorem closeReturnsToPowerOn : Obligations.CloseReturnsToPowerOn := by
  refine fun s => ⟨fun hp => ?_, fun hp => ?_⟩
  · simp [exec, execClose, State.open_iff.2 hp, reply, State.closeDown_eq_closed, State.respond_eq_answered]
  · simp [exec, execClose, State.open_of_idle hp, refuseState, refuse, State.respond_eq_answered]

end Sys2Proof.Machine
end

section
/-!
Link calls as one update of the state, in simulation mode and in real mode alike; and what SET_PINS and GET_PINS make of them
(40 R120 to R126).
-/

namespace Sys2Proof.Machine

/-! ## Link calls -/

section Calls

variable {s : State}

/-- The `n`-th link call from now on, counting from 0, does not fail (20 R66). -/
def State.callOk (s : State) (n : Nat) : Bool := s.sim || s.answerAt n != .fail

/-- `s` after `k` link calls that recorded `es`; in simulation mode they use no answer up (20 R66). -/
def State.called (s : State) (k : Nat) (es : List Event) : State :=
  { s with
    trace := s.trace ++ es
    answers := if s.sim then s.answers else s.answers.drop k
    draws := if s.sim then s.draws else s.draws + k }

/-- What a WRITE of `len` bytes is answered (20 R66, 92 D48). -/
def State.countOf (s : State) (len : Nat) : Option Nat :=
  match (s.takeAnswer (.ok len)).1 with
  | .fail => none
  | .ok n => some (min n len)

theorem State.callOk_sim (h : s.sim = true) (n : Nat) : s.callOk n = true := by simp [State.callOk, h]

theorem State.callOk_real {n : Nat} {a : Answer} (h : s.sim = false) (ha : s.answerAt n = a) : s.callOk n = (a != .fail) := by
  simp [State.callOk, h, ha]

theorem State.answerAt_of_getElem? {n : Nat} {a : Answer} (h : s.answers[n]? = some a) : s.answerAt n = a := by
  simp [State.answerAt, h]

theorem State.countOf_sim (h : s.sim = true) (len : Nat) : s.countOf len = some len := by
  simp [State.countOf, State.takeAnswer_sim h]

theorem State.countOf_real {n : Nat} (h : s.sim = false) (ha : s.answerAt 0 = .ok n) (len : Nat) :
    s.countOf len = some (min n len) := by
  simp [State.countOf, State.takeAnswer_real h, ha]

theorem State.countOf_failed (h : s.callOk 0 = false) (len : Nat) : s.countOf len = none := by
  obtain ⟨hs, ha⟩ := by simpa [State.callOk] using h
  simp [State.countOf, State.takeAnswer_real hs, ha]

theorem State.record_eq_called (s : State) (e : Event) : s.record e = s.called 0 [e] := by simp [State.record, State.called]

theorem State.takeAnswer_eq_called (s : State) (a : Answer) : (s.takeAnswer a).2 = s.called 1 [] := by
  cases h : s.sim
  · simp [State.takeAnswer_real h, State.called, State.drawn, h]
  · rw [State.takeAnswer_sim h, State.called, if_pos h, if_pos h, List.append_nil]

theorem State.called_called (s : State) (j k : Nat) (es fs : List Event) :
    (s.called j es).called k fs = s.called (j + k) (es ++ fs) := by
  cases h : s.sim <;> simp [State.called, h, Nat.add_assoc]

theorem State.answerAt_called (h : s.sim = false) (k : Nat) (es : List Event) (n : Nat) :
    (s.called k es).answerAt n = s.answerAt (k + n) := by
  simp [State.answerAt, State.called, h, Nat.add_assoc]

theorem State.callOk_called (s : State) (k : Nat) (es : List Event) (n : Nat) : (s.called k es).callOk n = s.callOk (k + n) := by
  cases h : s.sim
  · rw [State.callOk, State.answerAt_called h]
    rfl
  · rw [State.callOk_sim h, State.callOk_sim (show (s.called k es).sim = true from h)]

/-- A link call answered `ok | fail` (10 R40). -/
theorem linkCall_eq (event : Bool → Event) (s : State) :
    linkCall event s = (s.callOk 0, s.called 1 [event (s.callOk 0)]) := by
  cases h : s.sim
  · rw [linkCall_real h, State.callOk_real h rfl]
    simp [State.record, State.drawn, State.called, h]
  · rw [linkCall_sim h, State.callOk_sim h]
    simp [State.record, State.called, h]

/-- A WRITE (10 R40). -/
theorem linkWrite_eq (bytes : List Byte) (s : State) :
    linkWrite bytes s = (s.countOf bytes.length, s.called 1 [.write bytes (s.countOf bytes.length)]) := by
  have hrec (e : Event) : (s.takeAnswer (.ok bytes.length)).2.record e = s.called 1 [e] := by
    rw [State.takeAnswer_eq_called, State.record_eq_called, State.called_called]
    rfl
  unfold linkWrite State.countOf
  rw [← hrec]
  rcases s.takeAnswer (.ok bytes.length) with ⟨_ | n, t⟩ <;> rfl

/-! ## Flushes and pushes -/

/-- A flush whose WRITE was answered `n`, field by field (40 R122 to R124). -/
theorem State.afterFlush_eq (s : State) (n : Nat) : s.afterFlush n =
    { s.called 1 (flushEvents s.txbuf n) with txbuf := [], history := lastOf s.cfg.histCap (s.history ++ s.txbuf) } := by
  rw [State.afterFlush, State.takeAnswer_eq_called, State.record_eq_called, State.called_called]
  simp only [State.noteShortWrite, flushEvents]
  split <;> simp [State.appendHistory, State.called, State.record, lastOf]

theorem flush_of_answer {n : Nat} (h : s.countOf s.txbuf.length = some n) : flush s = .done () (s.afterFlush n) := by
  rw [flush, linkWrite_eq, h, State.afterFlush, State.takeAnswer_eq_called, State.record_eq_called, State.called_called]
  rfl

theorem flush_of_failure (h : s.countOf s.txbuf.length = none) :
    flush s = .failed .write (s.called 1 [.write s.txbuf none]) := by
  rw [flush, linkWrite_eq, h]

theorem State.buffer_eq (s : State) :
    s.buffer = { s with txbuf := s.txbuf ++ [s.pinByte], haenOk := s.ghostAfterPush } := by
  unfold State.buffer State.noteReset State.ghostAfterPush
  dsimp only
  split
  · next r hr =>
    rw [hr]
    dsimp only
    cases bitAt s.pinByte r.rst <;> simp
  · next hr => rw [hr]

/-- A push flushes when it is forced or fills the buffer (40 R120). -/
theorem pushState_flushing {force : Bool} (h : force = true ∨ s.cfg.maxPacket ≤ s.txbuf.length + 1) :
    pushState force s = flush s.buffer := by
  simp [pushState, h]

/-- Below `MAX_PACKET` a push that is not forced only buffers (40 R120). -/
theorem pushState_buffering (h : s.txbuf.length + 1 < s.cfg.maxPacket) : pushState false s = .done () s.buffer := by
  simp [pushState, h]

theorem exec_setPins_of_push {force : Bool} {t : State} (hp : s.phase ≠ .idle) (hr : pushState force s = .done () t) :
    exec (.setPins force) s = .next (t.answered .ok 0x00#8) := by
  simp [exec, execSetPins, State.open_iff.2 hp, hr, Run.andThen, finish, reply, State.respond_eq_answered]

theorem exec_setPins_of_answer {force : Bool} {n : Nat} (hp : s.phase ≠ .idle)
    (hf : force = true ∨ s.cfg.maxPacket ≤ s.txbuf.length + 1) (hn : s.buffer.countOf (s.txbuf.length + 1) = some n) :
    exec (.setPins force) s = .next ((s.buffer.afterFlush n).answered .ok 0x00#8) := by
  apply exec_setPins_of_push hp
  rw [pushState_flushing hf]
  exact flush_of_answer (by simpa using hn)

theorem flushEvents_full (bytes : List Byte) : flushEvents bytes bytes.length = [.write bytes (some bytes.length)] := by
  simp [flushEvents]

/-- A short answer is flagged with the answer itself (40 R123). -/
theorem flushEvents_min (bytes : List Byte) (n : Nat) : flushEvents bytes (min n bytes.length) =
    [.write bytes (some (min n bytes.length))] ++ if n < bytes.length then [.shortWrite n bytes.length] else [] := by
  by_cases h : n < bytes.length
  · simp [flushEvents, h, Nat.min_eq_left h.le]
  · simp [flushEvents, h, Nat.min_eq_right (not_lt.1 h)]

end Calls

/-- Settles O16: the push is the buffering half alone. -/
theorem pushBelowMaxPacketOnlyBuffers : Obligations.PushBelowMaxPacketOnlyBuffers := by
  intro s hp hlen
  rw [exec_setPins_of_push hp (pushState_buffering hlen), State.buffer_eq]

/-- Settles O17: the flush's WRITE is answered with its length. -/
theorem flushingPushMakesOneWrite : Obligations.FlushingPushMakesOneWrite := by
  intro s force hp hs hf
  have hev := flushEvents_full (s.txbuf ++ [s.pinByte])
  rw [List.length_append, List.length_singleton] at hev
  rw [exec_setPins_of_answer hp hf (State.countOf_sim (by simpa using hs) _), State.afterFlush_eq, State.buffer_eq]
  simp [State.called, hs, hev]

/-- Settles O18: the flush's WRITE is answered with the next answer, at most its length. -/
theorem shortWriteIsOnlyFlagged : Obligations.ShortWriteIsOnlyFlagged := by
  intro s force n hp hs hf ha
  have hev := flushEvents_min (s.txbuf ++ [s.pinByte]) n
  rw [List.length_append, List.length_singleton] at hev
  have hn : s.buffer.countOf (s.txbuf.length + 1) = some (min n (s.txbuf.length + 1)) :=
    State.countOf_real (by simpa using hs) (by simpa [State.answerAt] using ha) _
  rw [exec_setPins_of_answer hp hf hn, State.afterFlush_eq, State.buffer_eq]
  simp [State.called, hs, hev]

/-! ## GET_PINS -/

/-- The events of a flush of what is pending, if anything is (40 R125). -/
theorem flushPending_trace {s r : State} (h : (if s.txbuf = [] then Run.done () s else flush s) = .done () r) :
    ∃ n, r.trace = s.trace ++ (if s.txbuf = [] then [] else flushEvents s.txbuf n) := by
  by_cases hb : s.txbuf = []
  · rw [if_pos hb] at h
    cases h
    exact ⟨0, by simp [hb]⟩
  · rw [if_neg hb] at h
    rcases flush_cases s with hf | ⟨n, -, hf⟩
    · rw [hf] at h; cases h
    · rw [hf] at h
      cases h
      exact ⟨n, by rw [if_neg hb, State.afterFlush_trace]⟩

theorem flushPending_haenOk {s r : State} (h : (if s.txbuf = [] then Run.done () s else flush s) = .done () r) :
    r.haenOk = s.haenOk := by
  split at h
  · cases h; rfl
  · rcases flush_cases s with hf | ⟨n, -, hf⟩
    · rw [hf] at h; cases h
    · rw [hf] at h
      cases h
      simp [State.afterFlush, State.takeAnswer_haenOk]

/-- A refresh pushes no byte, so it leaves the ghost alone (10 R32). -/
theorem refresh_haenOk {s t : State} (h : refresh s = .done () t) : t.haenOk = s.haenOk := by
  unfold refresh at h
  cases hr : (if s.txbuf = [] then Run.done () s else flush s) with
  | failed k r => rw [hr] at h; cases h
  | done _ r =>
    rw [hr] at h
    rw [← flushPending_haenOk hr]
    rcases linkRead_cases r with hl | ⟨b, hl⟩
    · simp [Run.andThen, hl] at h
    · simp only [Run.andThen, hl, Run.done.injEq, true_and] at h
      rw [← h]
      simp [State.takeAnswer_haenOk]

/-- Settles O20: a refresh that does not fail, and the values of the pins after it. -/
theorem getPinsFlushesThenReads : Obligations.GetPinsFlushesThenReads := by
  intro s hp hg
  obtain ⟨b, t, ht, hm, htx, hslot, r, hr, -, -, -, htrace⟩ := refresh_moves hg
  obtain ⟨n, hn⟩ := flushPending_trace hr
  refine ⟨b, t.pinValues, n, t.respond .ok t.pinValues, exec_getPins_of_refresh hp ht, ?_, ?_, htx, hslot, fun i => ?_,
    hm.sameOutside.respond _ _, (refresh_haenOk ht :)⟩
  · rw [State.respond_responses, hm.evolves.responses]
  · rw [State.respond_trace, htrace, hn]
    rfl
  · rw [State.pinValues, bitAt_byteOf, State.level_iff]
    rfl

end Sys2Proof.Machine
end

section
/-!
PLANE_INIT (40 R111 to R116): the checks of its pin list, the arena it builds, and the link calls of the bring-up.
-/

namespace Sys2Proof.Machine

/-! ## The pin list -/

/-- A pin list without a fault, entry by entry (40 R112). -/
theorem EntriesOk.of_cons {e : Entry} {es : List Entry} (h : EntriesOk (e :: es)) :
    ∃ index dir init name, e = .pin index dir init name ∧ index.toNat < 8 ∧ some index ∉ es.map Entry.index? ∧ EntriesOk es := by
  obtain ⟨index, dir, init, name, rfl, hlt⟩ := h.pins e List.mem_cons_self
  obtain ⟨hnot, hnodup⟩ := List.nodup_cons.1 h.nodup
  exact ⟨index, dir, init, name, rfl, hlt, hnot, fun x hx => h.pins x (List.mem_cons_of_mem _ hx), hnodup⟩

theorem mem_indices_iff {index : Byte} {es : List Entry} :
    index ∈ es.filterMap Entry.index? ↔ some index ∈ es.map Entry.index? := by
  rw [List.mem_filterMap, List.mem_map]

/-- The checks pass over entries without a fault, and see their indices from there on (40 R112). -/
theorem validateFrom_append {pre : List Entry} (hok : EntriesOk pre) {seen : List Byte}
    (hseen : ∀ b ∈ seen, some b ∉ pre.map Entry.index?) (post : List Entry) :
    validateFrom seen (pre ++ post) = validateFrom ((pre.filterMap Entry.index?).reverse ++ seen) post := by
  induction pre generalizing seen with
  | nil => rfl
  | cons e pre ih =>
    obtain ⟨index, dir, init, name, rfl, hlt, hnot, hpre⟩ := hok.of_cons
    have hnew : index ∉ seen := fun hb => hseen index hb List.mem_cons_self
    have hseen' : ∀ b ∈ index :: seen, some b ∉ pre.map Entry.index? := by
      intro b hb
      rcases List.mem_cons.1 hb with rfl | hb
      · exact hnot
      · exact fun hm => hseen b hb (List.mem_cons_of_mem _ hm)
    rw [List.cons_append, validateFrom, if_neg (by omega), if_neg hnew, ih hpre hseen']
    simp [Entry.index?]

theorem validate_append {pre post : List Entry} (hok : EntriesOk pre) (hne : pre ++ post ≠ []) :
    validate (pre ++ post) = validateFrom (pre.filterMap Entry.index?).reverse post := by
  rw [validate, if_neg (by simpa using hne), validateFrom_append hok (by simp), List.append_nil]

/-- A pin list without a fault passes the checks (40 R112). -/
theorem validate_of_ok {es : List Entry} (hne : es ≠ []) (hok : EntriesOk es) : validate es = none := by
  simpa [validateFrom] using validate_append (post := []) hok (by simpa using hne)

theorem exec_planeInit_fault {s : State} {es : List Entry} {sim : Bool} {reason : CfgReason} (hp : s.phase = .idle)
    (h : validate es = some reason) : exec (.planeInit es sim) s = .next (s.answered .cfgErr reason.code) := by
  simp [exec, execPlaneInit, hp, h, refuse, State.respond_eq_answered]

/-- Settles O25: the checks reach the first faulty entry, and stop there. -/
theorem planeInitReportsTheFirstFault : Obligations.PlaneInitReportsTheFirstFault := by
  refine fun s sim hp => ⟨exec_planeInit_fault (reason := .empty) hp rfl, fun pre post hok =>
    ⟨?_, fun index dir init name => ⟨fun hr => ?_, fun hd => ?_⟩⟩⟩
  · refine exec_planeInit_fault (reason := .nonPin) hp ?_
    rw [validate_append hok (by simp), validateFrom]
  · refine exec_planeInit_fault (reason := .range) hp ?_
    rw [validate_append hok (by simp), validateFrom, if_pos hr]
  · refine exec_planeInit_fault (reason := .dup) hp ?_
    have hlt : ¬ 7 < index.toNat := by
      obtain ⟨e, he, hi⟩ := List.mem_map.1 hd
      obtain ⟨index', _, _, _, rfl, hlt⟩ := hok.pins e he
      cases hi
      omega
    rw [validate_append hok (by simp), validateFrom, if_neg hlt, if_pos (List.mem_reverse.2 (mem_indices_iff.2 hd))]

/-! ## The arena (40 R113) -/

/-- An entry, seen from slot `i`. -/
theorem placeEntry_getElem (pins : Vector (Option Pin) 8) {index : Byte} (hlt : index.toNat < 8) (dir : Dir) (init : Bool)
    (name : Byte) (i : PinIx) : (placeEntry pins (.pin index dir init name))[i.toNat]'i.isLt =
      if i.toNat = index.toNat then some ⟨dir, init, name⟩ else pins[i.toNat]'i.isLt := by
  simp [placeEntry, hlt, Vector.getElem_set, eq_comm]

theorem placeEntries_absent {es : List Entry} (hok : EntriesOk es) (pins : Vector (Option Pin) 8) {i : PinIx}
    (h : ∀ index dir init name, Entry.pin index dir init name ∈ es → i.toNat ≠ index.toNat) :
    (es.foldl placeEntry pins)[i.toNat]'i.isLt = pins[i.toNat]'i.isLt := by
  induction es generalizing pins with
  | nil => rfl
  | cons e es ih =>
    obtain ⟨index, dir, init, name, rfl, hlt, -, hes⟩ := hok.of_cons
    rw [List.foldl_cons, ih hes _ fun _ _ _ _ hm => h _ _ _ _ (List.mem_cons_of_mem _ hm), placeEntry_getElem _ hlt,
      if_neg (h _ _ _ _ List.mem_cons_self)]

theorem placeEntries_present {es : List Entry} (hok : EntriesOk es) (pins : Vector (Option Pin) 8) {index : Byte} {dir : Dir}
    {init : Bool} {name : Byte} (hm : Entry.pin index dir init name ∈ es) {i : PinIx} (hi : i.toNat = index.toNat) :
    (es.foldl placeEntry pins)[i.toNat]'i.isLt = some ⟨dir, init, name⟩ := by
  induction es generalizing pins with
  | nil => cases hm
  | cons e es ih =>
    obtain ⟨index', dir', init', name', rfl, hlt, hnot, hes⟩ := hok.of_cons
    rcases List.mem_cons.1 hm with heq | hm
    · cases heq
      rw [List.foldl_cons, placeEntries_absent hes, placeEntry_getElem _ hlt, if_pos hi]
      intro index' dir' init' name' hm' hi'
      obtain rfl : index = index' := BitVec.eq_of_toNat_eq (hi.symm.trans hi')
      exact hnot (List.mem_map.2 ⟨_, hm', rfl⟩)
    · exact ih hes _ hm

/-! ## Opening the link (40 R114) -/

section Bringup

variable {s : State} {es : List Entry} {sim : Bool} {k : Nat}

/-- The state of the next attempt, after one that failed and the backoff. -/
theorem State.called_backoff (s : State) :
    (s.called 1 [.openLink s.cfg.deviceIndex false]).record (.delayBackoff s.cfg.openBackoff) =
      s.called 1 [.openLink s.cfg.deviceIndex false, .delayBackoff s.cfg.openBackoff] := by
  rw [State.record_eq_called, State.called_called]
  rfl

theorem openLink_succ_of_failed {n : Nat} (h : s.callOk 0 = false) : openLink (n + 2) s =
    openLink (n + 1) (s.called 1 [.openLink s.cfg.deviceIndex false, .delayBackoff s.cfg.openBackoff]) := by
  rw [← State.called_backoff, openLink, linkCall_eq, h]
  rfl

/-- An attempt that succeeds after `k` that failed, within the budget. -/
theorem openLink_of_retries {n : Nat} (hk : k < n) (hfail : ∀ j < k, s.callOk j = false) (hok : s.callOk k = true) :
    openLink n s = (true, s.called (k + 1)
      (openRetries s.cfg.deviceIndex s.cfg.openBackoff k ++ [.openLink s.cfg.deviceIndex true])) := by
  induction k generalizing n s with
  | zero =>
    obtain ⟨n, rfl⟩ := Nat.exists_eq_succ_of_ne_zero hk.ne'
    rw [openLink, linkCall_eq, hok]
    rfl
  | succ k ih =>
    obtain ⟨n, rfl⟩ := Nat.exists_eq_add_of_le' (show 2 ≤ n by omega)
    have hfail' (j : Nat) (hj : j < k) : (s.called 1 [.openLink s.cfg.deviceIndex false, .delayBackoff s.cfg.openBackoff]).callOk j
        = false := by
      rw [State.callOk_called, Nat.add_comm]
      exact hfail _ (by omega)
    rw [openLink_succ_of_failed (hfail 0 (by omega)), ih (by omega) hfail' ?_, State.called_called, Nat.add_comm 1]
    · rfl
    · rw [State.callOk_called, Nat.add_comm]
      exact hok

/-- Every attempt of the budget fails. -/
theorem openLink_exhausted {n : Nat} (hfail : ∀ j < n + 1, s.callOk j = false) :
    openLink (n + 1) s = (false, s.called (n + 1)
      (openRetries s.cfg.deviceIndex s.cfg.openBackoff n ++ [.openLink s.cfg.deviceIndex false])) := by
  induction n generalizing s with
  | zero =>
    rw [openLink, linkCall_eq, hfail 0 (by omega)]
    rfl
  | succ n ih =>
    rw [openLink_succ_of_failed (hfail 0 (by omega)), ih fun j hj => ?_, State.called_called, Nat.add_comm 1]
    · rfl
    · rw [State.callOk_called, Nat.add_comm]
      exact hfail _ (by omega)

/-! ## Configuring it, and the first push (40 R115, R116) -/

/-- The three configuration calls, up to the first that fails. -/
theorem configureLink_eq (s : State) : configureLink s =
    if s.callOk 0 = false then (false, s.called 1 [.resetLink false])
    else if s.callOk 1 = false then (false, s.called 2 [.resetLink true, .setClock s.cfg.clockRate false])
    else (s.callOk 2, s.called 3 [.resetLink true, .setClock s.cfg.clockRate true,
      .setBitMode s.outMask s.cfg.modeAsyncBitbang (s.callOk 2)]) := by
  unfold configureLink
  cases h0 : s.callOk 0 with
  | false => simp [linkCall_eq, h0]
  | true =>
    cases h1 : s.callOk 1 with
    | false => simp [linkCall_eq, h0, h1, State.callOk_called, State.called_called]; rfl
    | true => simp [linkCall_eq, h0, h1, State.callOk_called, State.called_called]; rfl

theorem configureLink_of_failed_reset (h0 : s.callOk 0 = false) : configureLink s = (false, s.called 1 [.resetLink false]) := by
  simp [configureLink_eq, h0]

theorem configureLink_of_failed_clock (h0 : s.callOk 0 = true) (h1 : s.callOk 1 = false) :
    configureLink s = (false, s.called 2 [.resetLink true, .setClock s.cfg.clockRate false]) := by
  simp [configureLink_eq, h0, h1]

theorem configureLink_of_last {ok : Bool} (h0 : s.callOk 0 = true) (h1 : s.callOk 1 = true) (h2 : s.callOk 2 = ok) :
    configureLink s = (ok, s.called 3 [.resetLink true, .setClock s.cfg.clockRate true,
      .setBitMode s.outMask s.cfg.modeAsyncBitbang ok]) := by
  simp [configureLink_eq, h0, h1, h2]

/-- `s` with its link configured and settled. -/
def State.configured (s : State) : State :=
  s.called 3 [.resetLink true, .setClock s.cfg.clockRate true, .setBitMode s.outMask s.cfg.modeAsyncBitbang true,
    .delaySettle s.cfg.settleDelay]

/-- A failing configuration call: the bring-up ends as a fatal error in the state it has reached. -/
theorem bringUp_of_unconfigured {t : State} (h : configureLink s = (false, t)) :
    bringUp s = .next (t.closed.answered .fatalIo fatalConfigure) := by
  rw [bringUp, h]
  exact fatal_eq _ _ _

/-- No configuration call fails. -/
theorem configureLink_of_good (h : ∀ j < 3, s.callOk j = true) :
    ∃ t, configureLink s = (true, t) ∧ t.record (.delaySettle t.cfg.settleDelay) = s.configured := by
  refine ⟨_, configureLink_of_last (h 0 (by omega)) (h 1 (by omega)) (h 2 (by omega)), ?_⟩
  rw [State.record_eq_called, State.called_called]
  rfl

/-! ## PLANE_INIT as a whole -/

theorem exec_planeInit_construct (hp : s.phase = .idle) (hne : es ≠ []) (hok : EntriesOk es) :
    exec (.planeInit es sim) s = construct es sim s := by
  simp [exec, execPlaneInit, hp, validate_of_ok hne hok]

/-- PLANE_INIT whose every open attempt fails (40 R114). -/
theorem exec_planeInit_exhausted (hp : s.phase = .idle) (hne : es ≠ []) (hes : EntriesOk es)
    (hfail : ∀ j < s.cfg.openAttempts, (s.buildArena es sim).callOk j = false) :
    exec (.planeInit es sim) s = .next (((s.buildArena es sim).called s.cfg.openAttempts
      (openRetries s.cfg.deviceIndex s.cfg.openBackoff (s.cfg.openAttempts - 1) ++
        [.openLink s.cfg.deviceIndex false])).powerOn.respond .fatalIo fatalOpen) := by
  rw [exec_planeInit_construct hp hne hes, construct]
  have hopen : openLink s.cfg.openAttempts (s.buildArena es sim) = _ := openLink_exhausted hfail
  rw [hopen]
  rfl

/-- The plane with its arena built and its link open after `k` failed attempts (40 R113, R114). -/
def State.planeOpened (s : State) (es : List Entry) (sim : Bool) (k : Nat) : State :=
  State.called { s.buildArena es sim with phase := .plane } (k + 1)
    (openRetries s.cfg.deviceIndex s.cfg.openBackoff k ++ [.openLink s.cfg.deviceIndex true])

theorem State.planeOpened_callOk (n : Nat) :
    (s.planeOpened es sim k).callOk n = (s.buildArena es sim).callOk (k + 1 + n) :=
  (s.buildArena es sim).callOk_called (k + 1)
    (openRetries s.cfg.deviceIndex s.cfg.openBackoff k ++ [.openLink s.cfg.deviceIndex true]) n

/-- PLANE_INIT from the open link on. -/
theorem exec_planeInit_of_opened (hp : s.phase = .idle) (hne : es ≠ []) (hes : EntriesOk es) (hk : k < s.cfg.openAttempts)
    (hfail : ∀ j < k, (s.buildArena es sim).callOk j = false) (hok : (s.buildArena es sim).callOk k = true) :
    exec (.planeInit es sim) s = bringUp (s.planeOpened es sim k) := by
  rw [exec_planeInit_construct hp hne hes, construct, openLink_of_retries hk hfail hok]
  rfl

/-- The first push whose WRITE is answered `n` (40 R116). -/
theorem bringUp_of_answer {n : Nat} (hb : s.txbuf = []) (h : ∀ j < 3, s.callOk j = true)
    (hn : s.configured.buffer.countOf 1 = some n) :
    bringUp s = .next ((s.configured.buffer.afterFlush n).answered .ok 0x00#8) := by
  have hlen : s.configured.buffer.txbuf.length = 1 := by simp [State.configured, State.called, hb]
  obtain ⟨t, hc, ht⟩ := configureLink_of_good h
  rw [bringUp, hc]
  dsimp only
  rw [ht, pushState_flushing (.inl rfl), flush_of_answer (hlen ▸ hn)]
  rfl

/-- The first push whose WRITE fails (40 R116). -/
theorem bringUp_of_failed_push (hb : s.txbuf = []) (h : ∀ j < 3, s.callOk j = true) (h3 : s.callOk 3 = false) :
    bringUp s = .next ((s.configured.buffer.called 1 [.write [s.pinByte] none]).closed.answered .fatalIo fatalFirstPush) := by
  have hbuf : s.configured.buffer.txbuf = [s.pinByte] := by
    simp [State.configured, State.called, hb]
    rfl
  have hn : s.configured.buffer.callOk 0 = false := by
    have : s.configured.callOk 0 = false := (s.callOk_called 3 _ 0).trans h3
    simpa [State.callOk, State.answerAt] using this
  obtain ⟨t, hc, ht⟩ := configureLink_of_good h
  rw [bringUp, hc]
  dsimp only
  rw [ht, pushState_flushing (.inl rfl), flush_of_failure (State.countOf_failed hn _), hbuf]
  exact fatal_eq _ _ _

/-- The plane after the first push, whose WRITE was answered `n` (40 R116). -/
def State.planeUp (s : State) (es : List Entry) (sim : Bool) (k n : Nat) : State :=
  ((s.planeOpened es sim k).configured.buffer.afterFlush n).answered .ok 0x00#8

theorem exec_planeInit_built {n : Nat} (hp : s.phase = .idle) (hne : es ≠ []) (hes : EntriesOk es) (hk : k < s.cfg.openAttempts)
    (hfail : ∀ j < k, (s.buildArena es sim).callOk j = false) (hok : ∀ j < 4, (s.buildArena es sim).callOk (k + j) = true)
    (hn : (s.planeOpened es sim k).configured.buffer.countOf 1 = some n) :
    exec (.planeInit es sim) s = .next (s.planeUp es sim k n) := by
  rw [exec_planeInit_of_opened hp hne hes hk hfail (hok 0 (by omega))]
  refine bringUp_of_answer rfl (fun j hj => ?_) hn
  rw [State.planeOpened_callOk, Nat.add_assoc]
  exact hok _ (by omega)

/-- The plane in its fields. -/
theorem State.planeUp_eq (s : State) (es : List Entry) (sim : Bool) (k n : Nat) : s.planeUp es sim k n =
    { s.buildArena es sim with
      phase := .plane
      history := lastOf s.cfg.histCap [(s.buildArena es sim).pinByte]
      trace := s.trace ++ (openRetries s.cfg.deviceIndex s.cfg.openBackoff k ++
        ([.openLink s.cfg.deviceIndex true, .resetLink true, .setClock s.cfg.clockRate true,
          .setBitMode (s.buildArena es sim).outMask s.cfg.modeAsyncBitbang true, .delaySettle s.cfg.settleDelay] ++
        flushEvents [(s.buildArena es sim).pinByte] n))
      responses := s.responses ++ [⟨.ok, 0x00#8⟩]
      answers := if sim then s.answers else s.answers.drop (k + 5)
      draws := if sim then s.draws else s.draws + (k + 5) } := by
  have hpin : (s.planeOpened es sim k).configured.pinByte = (s.buildArena es sim).pinByte := rfl
  have hmask : (s.planeOpened es sim k).outMask = (s.buildArena es sim).outMask := rfl
  rw [State.planeUp, State.afterFlush_eq, State.buffer_eq, hpin, State.configured, hmask, State.planeOpened, State.called_called]
  cases sim <;> simp [State.called, State.answered, State.ghostAfterPush, Nat.add_assoc]

theorem State.planeUp_outMask (n : Nat) : (s.planeUp es sim k n).outMask = (s.buildArena es sim).outMask := by
  rw [State.planeUp_eq]
  rfl

theorem State.planeUp_pinByte (n : Nat) : (s.planeUp es sim k n).pinByte = (s.buildArena es sim).pinByte := by
  rw [State.planeUp_eq]
  rfl

/-- The trace of PLANE_INIT, in terms of the plane that it leaves (70 R241). -/
theorem State.planeUp_trace (n : Nat) : (s.planeUp es sim k n).trace =
    s.trace ++ (openRetries s.cfg.deviceIndex s.cfg.openBackoff k ++
      ([.openLink s.cfg.deviceIndex true, .resetLink true, .setClock s.cfg.clockRate true,
        .setBitMode (s.planeUp es sim k n).outMask s.cfg.modeAsyncBitbang true, .delaySettle s.cfg.settleDelay] ++
      flushEvents [(s.planeUp es sim k n).pinByte] n)) := by
  rw [State.planeUp_outMask, State.planeUp_pinByte, State.planeUp_eq]

/-- What PLANE_INIT leaves (70 R241). -/
theorem State.planeUp_built (hes : EntriesOk es) (n : Nat) : s.PlaneBuilt (s.planeUp es sim k n) es sim := by
  rw [State.planeUp_eq]
  exact
    { phase := rfl
      sim := rfl
      present := fun index dir init name hm i hi => placeEntries_present hes _ hm hi
      absent := fun i h => (placeEntries_absent hes _ h).trans (by simp)
      txbuf := rfl
      history := rfl
      spi := rfl
      reg := rfl
      inject := rfl
      haenOk := rfl
      cfg := rfl
      port := rfl
      intake := rfl
      busIn := rfl
      responses := rfl }

/-! ## The driver's answers in real mode -/

theorem State.buildArena_callOk {n : Nat} {a : Answer} (h : s.answerAt n = a) :
    (s.buildArena es false).callOk n = (a != .fail) :=
  State.callOk_real rfl h

theorem State.answerAt_replicate_fail {rest : List Answer} {j : Nat} (h : s.answers = List.replicate k .fail ++ rest) (hj : j < k) :
    s.answerAt j = .fail := by
  apply State.answerAt_of_getElem?
  rw [h, List.getElem?_append_left (by simpa using hj), List.getElem?_replicate, if_pos hj]

theorem State.answerAt_after_fail {rest : List Answer} {a : Answer} {j : Nat} (h : s.answers = List.replicate k .fail ++ rest)
    (ha : rest[j]? = some a) : s.answerAt (k + j) = a := by
  apply State.answerAt_of_getElem?
  rw [h, List.getElem?_append_right (by simp), List.length_replicate, Nat.add_sub_cancel_left, ha]

/-- The first push takes the answer after those of the open attempts and the configuration. -/
theorem State.firstPush_answer {n : Nat} (h : s.answerAt (k + 4) = .ok n) :
    (s.planeOpened es false k).configured.buffer.countOf 1 = some (min n 1) := by
  refine State.countOf_real (by simp [State.configured, State.called, State.planeOpened]) ?_ 1
  have : (s.planeOpened es false k).configured.answerAt 0 = s.answerAt (k + 4) := by
    simp [State.configured, State.planeOpened, State.called, State.answerAt, Nat.add_assoc]
  rw [← h, ← this]
  simp [State.answerAt]

theorem State.planeOpened_first_callOk {as : List Answer} {n : Nat} {a : Answer} (h : s.answers = as) (ha : as[n + 1]? = some a) :
    (s.planeOpened es false 0).callOk n = (a != .fail) := by
  rw [State.planeOpened_callOk, Nat.add_comm]
  exact State.buildArena_callOk (State.answerAt_of_getElem? (h ▸ ha))

/-- PLANE_INIT whose first open attempt succeeds. -/
theorem exec_planeInit_of_first_opened {a : Nat} {as : List Answer} (hp : s.phase = .idle) (hne : es ≠ []) (hes : EntriesOk es)
    (h : s.answers = .ok a :: as) : exec (.planeInit es false) s = bringUp (s.planeOpened es false 0) :=
  exec_planeInit_of_opened hp hne hes (Nat.succ_pos _) nofun
    (State.buildArena_callOk (State.answerAt_of_getElem? (a := .ok a) (by rw [h]; rfl)))

/-- Error entry from a state that has recorded `evs` since `s` (60 R220). -/
theorem tornDown_after {o : Out} {u : State} {d : Byte} (ho : o = .next (u.closed.answered .fatalIo d))
    (hr : u.responses = s.responses) (evs : List Event) (ht : u.trace = s.trace ++ evs) :
    ∃ t ok, o = .next t ∧ t.AtPowerOn ∧ t.responses = s.responses ++ [⟨.fatalIo, d⟩] ∧
      t.trace = s.trace ++ (evs ++ [.closeLink ok]) := by
  refine ⟨_, u.sim || u.answerAt 0 != .fail, ho, ⟨rfl, rfl, rfl, rfl, rfl, rfl, rfl, rfl, rfl⟩, ?_, ?_⟩
  · rw [← hr]
    rfl
  · rw [← List.append_assoc, ← ht]
    rfl

end Bringup

/-- Settles O26: no call of the bring-up fails, and the push's WRITE is answered with its length. -/
theorem planeInitBuildsThePlaneInSimulation : Obligations.PlaneInitBuildsThePlaneInSimulation := by
  intro s es hp hne hes
  have hsim : (s.buildArena es true).sim = true := rfl
  have hn : (s.planeOpened es true 0).configured.buffer.countOf 1 = some 1 := State.countOf_sim (State.buffer_sim _) 1
  refine ⟨s.planeUp es true 0 1, exec_planeInit_built hp hne hes (Nat.succ_pos _) nofun (fun j _ => State.callOk_sim hsim _) hn,
    State.planeUp_built hes 1, State.planeUp_trace 1, ?_, ?_⟩
  all_goals
    rw [State.planeUp_eq]
    rfl

/-- Settles O27: the answers are those of `k` failed attempts and of the five calls after them. -/
theorem planeInitBuildsThePlaneAfterRetries : Obligations.PlaneInitBuildsThePlaneAfterRetries := by
  intro s es k a b c d n rest hp hne hes hk hans
  have hfail (j : Nat) (hj : j < k) : (s.buildArena es false).callOk j = false :=
    State.buildArena_callOk (State.answerAt_replicate_fail hans hj)
  have hok (j : Nat) (hj : j < 4) : (s.buildArena es false).callOk (k + j) = true := by
    have hget : ∃ m, (Answer.ok a :: .ok b :: .ok c :: .ok d :: .ok n :: rest)[j]? = some (.ok m) := by
      interval_cases j <;> exact ⟨_, rfl⟩
    obtain ⟨m, hm⟩ := hget
    exact State.buildArena_callOk (State.answerAt_after_fail hans hm)
  have hn := State.firstPush_answer (es := es) (State.answerAt_after_fail (j := 4) hans rfl)
  have hev (x : Byte) : flushEvents [x] (min n 1) =
      [.write [x] (some (min n 1))] ++ if n = 0 then [.shortWrite 0 1] else [] := by
    cases n <;> simp [flushEvents]
  refine ⟨_, exec_planeInit_built hp hne hes hk hfail hok hn, State.planeUp_built hes _, ?_, ?_, ?_⟩
  · rw [State.planeUp_trace, hev]
    simp
  · rw [State.planeUp_eq]
    simp [hans, List.drop_append]
  · rw [State.planeUp_eq]
    rfl

/-- Settles O28: the budget is used up by attempts that fail. -/
theorem openBudgetExhaustedIsFatal : Obligations.OpenBudgetExhaustedIsFatal := by
  intro s es rest hp hne hes hans
  have hfail (j : Nat) (hj : j < s.cfg.openAttempts) : (s.buildArena es false).callOk j = false :=
    State.buildArena_callOk (State.answerAt_replicate_fail hans hj)
  exact ⟨_, exec_planeInit_exhausted hp hne hes hfail, ⟨rfl, rfl, rfl, rfl, rfl, rfl, rfl, rfl, rfl⟩, rfl,
    (List.append_assoc _ _ _).symm⟩

/-- Settles O29: after a successful OPEN, the four places where the first call can fail. -/
theorem bringUpFailureIsFatal : Obligations.BringUpFailureIsFatal := by
  intro s es a b c d rest hp hne hes
  refine ⟨fun hans => ?_, fun hans => ?_, fun hans => ?_, fun hans => ?_⟩
  all_goals
    rw [exec_planeInit_of_first_opened hp hne hes hans]
    have h0 := State.planeOpened_first_callOk (es := es) (n := 0) hans rfl
  · exact tornDown_after (s := s) (bringUp_of_unconfigured (configureLink_of_failed_reset h0)) rfl [_, _]
      (List.append_assoc _ _ _)
  all_goals have h1 := State.planeOpened_first_callOk (es := es) (n := 1) hans rfl
  · exact tornDown_after (s := s) (bringUp_of_unconfigured (configureLink_of_failed_clock h0 h1)) rfl [_, _, _]
      (List.append_assoc _ _ _)
  all_goals have h2 := State.planeOpened_first_callOk (es := es) (n := 2) hans rfl
  · exact tornDown_after (s := s) (bringUp_of_unconfigured (configureLink_of_last h0 h1 h2)) rfl [_, _, _, _]
      (List.append_assoc _ _ _)
  · have h3 := State.planeOpened_first_callOk (es := es) (n := 3) hans rfl
    have h (j : Nat) (hj : j < 3) : (s.planeOpened es false 0).callOk j = true := by
      interval_cases j
      exacts [h0, h1, h2]
    refine tornDown_after (s := s) (bringUp_of_failed_push rfl h h3) (State.buffer_responses _) [_, _, _, _, _, _] ?_
    rw [State.called, State.buffer_trace]
    simp only [State.configured, State.planeOpened, State.called, List.append_assoc]
    rfl

end Sys2Proof.Machine
end

section
/-!
The link calls of a command none of whose link calls fails, counted exactly (40 R120, R125; 41 R154, R157; 42 R184, R185, R188, R189,
R192): each procedure asks good answers for its own calls only, and hands the rest on.
-/

namespace Sys2Proof.Machine

/-! ## Counted runs -/

/-- From `s` to `t` with the READs and WRITEs `ops`, a link answer used for each. -/
structure State.Calls (s t : State) (ops : List LinkOp) : Prop where
  evolves : s.Evolves t
  calls   : linkOps t.trace = linkOps s.trace ++ ops
  good    : ∀ m, s.linkGood (ops.length + m) → t.linkGood m

/-- Where none of the calls `ops` fails, the run makes exactly them and ends in a state of which `Q` holds. -/
def Run.Counts {α : Type} (s : State) (r : Run α) (ops : List LinkOp) (Q : State → Prop) : Prop :=
  s.linkGood ops.length → ∃ a t, r = .done a t ∧ s.Calls t ops ∧ Q t

section Counts

variable {α β : Type} {s t u : State} {r : Run α} {ops ops' : List LinkOp} {Q Q' : State → Prop}

theorem State.Calls.refl (s : State) : s.Calls s [] := ⟨.refl s, by simp, fun m h => by simpa using h⟩

theorem State.Calls.trans (h1 : s.Calls t ops) (h2 : t.Calls u ops') : s.Calls u (ops ++ ops') :=
  ⟨h1.evolves.trans h2.evolves, by rw [h2.calls, h1.calls, List.append_assoc], fun m h =>
    h2.good m (h1.good _ (by rwa [List.length_append, Nat.add_assoc] at h))⟩

/-- A change that neither calls the link nor takes its answers. -/
theorem State.Calls.of_quiet (he : s.Evolves t) (hops : linkOps t.trace = linkOps s.trace) (ha : t.answers = s.answers)
    (hd : t.draws = s.draws) : s.Calls t [] :=
  ⟨he, by rw [hops, List.append_nil], fun m h => State.linkGood_congr he.sim ha hd (by simpa using h)⟩

theorem State.calls_setValue (s : State) (i : PinIx) (b : Bool) : s.Calls (s.setValue i b) [] :=
  .of_quiet (s.evolves_setValue i b) rfl rfl rfl

theorem Run.counts_done (a : α) (h : Q s) : (Run.done a s).Counts s [] Q := fun _ => ⟨a, s, rfl, .refl s, h⟩

theorem Run.Counts.mono (h : r.Counts s ops Q) (hQ : ∀ t, s.Calls t ops → Q t → Q' t) : r.Counts s ops Q' := fun hg =>
  have ⟨a, t, hr, hc, hq⟩ := h hg
  ⟨a, t, hr, hc, hQ t hc hq⟩

/-- A run from a state that a change without link calls leads to. -/
theorem Run.Counts.of_calls (hs : s.Calls t []) (h : r.Counts t ops Q) : r.Counts s ops Q := fun hg =>
  have ⟨a, u, hr, hc, hq⟩ := h (hs.good _ (by simpa using hg))
  ⟨a, u, hr, by simpa using hs.trans hc, hq⟩

theorem Run.Counts.andThen {f : α → State → Run β} (h : r.Counts s ops Q)
    (hf : ∀ a t, s.Calls t ops → Q t → (f a t).Counts t ops' Q') : (r.andThen f).Counts s (ops ++ ops') Q' := by
  intro hg
  rw [List.length_append] at hg
  obtain ⟨a, t, rfl, hc, hq⟩ := h (State.linkGood_mono (Nat.le_add_right _ _) hg)
  obtain ⟨b, u, hr, hc', hq'⟩ := hf a t hc hq (hc.good _ hg)
  exact ⟨b, u, hr, hc.trans hc', hq'⟩

/-- A run followed by an answer from the state it reaches. -/
theorem Run.Counts.thenDone {v : α → State → β} (h : r.Counts s ops Q) :
    (r.andThen fun a t => .done (v a t) t).Counts s ops Q := by
  simpa using h.andThen fun a t _ hq => Run.counts_done (v a t) hq

end Counts

/-! ## Pushes -/

section Pushes

variable {s t : State}

theorem linkOps_flushEvents (bytes : List Byte) (n : Nat) : linkOps (flushEvents bytes n) = [.write] := by
  unfold flushEvents
  split <;> rfl

/-- A flush is one WRITE (40 R122). -/
theorem flush_counts (s : State) : (flush s).Counts s [.write] fun t => t.txbuf = [] ∧ ∀ i, t.slot i = s.slot i := by
  intro hg
  obtain ⟨n, -, hf, hm⟩ := flush_moves hg fun _ => False
  refine ⟨(), _, hf, ⟨hm.evolves, ?_, fun m h => hm.good m ?_⟩, rfl, fun i => hm.pins i id⟩
  · rw [State.afterFlush_trace, linkOps_append, linkOps_flushEvents]
  · rwa [Nat.add_comm] at h

theorem State.calls_buffer (s : State) : s.Calls s.buffer [] :=
  .of_quiet s.evolves_buffer (by simp) (by simp) (by simp)

/-- A forced push is one WRITE, whatever is buffered (40 R120). -/
theorem pushState_forced_counts (s : State) :
    (pushState true s).Counts s [.write] fun t => t.txbuf = [] ∧ ∀ i, t.slot i = s.slot i := by
  rw [pushState_flushing (.inl rfl)]
  exact .of_calls s.calls_buffer ((flush_counts s.buffer).mono fun t _ hq => by simpa using hq)

theorem maxPacket_pos (cfg : Params) : 0 < cfg.maxPacket := Nat.succ_pos _

/-- The WRITEs of `k` more bytes pushed without a flush: one whenever the buffer reaches `MAX_PACKET` (40 R120). -/
def State.overflow (s : State) (k : Nat) : List LinkOp := List.replicate ((s.txbuf.length + k) / s.cfg.maxPacket) .write

/-- A run that pushes `k` bytes without a flush: the buffer keeps what is above the last multiple of `MAX_PACKET`. -/
def Run.Buffers (s : State) (r : Run Unit) (k : Nat) (Q : State → Prop) : Prop :=
  r.Counts s (s.overflow k) fun t => t.txbuf.length = (s.txbuf.length + k) % s.cfg.maxPacket ∧ Q t

/-- A run that pushes `k` bytes, the last one with a flush (41 R154). -/
def Run.Flushes (s : State) (r : Run Unit) (k : Nat) (Q : State → Prop) : Prop :=
  r.Counts s (s.writesOf (s.txbuf.length + k)) fun t => t.txbuf = [] ∧ Q t

/-- What a buffer of `n` bytes keeps above the multiples of `m` counts for the bytes after it. -/
theorem replicate_div_append (m n c : Nat) (h : 0 < m) :
    List.replicate (n / m) LinkOp.write ++ List.replicate ((n % m + c) / m) .write = List.replicate ((n + c) / m) .write := by
  conv_rhs => rw [← Nat.div_add_mod n m, Nat.add_assoc, Nat.mul_add_div h]
  exact List.replicate_append_replicate

theorem State.writesOf_congr (h : t.cfg = s.cfg) (n : Nat) : t.writesOf n = s.writesOf n := by
  rw [State.writesOf, h, State.writesOf]

theorem State.lt_maxPacket_of_mod {n : Nat} (hcfg : t.cfg = s.cfg) (h : t.txbuf.length = n % s.cfg.maxPacket) :
    t.txbuf.length < t.cfg.maxPacket := by
  rw [h, hcfg]
  exact Nat.mod_lt _ (maxPacket_pos s.cfg)

theorem Run.buffers_done {Q : State → Prop} (h : s.txbuf.length < s.cfg.maxPacket) (hq : Q s) : (Run.done () s).Buffers s 0 Q := by
  have hnone : s.overflow 0 = [] := by
    rw [State.overflow, Nat.add_zero, Nat.div_eq_of_lt h, List.replicate_zero]
  rw [Run.Buffers, hnone]
  exact Run.counts_done () ⟨(Nat.mod_eq_of_lt h).symm, hq⟩

section Sequences

variable {r : Run Unit} {f : Unit → State → Run Unit} {j k : Nat} {Q Q' : State → Prop}

theorem Run.Buffers.mono (h : r.Buffers s k Q) (hQ : ∀ t, Q t → Q' t) : r.Buffers s k Q' :=
  Run.Counts.mono h fun t _ hq => hq.imp_right (hQ t)

theorem Run.Buffers.of_calls (hs : s.Calls t []) (htx : t.txbuf = s.txbuf) (h : r.Buffers t k Q) : r.Buffers s k Q := by
  have hc := Run.Counts.of_calls hs h
  rwa [State.overflow, htx, hs.evolves.cfg] at hc

theorem Run.Flushes.of_calls (hs : s.Calls t []) (htx : t.txbuf = s.txbuf) (h : r.Flushes t k Q) : r.Flushes s k Q := by
  have hc := Run.Counts.of_calls hs h
  rwa [State.writesOf_congr hs.evolves.cfg, htx] at hc

theorem Run.Buffers.andThen (h : r.Buffers s j Q)
    (hf : ∀ a t, t.txbuf.length < t.cfg.maxPacket → Q t → (f a t).Buffers t k Q') : (r.andThen f).Buffers s (j + k) Q' := by
  rw [Run.Buffers, State.overflow, ← Nat.add_assoc, ← replicate_div_append _ _ _ (maxPacket_pos s.cfg)]
  refine Run.Counts.andThen h fun a t hc ⟨hlen, hq⟩ => ?_
  have hcfg := hc.evolves.cfg
  have hr := hf a t (State.lt_maxPacket_of_mod hcfg hlen) hq
  rwa [Run.Buffers, State.overflow, hlen, hcfg, Nat.mod_add_mod] at hr

theorem Run.Buffers.andThen_flushes (h : r.Buffers s j Q)
    (hf : ∀ a t, t.txbuf.length < t.cfg.maxPacket → Q t → (f a t).Flushes t k Q') : (r.andThen f).Flushes s (j + k) Q' := by
  rw [Run.Flushes, State.writesOf, ← Nat.add_assoc, Nat.add_assoc _ k, ← replicate_div_append _ _ _ (maxPacket_pos s.cfg)]
  refine Run.Counts.andThen h fun a t hc ⟨hlen, hq⟩ => ?_
  have hcfg := hc.evolves.cfg
  have hr := hf a t (State.lt_maxPacket_of_mod hcfg hlen) hq
  rwa [Run.Flushes, State.writesOf, hlen, hcfg, Nat.add_assoc] at hr

end Sequences

/-- A push without a flush (40 R120). -/
theorem pushState_buffers (h : s.txbuf.length < s.cfg.maxPacket) :
    (pushState false s).Buffers s 1 fun t => ∀ i, t.slot i = s.slot i := by
  by_cases hfull : s.cfg.maxPacket ≤ s.txbuf.length + 1
  · have hlen : s.txbuf.length + 1 = s.cfg.maxPacket := by omega
    rw [Run.Buffers, State.overflow, hlen, Nat.div_self (maxPacket_pos s.cfg), Nat.mod_self, pushState_flushing (.inr hfull)]
    exact .of_calls s.calls_buffer ((flush_counts s.buffer).mono fun t _ hq => by simpa using hq)
  · have hlt : s.txbuf.length + 1 < s.cfg.maxPacket := by omega
    rw [Run.Buffers, State.overflow, Nat.div_eq_of_lt hlt, Nat.mod_eq_of_lt hlt, pushState_buffering hlt]
    exact .of_calls s.calls_buffer (Run.counts_done () (by simp))

/-- A pin write and a push without a flush. -/
theorem pushValue_buffers (i : PinIx) (b : Bool) (h : s.txbuf.length < s.cfg.maxPacket) :
    (pushState false (s.setValue i b)).Buffers s 1 fun t => ∀ j, t.slot j = (s.setValue i b).slot j :=
  .of_calls (s.calls_setValue i b) rfl (pushState_buffers (s := s.setValue i b) h)

/-- A forced push of a buffer below `MAX_PACKET` (40 R120). -/
theorem pushState_flushes (h : s.txbuf.length < s.cfg.maxPacket) :
    (pushState true s).Flushes s 1 fun t => ∀ i, t.slot i = s.slot i := by
  have hone : s.writesOf (s.txbuf.length + 1) = [.write] := by
    have hm : s.txbuf.length + 1 + (s.cfg.maxPacket - 1) = s.txbuf.length + s.cfg.maxPacket := by omega
    rw [State.writesOf, hm, Nat.add_div_right _ (maxPacket_pos s.cfg), Nat.div_eq_of_lt h]
    rfl
  rw [Run.Flushes, hone]
  exact pushState_forced_counts s

end Pushes

/-! ## SpiSend -/

section Transfers

variable {s t : State} {p : SpiPins}

theorem clockIdleFix_buffers (p : SpiPins) (h : s.txbuf.length < s.cfg.maxPacket) :
    (clockIdleFix p s).Buffers s (s.fixCount p.clk) fun _ => True := by
  have hrec : s.Calls (s.record .clkNotIdle) [] :=
    .of_quiet (s.evolves_record rfl rfl) (by simp [linkOps_append, linkOps]) rfl rfl
  unfold clockIdleFix State.fixCount
  split
  · exact .of_calls hrec rfl ((pushValue_buffers (s := s.record .clkNotIdle) p.clk false h).mono fun _ _ => trivial)
  · exact Run.buffers_done h trivial

theorem sendBit_buffers (p : SpiPins) (b : Bool) (h : s.txbuf.length < s.cfg.maxPacket) :
    (sendBit p b s).Buffers s 2 fun _ => True := by
  have hlow : (pushState false ((s.setValue p.clk false).setValue p.mosi b)).Buffers s 1 fun _ => True :=
    .of_calls (s.calls_setValue p.clk false) rfl
      ((pushValue_buffers (s := s.setValue p.clk false) p.mosi b h).mono fun _ _ => trivial)
  exact Run.Buffers.andThen (k := 1) hlow fun _ t ht _ => (pushValue_buffers p.clk true ht).mono fun _ _ => trivial

theorem sendBits_buffers (p : SpiPins) (bs : List Bool) (h : s.txbuf.length < s.cfg.maxPacket) :
    (sendBits p bs s).Buffers s (2 * bs.length) fun _ => True := by
  induction bs generalizing s with
  | nil => exact Run.buffers_done h trivial
  | cons b bs ih =>
    rw [List.length_cons, Nat.mul_succ, Nat.add_comm]
    exact Run.Buffers.andThen (sendBit_buffers p b h) fun _ t ht _ => ih ht

/-- `SpiSend(v)` pushes the correction, if one is needed, and 17 states (41 R154). -/
theorem spiSend_flushes (p : SpiPins) (v : Byte) (h : s.txbuf.length < s.cfg.maxPacket) :
    (spiSend p v s).Flushes s (s.fixCount p.clk + 17) fun t => t.level p.clk = false := by
  refine Run.Buffers.andThen_flushes (clockIdleFix_buffers p h) fun _ t ht _ => ?_
  refine Run.Buffers.andThen_flushes (k := 1) (sendBits_buffers p (bitsMsb v) ht) fun _ u hu _ => ?_
  refine .of_calls (u.calls_setValue p.clk false) rfl (Run.Counts.mono (pushState_flushes (s := u.setValue p.clk false) hu) fun w _ hq => ?_)
  obtain ⟨htx, hsl⟩ := hq
  exact ⟨htx, (State.level_congr (hsl _)).trans (by rw [State.level_setValue]; rfl)⟩

/-! ## SpiRecv -/

/-- The flush of what is pending, with `n` bytes buffered. -/
def pendingOps (n : Nat) : List LinkOp := if n = 0 then [] else [.write]

/-- A refresh flushes what is pending and READs (40 R125). -/
theorem refresh_counts (s : State) :
    (refresh s).Counts s (pendingOps s.txbuf.length ++ [.read]) fun t => t.txbuf = [] := by
  have hflush : (if s.txbuf = [] then Run.done () s else flush s).Counts s (pendingOps s.txbuf.length) fun t => t.txbuf = [] := by
    by_cases hb : s.txbuf = []
    · rw [if_pos hb, pendingOps, if_pos (by simp [hb])]
      exact Run.counts_done () hb
    · rw [if_neg hb, pendingOps, if_neg (by simpa using hb)]
      exact (flush_counts s).mono fun _ _ hq => hq.1
  refine Run.Counts.andThen hflush fun _ t _ ht hg => ?_
  obtain ⟨b, hb, -⟩ := linkRead_good hg
  rw [hb]
  refine ⟨(), _, rfl, ⟨?_, ?_, fun m hm => ?_⟩, ?_⟩
  · exact ((t.evolves_takeAnswer _).trans (State.evolves_record _ rfl rfl)).trans (State.evolves_takeSnapshot _ _)
  · simp [State.takeAnswer_trace, linkOps_append, linkOps]
  · exact State.linkGood_congr rfl rfl rfl (State.linkGood_takeAnswer _ (by rwa [Nat.add_comm] at hm))
  · simpa [State.takeAnswer_txbuf] using ht

/-- A forced push after a pin write. -/
theorem pushValue_counts (s : State) (i : PinIx) (b : Bool) :
    (pushState true (s.setValue i b)).Counts s [.write] fun t => t.txbuf = [] :=
  .of_calls (s.calls_setValue i b) ((pushState_forced_counts _).mono fun _ _ hq => hq.1)

/-- One bit received: a READ and two one-byte WRITEs after the flush of what is pending (41 R157). -/
theorem recvBit_counts (p : SpiPins) (acc : Byte) (s : State) :
    (recvBit p acc s).Counts s (pendingOps s.txbuf.length ++ [.read, .write, .write]) fun t => t.txbuf = [] := by
  have h := (refresh_counts s).andThen (f := fun _ t => (pushState true (t.setValue p.clk true)).andThen fun _ u =>
    (pushState true (u.setValue p.clk false)).andThen fun _ w => .done (shiftIn acc (t.level p.miso)) w) fun _ t _ _ =>
    (pushValue_counts t p.clk true).andThen fun _ u _ _ => (pushValue_counts u p.clk false).thenDone
  rwa [List.append_assoc] at h

/-- The bits of a receive: what is pending is flushed before the first (41 R157). -/
theorem recvBits_counts (p : SpiPins) (k : Nat) (acc : Byte) (s : State) :
    (recvBits p (k + 1) acc s).Counts s
      (pendingOps s.txbuf.length ++ (List.replicate (k + 1) [LinkOp.read, .write, .write]).flatten) fun t => t.txbuf = [] := by
  induction k generalizing acc s with
  | zero => exact (recvBit_counts p acc s).thenDone (v := fun a _ => a)
  | succ k ih =>
    have h := (recvBit_counts p acc s).andThen (f := fun a t => recvBits p (k + 1) a t)
      (ops' := (List.replicate (k + 1) [LinkOp.read, .write, .write]).flatten) fun a t _ ht => by simpa [ht, pendingOps] using ih a t
    rwa [List.append_assoc] at h

theorem fixCount_le (s : State) (clk : PinIx) : s.fixCount clk ≤ 1 := by
  unfold State.fixCount
  split <;> omega

/-- What is buffered below `MAX_PACKET` and at most one byte more are one WRITE, whether the byte fills the buffer or not. -/
theorem State.overflow_pending {k : Nat} (h : s.txbuf.length < s.cfg.maxPacket) (hk : k ≤ 1) :
    s.overflow k ++ pendingOps ((s.txbuf.length + k) % s.cfg.maxPacket) = pendingOps (s.txbuf.length + k) := by
  rcases Nat.lt_or_ge (s.txbuf.length + k) s.cfg.maxPacket with hlt | hge
  · rw [State.overflow, Nat.div_eq_of_lt hlt, Nat.mod_eq_of_lt hlt]
    rfl
  · have hm := maxPacket_pos s.cfg
    have heq : s.txbuf.length + k = s.cfg.maxPacket := by omega
    rw [State.overflow, heq, Nat.div_self hm, Nat.mod_self, pendingOps, pendingOps, if_pos rfl, if_neg hm.ne']
    rfl

/-- `SpiRecv()`: one WRITE of what is pending and of the correction, if there is any, then 8 bits (41 R157). -/
theorem spiRecv_counts (p : SpiPins) (h : s.txbuf.length < s.cfg.maxPacket) :
    (spiRecv p s).Counts s (pendingOps (s.txbuf.length + s.fixCount p.clk) ++ recvOps) fun t => t.txbuf = [] := by
  rw [← State.overflow_pending h (fixCount_le s p.clk), List.append_assoc]
  refine Run.Counts.andThen (clockIdleFix_buffers p h) fun _ t _ ht => ?_
  rw [← ht.1]
  exact recvBits_counts p 7 0x00#8 t

end Transfers

/-! ## The frames -/

section Frames

variable {s t : State} {p : SpiPins} {r : RegPins}

/-- Nothing buffered and the clock low, under the same parameters: what follows does not depend on what came before. -/
structure State.Settled (s : State) (clk : PinIx) (t : State) : Prop where
  cfg   : t.cfg = s.cfg
  txbuf : t.txbuf = []
  clk   : t.level clk = false

theorem State.lt_maxPacket_of_empty (h : t.txbuf = []) : t.txbuf.length < t.cfg.maxPacket := by
  rw [h]
  exact maxPacket_pos t.cfg

/-- A further byte of a frame (42 R188). -/
theorem spiSend_counts_next (h : s.Settled p.clk t) (v : Byte) : (spiSend p v t).Counts t (s.writesOf 17) (s.Settled p.clk) := by
  have hflush : (spiSend p v t).Flushes t 17 fun u => u.level p.clk = false := by
    simpa [State.fixCount, h.clk] using spiSend_flushes p v (State.lt_maxPacket_of_empty h.txbuf)
  rw [Run.Flushes, State.writesOf_congr h.cfg, h.txbuf] at hflush
  simp only [List.length_nil, Nat.zero_add] at hflush
  exact hflush.mono fun u hc ⟨htx, hclk⟩ => ⟨hc.evolves.cfg.trans h.cfg, htx, hclk⟩

theorem Run.andThen_assoc {α β γ : Type} (q : Run α) (f : α → State → Run β) (g : β → State → Run γ) :
    (q.andThen f).andThen g = q.andThen fun a t => (f a t).andThen g := by
  cases q <;> rfl

/-- CS low and the opcode byte, and what follows them (42 R187). -/
theorem frame_counts {α : Type} {rest : State → Run α} {ops : List LinkOp} {Q : State → Prop} (dev : DevAddr) (read : Bool)
    (h : s.txbuf.length < s.cfg.maxPacket) (hcs : r.cs ≠ p.clk)
    (hrest : ∀ u, s.Settled p.clk u → (rest u).Counts u ops Q) :
    ((csAssert r s).andThen fun _ s1 =>
      (spiSend p (opcode s1.cfg.opcNibble dev read) s1).andThen fun _ s2 => rest s2).Counts s
        (s.headOps p.clk s.txbuf.length ++ ops) Q := by
  have hhead : ((csAssert r s).andThen fun _ s1 => spiSend p (opcode s1.cfg.opcNibble dev read) s1).Flushes s
      (1 + (s.fixCount p.clk + 17)) fun u => u.level p.clk = false := by
    refine Run.Buffers.andThen_flushes (pushValue_buffers r.cs false h) fun _ t ht hsl => ?_
    have hfix : t.fixCount p.clk = s.fixCount p.clk := by
      rw [State.fixCount, State.level_congr (hsl _), State.level_setValue_ne _ _ hcs, State.fixCount]
    rw [← hfix]
    exact spiSend_flushes p _ ht
  have hops : s.headOps p.clk s.txbuf.length = s.writesOf (s.txbuf.length + (1 + (s.fixCount p.clk + 17))) := by
    rw [State.headOps, Nat.add_assoc, Nat.add_assoc]
  rw [← Run.andThen_assoc, hops]
  exact Run.Counts.andThen hhead fun _ u hc ⟨htx, hclk⟩ => hrest u ⟨hc.evolves.cfg, htx, hclk⟩

/-- `CsRelease()` (42 R187). -/
theorem csRelease_counts (s : State) (r : RegPins) : (csRelease r s).Counts s [.write] fun t => t.txbuf = [] :=
  pushValue_counts s r.cs true

/-- `RegWriteFrame(dev, reg, data)` (42 R188). -/
theorem writeFrame_counts (dev : DevAddr) (reg data : Byte) (h : s.txbuf.length < s.cfg.maxPacket) (hcs : r.cs ≠ p.clk) :
    (writeFrame p r dev reg data s).Counts s (s.writeFrameOps p.clk s.txbuf.length) fun t => t.txbuf = [] := by
  rw [State.writeFrameOps, List.append_assoc, List.append_assoc]
  exact frame_counts dev false h hcs fun u hu =>
    (spiSend_counts_next hu (regByte reg)).andThen fun _ v _ hv =>
      (spiSend_counts_next hv data).andThen fun _ w _ _ => csRelease_counts w r

/-- The read frame (42 R189). -/
theorem readFrame_counts (dev : DevAddr) (reg : Byte) (h : s.txbuf.length < s.cfg.maxPacket) (hcs : r.cs ≠ p.clk) :
    (readFrame p r dev reg s).Counts s (s.readFrameOps p.clk) fun t => t.txbuf = [] := by
  have hrecv (v : State) (hv : s.Settled p.clk v) : (spiRecv p v).Counts v recvOps fun t => t.txbuf = [] := by
    simpa [hv.txbuf, State.fixCount, hv.clk, pendingOps] using spiRecv_counts p (State.lt_maxPacket_of_empty hv.txbuf)
  rw [State.readFrameOps, List.append_assoc, List.append_assoc]
  exact frame_counts dev true h hcs fun u hu =>
    (spiSend_counts_next hu (regByte reg)).andThen fun _ v _ hv =>
      (hrecv v hv).andThen fun a w _ _ => (csRelease_counts w r).thenDone (v := fun _ _ => a)

/-- The order check is no link call (42 R191). -/
theorem State.calls_orderCheck (s : State) (dev : DevAddr) : s.Calls (s.orderCheck dev) [] := by
  refine .of_quiet (s.evolves_orderCheck dev) ?_ (by simp) (by simp)
  unfold State.orderCheck
  split
  · simp [linkOps_append, linkOps]
  · rfl

theorem State.headOps_orderCheck (s : State) (dev : DevAddr) (clk : PinIx) (n : Nat) :
    (s.orderCheck dev).headOps clk n = s.headOps clk n := by
  have hlevel : (s.orderCheck dev).level clk = s.level clk := State.level_congr (s.slot_orderCheck dev clk)
  simp [State.headOps, State.writesOf, State.fixCount, hlevel]

/-- REG_WRITE's order check and frame (42 R188, R191). -/
theorem checkedWriteFrame_counts (dev : DevAddr) (reg data : Byte) (h : s.txbuf.length < s.cfg.maxPacket) (hcs : r.cs ≠ p.clk) :
    (writeFrame p r dev reg data (s.orderCheck dev)).Counts s (s.writeFrameOps p.clk s.txbuf.length) fun t => t.txbuf = [] := by
  have hframe := writeFrame_counts (s := s.orderCheck dev) dev reg data (by simpa using h) hcs
  simp only [State.writeFrameOps, State.headOps_orderCheck, State.writesOf, State.orderCheck_txbuf, State.orderCheck_cfg] at hframe
  exact .of_calls (s.calls_orderCheck dev) hframe

/-- REG_READ's order check and frame (42 R189, R191). -/
theorem checkedReadFrame_counts (dev : DevAddr) (reg : Byte) (h : s.txbuf.length < s.cfg.maxPacket) (hcs : r.cs ≠ p.clk) :
    (readFrame p r dev reg (s.orderCheck dev)).Counts s (s.readFrameOps p.clk) fun t => t.txbuf = [] := by
  have hframe := readFrame_counts (s := s.orderCheck dev) dev reg (by simpa using h) hcs
  simp only [State.readFrameOps, State.headOps_orderCheck, State.writesOf, State.orderCheck_txbuf, State.orderCheck_cfg] at hframe
  exact .of_calls (s.calls_orderCheck dev) hframe

/-- The device reset is two WRITEs, whatever is buffered (42 R184). -/
theorem deviceReset_counts (s : State) (r : RegPins) : (deviceReset r s).Counts s ([.write] ++ [.write])
    fun t => t.txbuf = [] ∧ ∀ i, r.cs ≠ i → r.rst ≠ i → t.slot i = s.slot i := by
  have hset : s.Calls ((s.setValue r.cs true).setValue r.rst false) [] :=
    (s.calls_setValue r.cs true).trans ((s.setValue r.cs true).calls_setValue r.rst false)
  refine Run.Counts.andThen (.of_calls hset (pushState_forced_counts _)) fun _ t _ ht => ?_
  refine .of_calls (t.calls_setValue r.rst true) ((pushState_forced_counts _).mono fun u _ hu => ⟨hu.1, fun i hcs hrst => ?_⟩)
  rw [hu.2, State.slot_setValue_ne _ _ hrst, ht.2, State.slot_setValue_ne _ _ hrst, State.slot_setValue_ne _ _ hcs]

/-- REG_BIND's transfer: the device reset, then a write frame with nothing buffered (42 R184, R185). -/
theorem bindTransfer_counts (s : State) (hok : s.RegPinsOk p r) :
    (bindTransfer p r s).Counts s ([.write, .write] ++ s.writeFrameOps p.clk 0) fun t => t.txbuf = [] := by
  refine (deviceReset_counts s r).andThen fun _ t hc ht => ?_
  have hlevel : t.level p.clk = s.level p.clk := State.level_congr (ht.2 _ hok.cs_clk hok.rst_clk)
  have hops : t.writeFrameOps p.clk t.txbuf.length = s.writeFrameOps p.clk 0 := by
    simp [State.writeFrameOps, State.headOps, State.writesOf_congr hc.evolves.cfg, State.fixCount, hlevel, ht.1]
  rw [← hops]
  exact writeFrame_counts _ _ _ (State.lt_maxPacket_of_empty ht.1) hok.cs_clk

end Frames

/-! ## The instructions -/

section Instructions

variable {s : State} {ops : List LinkOp}

/-- Where none of the calls `ops` fails, the outcome `o` of a command run in `s` is an OK after exactly them, with nothing left
buffered. -/
def State.Makes (s : State) (o : Out) (ops : List LinkOp) : Prop :=
  s.linkGood ops.length → ∃ (t : State) (d : Byte), o = .next t ∧ t.responses = s.responses ++ [⟨.ok, d⟩] ∧ t.txbuf = [] ∧
    linkOps t.trace = linkOps s.trace ++ ops

/-- A command that ends with its procedure. -/
theorem finish_makes {c : Status} {r : Run Byte} (h : r.Counts s ops fun t => t.txbuf = []) : s.Makes (finish c r) ops := by
  intro hg
  obtain ⟨d, t, rfl, hc, htx⟩ := h hg
  exact ⟨t.respond .ok d, d, rfl, by rw [State.respond_responses, hc.evolves.responses], htx, hc.calls⟩

theorem State.checkPin_of_hasDir {i : PinIx} {d : Dir} (h : s.hasDir i d = true) : s.checkPin i d = none := by
  obtain ⟨p, hs, hd⟩ := State.hasDir_iff.1 h
  simp [State.checkPin, hs, hd]

/-- Pins that are as REG_BIND wants them pass its checks (42 R182). -/
theorem State.checkRegPins_of_ok {p : SpiPins} {r : RegPins} (hp : s.SpiPinsOk p) (hr : s.RegPinsOk p r) :
    s.checkRegPins p r = none := by
  rw [State.checkRegPins, if_neg (not_not.2 hr.nodup), State.checkPin_of_hasDir hr.cs, State.checkPin_of_hasDir hr.rst,
    State.checkSpiPins, if_neg (by simp [hp.clk_mosi, hp.clk_miso, hp.mosi_miso]), State.checkPin_of_hasDir hp.clk,
    State.checkPin_of_hasDir hp.mosi, State.checkPin_of_hasDir hp.miso]
  rfl

/-- SET_PINS that flushes (40 R120). -/
theorem exec_setPins_makes {force : Bool} (hp : s.open = true) (hf : force = true ∨ s.cfg.maxPacket ≤ s.txbuf.length + 1) :
    s.Makes (exec (.setPins force) s) [.write] := by
  rw [exec, execSetPins, if_pos hp, pushState_flushing hf]
  exact finish_makes (Run.Counts.thenDone (.of_calls s.calls_buffer ((flush_counts s.buffer).mono fun _ _ hq => hq.1)))

/-- GET_PINS (40 R125). -/
theorem exec_getPins_makes (hp : s.open = true) : s.Makes (exec .getPins s) (pendingOps s.txbuf.length ++ [.read]) := by
  rw [exec, execGetPins, if_pos hp]
  exact finish_makes (refresh_counts s).thenDone

/-- SPI_SEND (41 R154). -/
theorem exec_spiSend_makes {p : SpiPins} (hl : s.linked = true) (hs : s.spi = some p) (h : s.txbuf.length < s.cfg.maxPacket)
    (v : Byte) : s.Makes (exec (.spiSend v) s) (s.writesOf (s.txbuf.length + s.fixCount p.clk + 17)) := by
  rw [exec, execSpiSend, if_pos hl, hs, Nat.add_assoc]
  exact finish_makes (Run.Counts.thenDone ((spiSend_flushes p v h).mono fun _ _ hq => hq.1))

/-- SPI_RECV (41 R157). -/
theorem exec_spiRecv_makes {p : SpiPins} (hl : s.linked = true) (hs : s.spi = some p) (h : s.txbuf.length < s.cfg.maxPacket) :
    s.Makes (exec .spiRecv s) (pendingOps (s.txbuf.length + s.fixCount p.clk) ++ recvOps) := by
  rw [exec, execSpiRecv, if_pos hl, hs]
  exact finish_makes (spiRecv_counts p h)

/-- REG_BIND (42 R184, R185). -/
theorem exec_regBind_makes {clk mosi miso cs rst : PinIx} (ho : s.open = true) (hp : s.SpiPinsOk ⟨clk, mosi, miso⟩)
    (hr : s.RegPinsOk ⟨clk, mosi, miso⟩ ⟨cs, rst⟩) :
    s.Makes (exec (.regBind clk mosi miso cs rst) s) ([.write, .write] ++ s.writeFrameOps clk 0) := by
  intro hg
  let s0 : State := { s with spi := some ⟨clk, mosi, miso⟩, reg := some ⟨cs, rst⟩ }
  obtain ⟨_, t, ht, hc, htx⟩ := bindTransfer_counts s0 (hr.congr fun _ => rfl) (State.linkGood_congr rfl rfl rfl hg)
  refine ⟨State.respond { t with haenOk := true, phase := .ready } .ok 0x00#8, 0x00#8, ?_, ?_, htx, hc.calls⟩
  · rw [exec, execRegBind, if_pos ho, State.checkRegPins_of_ok hp hr]
    dsimp only
    rw [bindAndBroadcast_eq, ht]
    rfl
  · exact congrArg (· ++ [(⟨.ok, 0x00#8⟩ : Response)]) hc.evolves.responses

/-- In a phase with an SPI Link, the link is bound (10 R29). -/
theorem State.Inv.exists_spi (h : s.Inv) (hp : s.phase = .spi ∨ s.phase = .ready) : ∃ p, s.spi = some p :=
  Option.isSome_iff_exists.1 (h.spi_iff.2 hp)

/-- A register access, which in READY finds both links bound (10 R29, R30). -/
theorem withBus_makes {f : SpiPins → RegPins → Run Byte} (hinv : s.Inv) (hp : s.phase = .ready)
    (h : ∀ p r, s.spi = some p → r.cs ≠ p.clk → (f p r).Counts s ops fun t => t.txbuf = []) :
    s.Makes (s.withBus fun p r => finish .regAccessErr (f p r)) ops := by
  obtain ⟨p, hs⟩ := hinv.exists_spi (.inr hp)
  obtain ⟨r, hr⟩ := Option.isSome_iff_exists.1 (hinv.reg_iff.2 hp)
  rw [State.withBus_bound hp hs hr]
  exact finish_makes (h p r hs (hinv.reg_ok p r hs hr).cs_clk)

end Instructions

/-- Settles O50: each command's calls are those of its procedure, counted under the invariant's bound on the buffer. -/
theorem transferMakesItsLinkCalls : Obligations.TransferMakesItsLinkCalls := by
  intro s clk i hinv hacc hclk hbind hne
  have hb := hinv.txbuf
  change s.Makes (exec i s) (s.linkCalls clk i)
  cases i with
  | planeInit | close | setPin | getPin | inject | spiBind | planeInitEntry => exact absurd rfl hne
  | setPins force =>
    have hf : force = true ∨ s.cfg.maxPacket ≤ s.txbuf.length + 1 := by
      by_contra hf
      exact hne (if_neg hf)
    rw [State.linkCalls, if_pos hf]
    exact exec_setPins_makes hacc hf
  | getPins =>
    have hops : s.linkCalls clk .getPins = pendingOps s.txbuf.length ++ [.read] := by simp [State.linkCalls, pendingOps]
    rw [hops]
    exact exec_getPins_makes hacc
  | spiSend v =>
    obtain ⟨p, hs⟩ := hinv.exists_spi (by simpa [accepts] using hacc)
    obtain rfl := hclk p hs
    exact exec_spiSend_makes hacc hs hb v
  | spiRecv =>
    obtain ⟨p, hs⟩ := hinv.exists_spi (by simpa [accepts] using hacc)
    obtain rfl := hclk p hs
    exact exec_spiRecv_makes hacc hs hb
  | regBind c mo mi cs rst =>
    obtain ⟨hp, hr⟩ := hbind c mo mi cs rst rfl
    exact exec_regBind_makes hacc hp hr
  | regWrite dev reg data =>
    refine withBus_makes hinv (eq_of_beq hacc) fun p r hs hcs => ?_
    obtain rfl := hclk p hs
    exact (checkedWriteFrame_counts dev reg data hb hcs).thenDone
  | regRead dev reg =>
    refine withBus_makes hinv (eq_of_beq hacc) fun p r hs hcs => ?_
    obtain rfl := hclk p hs
    exact checkedReadFrame_counts dev reg hb hcs
  | frameWr dev reg data =>
    refine withBus_makes hinv (eq_of_beq hacc) fun p r hs hcs => ?_
    obtain rfl := hclk p hs
    exact (writeFrame_counts dev (reg.zeroExtend 8) data hb hcs).thenDone
  | frameRd dev reg =>
    refine withBus_makes hinv (eq_of_beq hacc) fun p r hs hcs => ?_
    obtain rfl := hclk p hs
    exact readFrame_counts dev (reg.zeroExtend 8) hb hcs

end Sys2Proof.Machine
end

section
/-!
Binding an SPI Link (41 R150, R151): the check of each pin as R151 words it, and SPI_BIND by the outcome of the checks.
-/

namespace Sys2Proof.Machine

/-- The check of one pin, as R151 words it. -/
theorem State.checkPin_eq (s : State) (i : PinIx) (d : Dir) :
    s.checkPin i d = if s.slot i = none then some .missing else if s.hasDir i d = false then some .direction else none := by
  cases hs : s.slot i with
  | none => simp [State.checkPin, hs]
  | some p => by_cases hd : p.dir = d <;> simp [State.checkPin, State.hasDir, hs, hd]

/-- A check that is followed by another, as one chain of conditions. -/
theorem ite_some_or {α : Type} {c : Prop} [Decidable c] (a : α) (o o' : Option α) :
    (if c then some a else o).or o' = if c then some a else o.or o' := by
  split <;> rfl

/-- Settles O31: the checks of the three pins, chained. -/
theorem spiPinChecksInOrder : Obligations.SpiPinChecksInOrder := by
  intro s p
  simp only [State.checkSpiPins, State.checkPin_eq, ite_some_or, Option.none_or]

/-- Pins that are as SPI_BIND wants them pass its checks (41 R151). -/
theorem State.checkSpiPins_of_ok {s : State} {p : SpiPins} (h : s.SpiPinsOk p) : s.checkSpiPins p = none := by
  rw [State.checkSpiPins, if_neg (by simp [h.clk_mosi, h.clk_miso, h.mosi_miso]), State.checkPin_of_hasDir h.clk,
    State.checkPin_of_hasDir h.mosi, State.checkPin_of_hasDir h.miso]
  rfl

/-- The checks pass for good pins and no others (10 R29, 41 R151). -/
theorem State.checkSpiPins_eq_none_iff {s : State} {p : SpiPins} : s.checkSpiPins p = none ↔ s.SpiPinsOk p :=
  ⟨State.spiPinsOk_of_check, State.checkSpiPins_of_ok⟩

/-- Settles O32, a clause for good pins, for bad pins and for the refusing phases. -/
theorem spiBindBindsOrTearsDown : Obligations.SpiBindBindsOrTearsDown := by
  refine fun s c mo mi => ⟨fun hp hok => ?_, fun hp hbad => ?_, fun hp => ?_⟩
  · rw [exec, execSpiBind, if_pos hp, State.checkSpiPins_of_ok hok]
    rfl
  · obtain ⟨reason, hr⟩ := Option.ne_none_iff_exists'.1 (mt State.checkSpiPins_eq_none_iff.1 hbad)
    refine ⟨reason, hr, ?_⟩
    rw [exec, execSpiBind, if_pos hp, hr]
    exact fatal_eq _ _ s
  · have hno : ¬ (s.phase = .plane ∨ s.phase = .spi) := by rcases hp with hp | hp <;> simp [hp]
    rw [exec, execSpiBind, if_neg hno]
    rfl

end Sys2Proof.Machine
end

section
/-!
SPI_SEND and SPI_RECV where no link call fails (41 R152 to R158): their outcomes from the runs of `SpiSend` and `SpiRecv`, and the bits
of the byte that eight samples make.
-/

namespace Sys2Proof.Machine

/-! ## Samples into a byte -/

theorem bitsMsb_injective {a b : Byte} (h : bitsMsb a = bitsMsb b) : a = b := by
  simp only [bitsMsb, List.cons.injEq, and_true] at h
  obtain ⟨h7, h6, h5, h4, h3, h2, h1, h0⟩ := h
  refine BitVec.eq_of_getLsbD_eq fun i hi => ?_
  interval_cases i <;> assumption

/-- A sample shifted in: the first bit leaves, the sample is last (41 R156). -/
theorem bitsMsb_shiftIn (acc : Byte) (b : Bool) : bitsMsb (shiftIn acc b) = (bitsMsb acc).tail ++ [b] := by
  simp [bitsMsb, shiftIn]

theorem bitsMsb_foldl_shiftIn (l : List Bool) (acc : Byte) :
    bitsMsb (l.foldl shiftIn acc) = (bitsMsb acc ++ l).drop l.length := by
  induction l generalizing acc with
  | nil => exact (List.append_nil _).symm
  | cons b l ih =>
    rw [List.foldl_cons, ih, bitsMsb_shiftIn, List.append_assoc]
    rfl

/-- Eight samples are the bits of their byte, whatever the accumulator held (41 R156). -/
theorem bitsMsb_foldl_shiftIn_of_length {l : List Bool} (h : l.length = 8) (acc : Byte) : bitsMsb (l.foldl shiftIn acc) = l := by
  rw [bitsMsb_foldl_shiftIn, h]
  rfl

theorem foldl_shiftIn_bitsMsb (acc v : Byte) : (bitsMsb v).foldl shiftIn acc = v :=
  bitsMsb_injective (bitsMsb_foldl_shiftIn_of_length rfl acc)

theorem exists_eight_of_length {α : Type} {l : List α} (h : l.length = 8) :
    ∃ a0 a1 a2 a3 a4 a5 a6 a7, l = [a0, a1, a2, a3, a4, a5, a6, a7] :=
  match l, h with
  | [_, _, _, _, _, _, _, _], _ => ⟨_, _, _, _, _, _, _, _, rfl⟩

/-! ## The commands -/

section Commands

variable {s t : State} {p : SpiPins}

theorem State.linked_iff : s.linked = true ↔ s.phase = .spi ∨ s.phase = .ready := by simp [State.linked]

/-- SPI_SEND whose procedure does not fail (41 R153). -/
theorem exec_spiSend_of_run {v : Byte} (hl : s.phase = .spi ∨ s.phase = .ready) (hs : s.spi = some p)
    (h : spiSend p v s = .done () t) : exec (.spiSend v) s = .next (t.respond .ok 0x00#8) := by
  rw [exec, execSpiSend, if_pos (State.linked_iff.2 hl), hs]
  dsimp only
  rw [h]
  rfl

/-- SPI_RECV whose procedure does not fail (41 R155). -/
theorem exec_spiRecv_of_run {d : Byte} (hl : s.phase = .spi ∨ s.phase = .ready) (hs : s.spi = some p)
    (h : spiRecv p s = .done d t) : exec .spiRecv s = .next (t.respond .ok d) := by
  rw [exec, execSpiRecv, if_pos (State.linked_iff.2 hl), hs]
  dsimp only
  rw [h]
  rfl

@[simp] theorem State.length_bitStates (s : State) (p : SpiPins) (bs : List Bool) : (s.bitStates p bs).length = 2 * bs.length := by
  induction bs with
  | nil => rfl
  | cons b bs ih => simp [State.bitStates, ih, Nat.mul_succ]

/-- A byte sent is 17 states (41 R154). -/
theorem State.length_sendStates (s : State) (p : SpiPins) (v : Byte) : (s.sendStates p v).length = 17 := by
  simp [State.sendStates, bitsMsb]

/-- RST is neither of the pins that a send writes (10 R30). -/
theorem State.RegPinsOk.rst_not_sent {r : RegPins} (h : s.RegPinsOk p r) : ¬ p.driven r.rst := fun hd =>
  hd.elim h.rst_clk h.rst_mosi

/-- With RST high, where the Register Protocol is bound, moves that leave RST alone keep the ghost (10 R32). -/
theorem State.Moves.haenOk_of_regPins {T : PinIx → Prop} {bs : List Byte} {rs : List (Option Byte)} {k : Nat}
    (h : s.Moves t T bs rs k) (hT : ∀ r, s.RegPinsOk p r → ¬ T r.rst)
    (hr : ∀ r, s.reg = some r → s.RegPinsOk p r ∧ s.level r.rst = true) : t.haenOk = s.haenOk :=
  h.ghost fun r hreg =>
    have ⟨hok, hl⟩ := hr r hreg
    ⟨hok.rst, hl, hT r hok⟩

/-- Settles O33: the run of `SpiSend` and an OK. -/
theorem spiSendPushesTheByte : Obligations.SpiSendPushesTheByte := by
  intro s p v hl hs hp hg
  obtain ⟨t, ht, hm, htx, hclk, hmosi⟩ := spiSend_moves hp v hg
  refine ⟨t.respond .ok 0x00#8, exec_spiSend_of_run hl hs ht, ?_, hm.stream, s.length_sendStates p v, htx, hclk, hmosi,
    hm.sameOutside.respond _ _, hm.haenOk_of_regPins fun _ => State.RegPinsOk.rst_not_sent⟩
  rw [State.respond_responses, hm.evolves.responses]

/-- Settles O35: the run of `SpiRecv`, whose eight samples are the bits of its byte, and an OK. -/
theorem spiRecvReturnsEightSamples : Obligations.SpiRecvReturnsEightSamples := by
  intro s p hl hs hp hg
  obtain ⟨bs, t, hlen, ht, hm, htx, hclk, hmosi⟩ := spiRecv_moves hp hg
  obtain ⟨b0, b1, b2, b3, b4, b5, b6, b7, rfl⟩ := exists_eight_of_length hlen
  have hbits := bitsMsb_foldl_shiftIn_of_length (l := [b0, b1, b2, b3, b4, b5, b6, b7].map (bitAt · p.miso)) rfl 0x00#8
  simp only [bitsMsb, List.map_cons, List.map_nil, List.cons.injEq, and_true] at hbits
  obtain ⟨h7, h6, h5, h4, h3, h2, h1, h0⟩ := hbits
  refine ⟨b0, b1, b2, b3, b4, b5, b6, b7, _, _, exec_spiRecv_of_run hl hs ht, ?_, hm.reads, h7, h6, h5, h4, h3, h2, h1, h0,
    hm.stream, htx, hclk, hmosi, hm.sameOutside.respond _ _, hm.haenOk_of_regPins fun r hr => ?_⟩
  · rw [State.respond_responses, hm.evolves.responses]
    rfl
  · exact fun h => h.elim hr.rst_clk hr.rst_not_input

end Commands

end Sys2Proof.Machine
end

section
/-!
The WRITEs of SPI_SEND (41 R154): their number from the counted run, and what a single one carries from the stream of the moves.
-/

namespace Sys2Proof.Machine

theorem length_writeCalls (es : List Event) : (writeCalls es).length = (linkOps es).count .write := by
  induction es with
  | nil => rfl
  | cons e es ih => cases e <;> simp [writeCalls, linkOps, ih]

theorem sent_of_no_writeCalls {es : List Event} (h : writeCalls es = []) : sent es = [] := by
  induction es with
  | nil => rfl
  | cons e es ih => cases e <;> simp_all [writeCalls, sent]

/-- A single WRITE sends what it carries, or nothing if it failed (40 R122). -/
theorem sent_of_one_writeCall {es : List Event} {bytes : List Byte} (h : writeCalls es = [bytes]) :
    sent es = [] ∨ sent es = bytes := by
  induction es with
  | nil => cases h
  | cons e es ih =>
    cases e with
    | write bs answer =>
      obtain ⟨rfl, hes⟩ := List.cons.inj h
      cases answer <;> simp [sent, sent_of_no_writeCalls hes]
    | _ => exact ih h

section Send

variable {s t : State} {p : SpiPins}

theorem State.length_fixStates (s : State) (p : SpiPins) : (s.fixStates p).length = s.fixCount p.clk := by
  unfold State.fixStates State.fixCount
  split <;> rfl

/-- With the correction, if one is needed, a byte sent is 17 or 18 states (41 R154). -/
theorem State.fixCount_add (s : State) (clk : PinIx) : s.fixCount clk + 17 = if s.level clk then 18 else 17 := by
  unfold State.fixCount
  split <;> rfl

/-- Below `MAX_PACKET` a send makes at most 18 WRITEs (41 R154). -/
theorem State.length_writesOf_send_le (h : s.txbuf.length < s.cfg.maxPacket) (clk : PinIx) :
    (s.writesOf (s.txbuf.length + (s.fixCount clk + 17))).length ≤ 18 := by
  have hfix := fixCount_le s clk
  have hm := maxPacket_pos s.cfg
  rw [State.writesOf, List.length_replicate]
  exact Nat.le_of_lt_succ (Nat.div_lt_of_lt_mul (show _ < s.cfg.maxPacket * 19 by omega))

/-- `n` bytes that fit in one packet are one WRITE (41 R154). -/
theorem State.writesOf_of_le {n : Nat} (h0 : 0 < n) (h : n ≤ s.cfg.maxPacket) : s.writesOf n = [.write] := by
  have hdiv : (n + (s.cfg.maxPacket - 1)) / s.cfg.maxPacket = 1 := Nat.div_eq_of_lt_le (by omega) (by omega)
  rw [State.writesOf, hdiv]
  rfl

/-- Where all of a stream's new bytes, buffered ones included, went out in one WRITE, that WRITE carries them (40 R122). -/
theorem State.Moves.writeCalls_of_one {T : PinIx → Prop} {bs : List Byte} {rs : List (Option Byte)} {k : Nat}
    (h : s.Moves t T bs rs k) (htx : t.txbuf = []) (hbs : bs ≠ []) (hops : linkOps t.trace = linkOps s.trace ++ [.write]) :
    writeCalls t.trace = writeCalls s.trace ++ [s.txbuf ++ bs] := by
  obtain ⟨ext, hext, -⟩ := h.evolves.trace
  rw [hext, linkOps_append, List.append_cancel_left_eq] at hops
  have hsent : sent ext = s.txbuf ++ bs := by
    have hst := h.stream
    rw [State.stream, State.stream, htx, hext, sent_append, List.append_nil, List.append_assoc] at hst
    exact List.append_cancel_left hst
  obtain ⟨bytes, hone⟩ : ∃ bytes, writeCalls ext = [bytes] := by
    rw [← List.length_eq_one_iff, length_writeCalls, hops]
    rfl
  rw [hext, writeCalls_append, hone]
  rcases sent_of_one_writeCall hone with hnil | hall
  · simp [hsent, hbs] at hnil
  · rw [← hall, hsent]

/-- Settles O34: the moves of the run give its states, the counted run its WRITEs. -/
theorem spiSendWriteCount : Obligations.SpiSendWriteCount := by
  intro s p v hl hs hp hg hlt
  obtain ⟨t, ht, hm, htx, -⟩ := spiSend_moves hp v hg
  obtain ⟨_, t', ht', hc, -⟩ := spiSend_flushes p v hlt (State.linkGood_mono (s.length_writesOf_send_le hlt p.clk) hg)
  obtain ⟨-, rfl⟩ := Run.done.inj (ht.symm.trans ht')
  have hcalls := hc.calls
  rw [State.fixCount_add] at hcalls
  have hlen : (s.fixStates p ++ s.sendStates p v).length = if s.level p.clk then 18 else 17 := by
    rw [List.length_append, State.length_fixStates, State.length_sendStates, State.fixCount_add]
  refine ⟨_, exec_spiSend_of_run hl hs ht, hm.stream, htx, hlen, ?_, fun hle => ?_⟩
  · rw [State.respond_trace, length_writeCalls, hcalls, List.count_append, ← length_writeCalls, State.writesOf,
      List.count_replicate_self]
  · rw [State.writesOf_of_le (by split <;> omega) hle] at hcalls
    exact hm.writeCalls_of_one htx (List.ne_nil_of_length_pos (by rw [hlen]; split <;> omega)) hcalls

end Send

end Sys2Proof.Machine
end

section
/-!
Transfers in simulation mode, where no answer is short (20 R66): the trace of a receive exactly (41 R157), and the bytes that a send puts
on the wire.
-/

namespace Sys2Proof.Machine

/-! ## What is pending -/

/-- The WRITE of what is pending, answered in full; none if nothing is (40 R122, R125). -/
def pendingWrites (bytes : List Byte) : List Event := if bytes = [] then [] else [.write bytes (some bytes.length)]

theorem pendingWrites_of_ne {bytes : List Byte} (h : bytes ≠ []) :
    pendingWrites bytes = [.write bytes (some bytes.length)] := if_neg h

theorem sent_pendingWrites (bytes : List Byte) : sent (pendingWrites bytes) = bytes := by
  unfold pendingWrites
  split <;> simp_all [sent]

theorem wireBytes_pendingWrites (bytes : List Byte) : wireBytes (pendingWrites bytes) = bytes := by
  unfold pendingWrites
  split <;> simp_all [wireBytes]

theorem readAnswers_pendingWrites (bytes : List Byte) : readAnswers (pendingWrites bytes) = [] := by
  unfold pendingWrites
  split <;> rfl

/-- The trace as it is once what is pending is flushed. -/
def State.flushedTrace (s : State) : List Event := s.trace ++ pendingWrites s.txbuf

section Simulated

variable {s t : State} {p : SpiPins}

theorem State.flushedTrace_of_empty (h : s.txbuf = []) : s.flushedTrace = s.trace := by
  rw [State.flushedTrace, h]
  exact List.append_nil _

theorem State.sent_flushedTrace (s : State) : sent s.flushedTrace = s.stream := by
  rw [State.flushedTrace, sent_append, sent_pendingWrites, State.stream]

/-- A flush in simulation mode (40 R122). -/
theorem flush_trace_sim (hs : s.sim = true) (hne : s.txbuf ≠ []) :
    ∃ t, flush s = .done () t ∧ t.trace = s.flushedTrace ∧ t.txbuf = [] := by
  refine ⟨_, flush_sim hs, ?_, rfl⟩
  rw [State.flushedTrace, pendingWrites_of_ne hne]
  rfl

/-- A push in simulation mode, flushed or not (40 R120). -/
theorem pushState_trace_sim (hs : s.sim = true) (force : Bool) :
    ∃ t, pushState force s = .done () t ∧ t.flushedTrace = s.trace ++ pendingWrites (s.txbuf ++ [s.pinByte]) := by
  have hbuf : s.buffer.flushedTrace = s.trace ++ pendingWrites (s.txbuf ++ [s.pinByte]) := by
    rw [State.flushedTrace, State.buffer_trace, State.buffer_txbuf]
  unfold pushState
  split
  · obtain ⟨t, ht, htr, htx⟩ := flush_trace_sim (s := s.buffer) (by simpa using hs) (by simp)
    exact ⟨t, ht, by rw [State.flushedTrace_of_empty htx, htr, hbuf]⟩
  · exact ⟨_, rfl, hbuf⟩

/-- A forced push in simulation mode with nothing pending is a one-byte WRITE (40 R120). -/
theorem pushState_forced_sim (hs : s.sim = true) (htx : s.txbuf = []) :
    ∃ t, pushState true s = .done () t ∧ t.trace = s.trace ++ [.write [s.pinByte] (some 1)] ∧ t.txbuf = [] ∧ t.sim = true := by
  obtain ⟨t, ht, hm, hempty⟩ := pushState_moves (s := s) true (.inl hs) fun _ => False
  obtain ⟨t', ht', htr⟩ := pushState_trace_sim hs true
  obtain ⟨-, rfl⟩ := Run.done.inj (ht.symm.trans ht')
  rw [State.flushedTrace_of_empty (hempty rfl), htx] at htr
  exact ⟨t, ht, htr, hempty rfl, hm.evolves.sim.trans hs⟩

/-- A refresh in simulation mode: what is pending is flushed, then `sim_source` answers the READ (20 R66, 40 R125). -/
theorem refresh_trace_sim (hs : s.sim = true) :
    ∃ t, refresh s = .done () t ∧ t.trace = s.flushedTrace ++ [.read (some (simRead s.cfg s.inject s.flushedTrace))] ∧
      t.txbuf = [] ∧ t.sim = true := by
  obtain ⟨b, t, ht, hm, htx, -, r, hr, -, -, hb, htrace⟩ := refresh_moves (s := s) (.inl hs)
  have hflushed : r.trace = s.flushedTrace := by
    split at hr
    · next h0 =>
      cases hr
      exact (State.flushedTrace_of_empty h0).symm
    · next hne =>
      obtain ⟨r', hr', htr, -⟩ := flush_trace_sim hs hne
      rw [hr'] at hr
      cases hr
      exact htr
  rw [hb hs, hflushed] at htrace
  exact ⟨t, ht, htrace, htx, hm.evolves.sim.trans hs⟩

/-! ## SpiRecv -/

/-- The clock's correction in simulation mode: flagged, and pending or already flushed (41 R152). -/
theorem clockIdleFix_trace_sim (p : SpiPins) (hs : s.sim = true) :
    ∃ t, clockIdleFix p s = .done () t ∧ t.flushedTrace =
      s.trace ++ (if s.level p.clk then [.clkNotIdle] else []) ++ pendingWrites (s.txbuf ++ s.fixStates p) := by
  unfold clockIdleFix State.fixStates
  split
  · exact pushState_trace_sim (s := (s.record .clkNotIdle).setValue p.clk false) hs false
  · exact ⟨s, rfl, by simp [State.flushedTrace]⟩

/-- The events of a bit received as `b`, with nothing pending (41 R157). -/
def State.bitEvents (s : State) (p : SpiPins) (b : Byte) : List Event :=
  [.read (some b), .write [s.wireState p true (s.level p.mosi)] (some 1), .write [s.wireState p false (s.level p.mosi)] (some 1)]

theorem State.bitEvents_congr (hw : ∀ c d, t.wireState p c d = s.wireState p c d) (hmosi : t.level p.mosi = s.level p.mosi) :
    t.bitEvents p = s.bitEvents p := by
  funext b
  rw [State.bitEvents, hw, hw, hmosi, State.bitEvents]

/-- The events of a receive's bit, whatever the two states are. -/
theorem recvBit_trace_sim (p : SpiPins) (acc : Byte) (hs : s.sim = true) :
    ∃ (d x y : Byte) (t : State), recvBit p acc s = .done d t ∧ t.trace = s.flushedTrace ++
      [.read (some (simRead s.cfg s.inject s.flushedTrace)), .write [x] (some 1), .write [y] (some 1)] := by
  obtain ⟨t, ht, htr, htx, hts⟩ := refresh_trace_sim hs
  obtain ⟨u, hu, hur, hux, hus⟩ := pushState_forced_sim (s := t.setValue p.clk true) hts htx
  obtain ⟨w, hw, hwr, -⟩ := pushState_forced_sim (s := u.setValue p.clk false) hus hux
  refine ⟨shiftIn acc (t.level p.miso), (t.setValue p.clk true).pinByte, (u.setValue p.clk false).pinByte, w, ?_, ?_⟩
  · rw [recvBit, ht]
    simp only [Run.andThen, hu, hw]
  · rw [hwr, State.setValue_trace, hur, State.setValue_trace, htr, List.append_assoc, List.append_assoc]
    rfl

/-- One bit received in simulation mode: the sample is MISO's bit of what `sim_source` answers to the trace so far (41 R155, R157). -/
theorem recvBit_sim (hp : s.SpiPinsOk p) (acc : Byte) (hs : s.sim = true) :
    ∃ (b : Byte) (t : State), b = simRead s.cfg s.inject s.flushedTrace ∧
      recvBit p acc s = .done (shiftIn acc (bitAt b p.miso)) t ∧ t.trace = s.flushedTrace ++ s.bitEvents p b ∧
      s.Evolves t ∧ t.txbuf = [] ∧ (∀ c d, t.wireState p c d = s.wireState p c d) ∧ t.level p.mosi = s.level p.mosi := by
  obtain ⟨b, t, ht, hm, htx, -, hmosi⟩ := recvBit_moves hp acc (.inl hs)
  obtain ⟨d, x, y, t', ht', htr⟩ := recvBit_trace_sim p acc hs
  obtain ⟨-, rfl⟩ := Run.done.inj (ht.symm.trans ht')
  have hread := hm.reads
  rw [htr, State.flushedTrace, readAnswers_append, readAnswers_append, readAnswers_pendingWrites, List.append_nil,
    List.append_cancel_left_eq] at hread
  obtain rfl : simRead s.cfg s.inject s.flushedTrace = b := by simpa [readAnswers, State.flushedTrace] using hread
  have hsent := hm.stream
  rw [State.stream, htx, List.append_nil, htr, sent_append, State.sent_flushedTrace, List.append_cancel_left_eq] at hsent
  obtain ⟨rfl, rfl⟩ : x = s.wireState p true (s.level p.mosi) ∧ y = s.wireState p false (s.level p.mosi) := by
    simpa [sent] using hsent
  exact ⟨_, t, rfl, ht, htr, hm.evolves, htx, State.wireState_congr hp hm.evolves.shape
    (State.outputs_of_moves hm fun i hi => hi.elim (fun h => .inl (.inl h)) .inr), hmosi⟩

/-- The bits of a receive in simulation mode: what is pending is flushed before the first (41 R157). -/
theorem recvBits_sim (hp : s.SpiPinsOk p) (k : Nat) (acc : Byte) (hs : s.sim = true) :
    ∃ (bs : List Byte) (d : Byte) (t : State), bs.length = k + 1 ∧ recvBits p (k + 1) acc s = .done d t ∧
      t.trace = s.flushedTrace ++ (bs.map (s.bitEvents p)).flatten := by
  induction k generalizing acc s with
  | zero =>
    obtain ⟨b, t, -, ht, htr, -⟩ := recvBit_sim hp acc hs
    refine ⟨[b], shiftIn acc (bitAt b p.miso), t, rfl, ?_, by simpa using htr⟩
    rw [recvBits, ht]
    rfl
  | succ k ih =>
    obtain ⟨b, t, -, ht, htr, he, htx, hw, hmosi⟩ := recvBit_sim hp acc hs
    obtain ⟨bs, d, u, hlen, hu, hur⟩ := ih (hp.congr he.shape) (shiftIn acc (bitAt b p.miso)) (he.sim.trans hs)
    refine ⟨b :: bs, d, u, by rw [List.length_cons, hlen], ?_, ?_⟩
    · rw [recvBits, ht]
      exact hu
    · rw [hur, State.flushedTrace_of_empty htx, htr, State.bitEvents_congr hw hmosi, List.append_assoc, List.map_cons, List.flatten_cons]

end Simulated

/-- Settles O36: the correction, then eight bits, the first after what is pending. -/
theorem spiRecvLinkTransactions : Obligations.SpiRecvLinkTransactions := by
  intro s p hl hs hp hsim
  obtain ⟨t, ht, hm, -, -⟩ := clockIdleFix_moves (s := s) (p := p) (.inl hsim)
  obtain ⟨t', ht', htr⟩ := clockIdleFix_trace_sim p hsim
  obtain ⟨-, rfl⟩ := Run.done.inj (ht.symm.trans ht')
  have hm' := hm.mono (T' := p.driven) (fun i hi => .inl hi) le_rfl
  have hw := State.wireState_congr hp hm.evolves.shape (State.outputs_of_moves hm' fun i hi => .inl hi)
  have hmosi : t.level p.mosi = s.level p.mosi := State.level_congr (hm.pins _ (Ne.symm hp.clk_mosi))
  obtain ⟨bs, d, u, hlen, hu, hur⟩ := recvBits_sim (hp.congr hm.evolves.shape) 7 0x00#8 (hm.evolves.sim.trans hsim)
  have hrecv : spiRecv p s = .done d u := by
    rw [spiRecv, ht]
    exact hu
  refine ⟨bs, u.respond .ok d, hlen, exec_spiRecv_of_run hl hs hrecv, ?_⟩
  rw [State.respond_trace, hur, htr, State.bitEvents_congr hw hmosi]
  rfl

end Sys2Proof.Machine
end

section
/-!
The loop-back shift register LB on the bound pins (41 R161, 95 section 1): what a send shifts into it, and what a receive reads out.
-/

namespace Sys2Proof.Machine

/-! ## The wire -/

/-- What is on the wire once what is pending is flushed in full: the counterpart of `stream` that a device sees (20 R68). -/
def State.wire (s : State) : List Byte := wireBytes s.trace ++ s.txbuf

/-- From `s` to `t` every byte pushed goes to the wire: in simulation mode no WRITE is short or fails (20 R66). -/
structure State.WritesInFull (s t : State) : Prop where
  sim  : t.sim = s.sim
  full : s.sim = true → ∃ bs, t.stream = s.stream ++ bs ∧ t.wire = s.wire ++ bs

/-- A run that, if it ends, wrote in full. -/
def Run.WritesInFull {α : Type} (s : State) (r : Run α) : Prop := ∀ a t, r = .done a t → s.WritesInFull t

section Wire

variable {α β : Type} {s t u : State} {p : SpiPins}

theorem State.wireBytes_flushedTrace (s : State) : wireBytes s.flushedTrace = s.wire := by
  rw [State.flushedTrace, wireBytes_append, wireBytes_pendingWrites, State.wire]

theorem State.WritesInFull.trans (h1 : s.WritesInFull t) (h2 : t.WritesInFull u) : s.WritesInFull u where
  sim := h2.sim.trans h1.sim
  full hs := by
    obtain ⟨b1, hst1, hw1⟩ := h1.full hs
    obtain ⟨b2, hst2, hw2⟩ := h2.full (h1.sim.trans hs)
    exact ⟨b1 ++ b2, by rw [hst2, hst1, List.append_assoc], by rw [hw2, hw1, List.append_assoc]⟩

/-- A change that pushes nothing. -/
theorem State.WritesInFull.of_quiet (hsim : t.sim = s.sim) (hst : t.stream = s.stream) (hw : t.wire = s.wire) : s.WritesInFull t :=
  ⟨hsim, fun _ => ⟨[], by rw [hst, List.append_nil], by rw [hw, List.append_nil]⟩⟩

theorem Run.WritesInFull.andThen {r : Run α} {f : α → State → Run β} (hr : r.WritesInFull s)
    (hf : ∀ a t, (f a t).WritesInFull t) : (r.andThen f).WritesInFull s := by
  intro b u hu
  cases r with
  | done a t => exact (hr a t rfl).trans (hf a t b u hu)
  | failed k t => cases hu

theorem Run.WritesInFull.after {r : Run α} (h : r.WritesInFull t) (hs : s.WritesInFull t) : r.WritesInFull s :=
  fun a u hu => hs.trans (h a u hu)

theorem Run.writesInFull_done (a : α) (s : State) : (Run.done a s).WritesInFull s := by
  rintro _ _ ⟨⟩
  exact .of_quiet rfl rfl rfl

/-- A push writes in full, flushed or not (40 R120). -/
theorem pushState_writesInFull (force : Bool) (s : State) : (pushState force s).WritesInFull s := by
  intro a t ht
  refine ⟨((Composed.push force).transfers ht).evolves.sim, fun hs => ?_⟩
  obtain ⟨t', ht', htr⟩ := pushState_trace_sim hs force
  obtain ⟨-, rfl⟩ := Run.done.inj (ht.symm.trans ht')
  refine ⟨[s.pinByte], ?_, ?_⟩
  · rw [← State.sent_flushedTrace, htr, sent_append, sent_pendingWrites, ← List.append_assoc]
    rfl
  · rw [← State.wireBytes_flushedTrace, htr, wireBytes_append, wireBytes_pendingWrites, ← List.append_assoc]
    rfl

theorem pushValue_writesInFull (force : Bool) (s : State) (i : PinIx) (b : Bool) :
    (pushState force (s.setValue i b)).WritesInFull s :=
  (pushState_writesInFull force _).after (.of_quiet rfl rfl rfl)

theorem clockIdleFix_writesInFull (p : SpiPins) (s : State) : (clockIdleFix p s).WritesInFull s := by
  unfold clockIdleFix
  split
  · refine (pushValue_writesInFull false (s.record .clkNotIdle) p.clk false).after (.of_quiet rfl ?_ ?_)
    · simp [State.stream, sent_append, sent]
    · simp [State.wire, wireBytes_append, wireBytes]
  · exact Run.writesInFull_done () s

theorem sendBit_writesInFull (p : SpiPins) (b : Bool) (s : State) : (sendBit p b s).WritesInFull s := by
  have hlow : (pushState false ((s.setValue p.clk false).setValue p.mosi b)).WritesInFull s :=
    (pushValue_writesInFull false (s.setValue p.clk false) p.mosi b).after (.of_quiet rfl rfl rfl)
  exact hlow.andThen fun _ t => pushValue_writesInFull false t p.clk true

theorem sendBits_writesInFull (p : SpiPins) (bs : List Bool) (s : State) : (sendBits p bs s).WritesInFull s := by
  induction bs generalizing s with
  | nil => exact Run.writesInFull_done () s
  | cons b bs ih => exact (sendBit_writesInFull p b s).andThen fun _ t => ih t

theorem spiSend_writesInFull (p : SpiPins) (v : Byte) (s : State) : (spiSend p v s).WritesInFull s :=
  (clockIdleFix_writesInFull p s).andThen fun _ t =>
    (sendBits_writesInFull p (bitsMsb v) t).andThen fun _ u => pushValue_writesInFull true u p.clk false

/-- What moves that write in full push is what they put on the wire. -/
theorem State.Moves.wire {T : PinIx → Prop} {bs : List Byte} {rs : List (Option Byte)} {k : Nat} (h : s.Moves t T bs rs k)
    (hw : s.WritesInFull t) (hs : s.sim = true) : t.wire = s.wire ++ bs := by
  obtain ⟨bs', hst, hwire⟩ := hw.full hs
  rw [h.stream] at hst
  rw [hwire, List.append_cancel_left hst]

end Wire

/-! ## LB -/

section LoopBack

variable {s t : State} {p : SpiPins}

/-- A byte with the clock low shifts nothing in. -/
theorem LbDev.see_low {clk : PinIx} {x : Byte} (h : bitAt x clk = false) (mosi : PinIx) (d : LbDev) :
    d.see clk mosi x = ⟨x, d.sr⟩ := by
  simp [LbDev.see, h]

/-- A rising edge shifts MOSI in. -/
theorem LbDev.see_rise {clk : PinIx} {d : LbDev} {x : Byte} (hd : bitAt d.prev clk = false) (hx : bitAt x clk = true)
    (mosi : PinIx) : d.see clk mosi x = ⟨x, shiftIn d.sr (bitAt x mosi)⟩ := by
  simp [LbDev.see, hd, hx]

/-- The levels of CLK and MOSI in the state `S(c, d)` of 41 are `c` and `d`. -/
theorem State.bitAt_wireState (hp : s.SpiPinsOk p) (c d : Bool) :
    bitAt (s.wireState p c d) p.clk = c ∧ bitAt (s.wireState p c d) p.mosi = d := by
  have hmosi : (s.setValue p.clk c).hasDir p.mosi .output = true := by simpa using hp.mosi
  constructor
  · rw [State.wireState, State.bitAt_pinByte, State.level_setValue_ne _ _ hp.clk_mosi.symm, State.level_setValue]
    simp [hp.clk, State.isSome_of_hasDir hp.clk]
  · rw [State.wireState, State.bitAt_pinByte, State.level_setValue]
    simp [hp.mosi, State.isSome_of_hasDir hmosi]

/-- LB after what is on the wire. -/
def State.loopBack (s : State) (p : SpiPins) : LbDev := LbDev.run p.clk p.mosi s.wire

theorem State.loopBack_of_wire {bs : List Byte} (h : t.wire = s.wire ++ bs) :
    t.loopBack p = bs.foldl (LbDev.see p.clk p.mosi) (s.loopBack p) := by
  rw [State.loopBack, h, LbDev.run, List.foldl_append, State.loopBack, LbDev.run]

/-- Each bit sent is shifted in at its rising edge (41 R153). -/
theorem State.see_bitStates (hp : s.SpiPinsOk p) (bs : List Bool) (d : LbDev) :
    ((s.bitStates p bs).foldl (LbDev.see p.clk p.mosi) d).sr = bs.foldl shiftIn d.sr := by
  induction bs generalizing d with
  | nil => rfl
  | cons b bs ih =>
    obtain ⟨hlow, -⟩ := State.bitAt_wireState hp false b
    obtain ⟨hhigh, hmosi⟩ := State.bitAt_wireState hp true b
    rw [State.bitStates, List.foldl_cons, List.foldl_cons, ih, LbDev.see_low hlow, LbDev.see_rise hlow hhigh, hmosi,
      List.foldl_cons]

/-- A byte sent is what LB then holds, with the clock low, whatever LB was before (41 R161). -/
theorem State.see_sendStates (hp : s.SpiPinsOk p) (v : Byte) (d : LbDev) :
    (s.sendStates p v).foldl (LbDev.see p.clk p.mosi) d = ⟨s.wireState p false (v.getLsbD 0), v⟩ := by
  rw [State.sendStates, List.foldl_append, List.foldl_cons, List.foldl_nil,
    LbDev.see_low (State.bitAt_wireState hp false _).1, State.see_bitStates hp, foldl_shiftIn_bitsMsb]

/-- A bit received: LB presents its most significant bit and takes MOSI's level behind it (41 R161). -/
theorem recvBit_loopBack (hp : s.SpiPinsOk p) (acc : Byte) (hs : s.sim = true)
    (hsrc : s.cfg.simSource = .loopBack p.clk p.mosi p.miso) (hlow : bitAt (s.loopBack p).prev p.clk = false) :
    ∃ t, recvBit p acc s = .done (shiftIn acc ((s.loopBack p).sr.getLsbD 7)) t ∧ s.Evolves t ∧
      bitAt (t.loopBack p).prev p.clk = false ∧ (t.loopBack p).sr = shiftIn (s.loopBack p).sr (s.level p.mosi) := by
  obtain ⟨b, t, hb, ht, htr, he, htx, -⟩ := recvBit_sim hp acc hs
  obtain ⟨hhigh, hmosi⟩ := State.bitAt_wireState hp true (s.level p.mosi)
  obtain ⟨hclk, -⟩ := State.bitAt_wireState hp false (s.level p.mosi)
  have hsample : bitAt b p.miso = (s.loopBack p).sr.getLsbD 7 := by
    rw [hb, simRead, hsrc]
    simp [bitOnly, State.wireBytes_flushedTrace, State.loopBack]
  have hwire : t.wire = s.wire ++ [s.wireState p true (s.level p.mosi), s.wireState p false (s.level p.mosi)] := by
    rw [State.wire, htx, List.append_nil, htr, wireBytes_append, State.wireBytes_flushedTrace]
    rfl
  have hlb := State.loopBack_of_wire (p := p) hwire
  rw [List.foldl_cons, List.foldl_cons, List.foldl_nil, LbDev.see_rise hlow hhigh, LbDev.see_low hclk, hmosi] at hlb
  rw [hsample] at ht
  exact ⟨t, ht, he, by rw [hlb]; exact hclk, by rw [hlb]⟩

/-- `k` bits received are the `k` most significant ones of LB, in order (41 R161). -/
theorem recvBits_loopBack {k : Nat} (hk : k ≤ 8) (hp : s.SpiPinsOk p) (acc : Byte) (hs : s.sim = true)
    (hsrc : s.cfg.simSource = .loopBack p.clk p.mosi p.miso) (hlow : bitAt (s.loopBack p).prev p.clk = false) :
    ∃ t, recvBits p k acc s = .done (((bitsMsb (s.loopBack p).sr).take k).foldl shiftIn acc) t := by
  induction k generalizing acc s with
  | zero => exact ⟨s, rfl⟩
  | succ k ih =>
    obtain ⟨t, ht, he, hlow', hsr⟩ := recvBit_loopBack hp acc hs hsrc hlow
    obtain ⟨u, hu⟩ := ih (by omega) (hp.congr he.shape) (shiftIn acc ((s.loopBack p).sr.getLsbD 7)) (he.sim.trans hs)
      (by rwa [he.cfg]) hlow'
    have htake : (bitsMsb (s.loopBack p).sr).take (k + 1) =
        (s.loopBack p).sr.getLsbD 7 :: (bitsMsb (t.loopBack p).sr).take k := by
      rw [hsr, bitsMsb_shiftIn, List.take_append_of_le_length (by simp [bitsMsb]; omega)]
      rfl
    refine ⟨u, ?_⟩
    rw [recvBits, ht, htake]
    exact hu

/-- With the clock low, nothing is corrected (41 R152). -/
theorem clockIdleFix_of_low (h : s.level p.clk = false) : clockIdleFix p s = .done () s := by
  rw [clockIdleFix, h]
  rfl

/-- `SpiRecv()` returns what LB holds (41 R161). -/
theorem spiRecv_loopBack (hp : s.SpiPinsOk p) (hs : s.sim = true) (hsrc : s.cfg.simSource = .loopBack p.clk p.mosi p.miso)
    (hclk : s.level p.clk = false) (hlow : bitAt (s.loopBack p).prev p.clk = false) :
    ∃ t, spiRecv p s = .done (s.loopBack p).sr t := by
  obtain ⟨t, ht⟩ := recvBits_loopBack (k := 8) le_rfl hp 0x00#8 hs hsrc hlow
  refine ⟨t, ?_⟩
  rw [spiRecv, clockIdleFix_of_low hclk]
  rwa [List.take_of_length_le (by rfl), foldl_shiftIn_bitsMsb] at ht

/-- After `SpiSend(v)` LB holds `v`, with the clock low (41 R161). -/
theorem spiSend_loopBack (hp : s.SpiPinsOk p) (v : Byte) (hs : s.sim = true) :
    ∃ t, spiSend p v s = .done () t ∧ s.Evolves t ∧ t.level p.clk = false ∧ bitAt (t.loopBack p).prev p.clk = false ∧
      (t.loopBack p).sr = v := by
  obtain ⟨t, ht, hm, -, hclk, -⟩ := spiSend_moves hp v (.inl hs)
  have hlb := State.loopBack_of_wire (p := p) (hm.wire (spiSend_writesInFull p v s () t ht) hs)
  rw [List.foldl_append, State.see_sendStates hp] at hlb
  exact ⟨t, ht, hm.evolves, hclk, by rw [hlb]; exact (State.bitAt_wireState hp false _).1, by rw [hlb]⟩

/-- Settles O37: the send leaves `v` in LB, and the receive returns what LB holds. -/
theorem loopBackRoundTrip : Obligations.LoopBackRoundTrip := by
  intro s p v hl hspi hp hs hsrc
  obtain ⟨t, ht, he, hclk, hlow, hsr⟩ := spiSend_loopBack hp v hs
  have hrecv : ∃ u, spiRecv p (t.respond .ok 0x00#8) = .done v u := by
    rw [← hsr]
    exact spiRecv_loopBack (hp.congr he.shape) (he.sim.trans hs) (by rwa [State.respond_cfg, he.cfg]) hclk hlow
  obtain ⟨u, hu⟩ := hrecv
  refine ⟨_, u.respond .ok v, exec_spiSend_of_run hl hspi ht, exec_spiRecv_of_run ?_ (he.spi.trans hspi) hu, ?_⟩
  · rwa [State.respond_phase, he.phase]
  · rw [State.respond_responses, ((composed_spiRecv p).transfers hu).evolves.responses, State.respond_responses, he.responses,
      List.append_assoc]
    rfl

end LoopBack

end Sys2Proof.Machine
end

section
/-!
The Register Protocol where no link call fails (42 R180 to R191): the frame bytes, the binding, and the two register accesses as their
frames behind the order check.
-/

namespace Sys2Proof.Machine

/-! ## Frame bytes -/

/-- The bits of the opcode byte: the read/write bit, the device, the nibble (42 R180). -/
theorem getLsbD_opcode (nibble : BitVec 4) (dev : DevAddr) (read : Bool) (i : Nat) : (opcode nibble dev read).getLsbD i =
    if i < 1 then (BitVec.ofBool read).getLsbD i
    else if i - 1 < 3 then dev.getLsbD (i - 1) else nibble.getLsbD (i - 1 - 3) := by
  simp only [opcode, BitVec.getLsbD_append]

/-- Settles O38: the fields of the opcode lie side by side, and the register byte is the register modulo 32. -/
theorem frameBytesAreAssembled : Obligations.FrameBytesAreAssembled := by
  refine ⟨fun nibble dev read => ?_, fun reg => ⟨rfl, ?_, ?_⟩⟩
  · apply BitVec.eq_of_getLsbD_eq
    intro i hi
    rw [getLsbD_opcode]
    interval_cases i <;> cases read <;> simp
  · apply BitVec.eq_of_getLsbD_eq
    intro i hi
    interval_cases i <;> simp [regByte]
  · rw [regByte, BitVec.toNat_and]
    exact Nat.and_two_pow_sub_one_eq_mod reg.toNat 5

/-- The register byte carries the low five bits of the operand (42 R181). -/
theorem regByte_eq_zeroExtend (reg : Byte) : regByte reg = (reg.extractLsb' 0 5).zeroExtend 8 := by
  apply BitVec.eq_of_getLsbD_eq
  intro i hi
  interval_cases i <;> simp [regByte]

theorem getLsbD_zero_regByte (reg : Byte) : (regByte reg).getLsbD 0 = reg.getLsbD 0 := by simp [regByte]

section Accesses

variable {s : State} {p : SpiPins} {r : RegPins}

/-! ## The order check -/

theorem State.moves_orderCheck (s : State) (dev : DevAddr) (T : PinIx → Prop) : s.Moves (s.orderCheck dev) T [] [] 0 := by
  unfold State.orderCheck
  split
  · exact s.moves_record rfl rfl rfl T
  · exact .refl s T

theorem State.writeFrameStates_orderCheck (s : State) (dev : DevAddr) : (s.orderCheck dev).writeFrameStates = s.writeFrameStates := by
  unfold State.orderCheck
  split <;> rfl

theorem State.readFrameStates_orderCheck (s : State) (dev : DevAddr) : (s.orderCheck dev).readFrameStates = s.readFrameStates := by
  unfold State.orderCheck
  split <;> rfl

theorem State.SpiPinsOk.orderCheck (h : s.SpiPinsOk p) (dev : DevAddr) : (s.orderCheck dev).SpiPinsOk p :=
  h.congr (s.evolves_orderCheck dev).shape

theorem State.RegPinsOk.orderCheck (h : s.RegPinsOk p r) (dev : DevAddr) : (s.orderCheck dev).RegPinsOk p r :=
  h.congr (s.evolves_orderCheck dev).shape

/-- The order check and the write frame without a link failure (42 R188, R191). -/
theorem checkedWriteFrame_moves (hp : s.SpiPinsOk p) (hr : s.RegPinsOk p r) (dev : DevAddr) (reg data : Byte) (h : s.linkGood 56) :
    ∃ t, writeFrame p r dev reg data (s.orderCheck dev) = .done () t ∧
      s.Moves t (frameDriven p r) (s.writeFrameStates p r (opcode s.cfg.opcNibble dev false) (regByte reg) data) [] 56 ∧
      t.txbuf = [] ∧ t.level p.clk = false ∧ t.level p.mosi = data.getLsbD 0 ∧ t.level r.cs = true := by
  have hc := s.moves_orderCheck dev (frameDriven p r)
  obtain ⟨t, ht, hm, hend⟩ := writeFrame_moves (hp.orderCheck dev) (hr.orderCheck dev) dev reg data (hc.good 56 h)
  rw [State.writeFrameStates_orderCheck, State.orderCheck_cfg] at hm
  exact ⟨t, ht, hc.trans hm, hend⟩

/-- The order check and the read frame without a link failure (42 R189, R191). -/
theorem checkedReadFrame_moves (hp : s.SpiPinsOk p) (hr : s.RegPinsOk p r) (dev : DevAddr) (reg : Byte) (h : s.linkGood 71) :
    ∃ (bs : List Byte) (t : State), bs.length = 8 ∧
      readFrame p r dev reg (s.orderCheck dev) = .done (byteOfSamples (bs.map (bitAt · p.miso))) t ∧
      s.Moves t (fun i => frameDriven p r i ∨ s.isInput i)
        (s.readFrameStates p r (opcode s.cfg.opcNibble dev true) (regByte reg)) (bs.map some) 71 ∧
      t.txbuf = [] ∧ t.level p.clk = false ∧ t.level p.mosi = reg.getLsbD 0 ∧ t.level r.cs = true := by
  have hc := s.moves_orderCheck dev fun i => frameDriven p r i ∨ s.isInput i
  obtain ⟨bs, t, hlen, ht, hm, hend⟩ := readFrame_moves (hp.orderCheck dev) (hr.orderCheck dev) dev reg (hc.good 71 h)
  rw [State.readFrameStates_orderCheck, State.orderCheck_cfg] at hm
  rw [getLsbD_zero_regByte] at hend
  exact ⟨bs, t, hlen, ht, by simpa using hc.trans (hm.mono (by simp [State.isInput, hc.evolves.hasDir]) le_rfl), hend⟩

/-! ## The commands -/

/-- REG_WRITE whose procedure does not fail (42 R188). -/
theorem exec_regWrite_of_run {t : State} {dev : DevAddr} {reg data : Byte} (hph : s.phase = .ready) (hspi : s.spi = some p)
    (hreg : s.reg = some r) (h : writeFrame p r dev reg data (s.orderCheck dev) = .done () t) :
    exec (.regWrite dev reg data) s = .next (t.respond .ok 0x00#8) := by
  rw [exec, execRegWrite, State.withBus_bound hph hspi hreg, h]
  rfl

/-- REG_READ whose procedure does not fail (42 R189). -/
theorem exec_regRead_of_run {t : State} {dev : DevAddr} {reg d : Byte} (hph : s.phase = .ready) (hspi : s.spi = some p)
    (hreg : s.reg = some r) (h : readFrame p r dev reg (s.orderCheck dev) = .done d t) :
    exec (.regRead dev reg) s = .next (t.respond .ok d) := by
  rw [exec, execRegRead, State.withBus_bound hph hspi hreg, h]
  rfl

/-- REG_BIND of good pins whose procedure does not fail (42 R182). -/
theorem exec_regBind_of_run {t : State} {d : Byte} (hph : s.phase ≠ .idle) (hp : s.SpiPinsOk p) (hr : s.RegPinsOk p r)
    (h : bindAndBroadcast p r s = .done d t) :
    exec (.regBind p.clk p.mosi p.miso r.cs r.rst) s = .next (t.respond .ok d) := by
  rw [exec, execRegBind, if_pos (State.open_iff.2 hph), State.checkRegPins_of_ok hp hr]
  dsimp only
  rw [h]
  rfl

end Accesses

/-- Settles O39: the bindings, then the moves of the device reset and the broadcast, then the phase and the ghost. -/
theorem regBindResetsAndBroadcasts : Obligations.RegBindResetsAndBroadcasts := by
  intro s p r hph hp hr hg
  obtain ⟨t, ht, hm, htx, hclk, hmosi, hcs, hrst⟩ := bindAndBroadcast_moves hp hr hg
  have he := hm.evolves
  refine ⟨_, exec_regBind_of_run hph hp hr ht, ?_, rfl, he.spi, he.reg, rfl, htx, hcs, hrst, hclk, hmosi, hm.stream, he.sim,
    he.inject, he.cfg, he.port, he.intake, he.busIn, he.shape, fun i h1 h2 h3 h4 => hm.pins i ?_, he.trace_grows⟩
  · exact congrArg (· ++ [(⟨.ok, 0x00#8⟩ : Response)]) he.responses
  · simp [frameDriven, SpiPins.driven, h1, h2, h3, h4]

/-- REG_BIND's checks, chained as R182 lists them. -/
theorem State.checkRegPins_eq (s : State) (p : SpiPins) (r : RegPins) : s.checkRegPins p r =
    if ¬ [p.clk, p.mosi, p.miso, r.cs, r.rst].Nodup then some CfgReason.notDistinct
    else if s.slot r.cs = none then some .missing
    else if s.hasDir r.cs .output = false then some .direction
    else if s.slot r.rst = none then some .missing
    else if s.hasDir r.rst .output = false then some .direction
    else s.checkSpiPins p := by
  simp only [State.checkRegPins, State.checkPin_eq, ite_some_or, Option.none_or]

/-- Settles O40: the outcome of the chained checks is what the teardown reports. -/
theorem regBindOfBadPinsTearsDown : Obligations.RegBindOfBadPinsTearsDown := by
  intro s p r reason hph hcheck
  rw [← State.checkRegPins_eq] at hcheck
  rw [exec, execRegBind, if_pos (State.open_iff.2 hph), hcheck]
  exact fatal_eq _ _ s

/-- Settles O41: the moves of the write frame behind the order check, and an OK. -/
theorem regWriteSendsTheFrame : Obligations.RegWriteSendsTheFrame := by
  intro s p r dev reg data hph hspi hreg hp hr hg
  obtain ⟨t, ht, hm, htx, hclk, hmosi, hcs⟩ := checkedWriteFrame_moves hp hr dev reg data hg
  refine ⟨_, exec_regWrite_of_run hph hspi hreg ht, ?_, hm.stream, htx, hclk, hmosi, hcs,
    (hm.mono (fun _ => or_assoc.1) le_rfl).sameOutside.respond _ _, hm.haenOk_of_rst_high hreg hr hr.rst_not_driven⟩
  rw [State.respond_responses, hm.evolves.responses]

/-- Settles O42: the moves of the read frame behind the order check, and an OK with the byte of its eight samples. -/
theorem regReadReturnsTheByteRead : Obligations.RegReadReturnsTheByteRead := by
  intro s p r dev reg hph hspi hreg hp hr hg
  obtain ⟨bs, t, hlen, ht, hm, htx, hclk, hmosi, hcs⟩ := checkedReadFrame_moves hp hr dev reg hg
  refine ⟨bs, _, hlen, exec_regRead_of_run hph hspi hreg ht, ?_, hm.reads, hm.stream, htx, hclk, hmosi, hcs,
    (hm.mono (fun _ hi => by rwa [or_assoc, or_assoc] at hi) le_rfl).sameOutside.respond _ _,
    hm.haenOk_of_rst_high hreg hr fun h => h.elim hr.rst_not_driven hr.rst_not_input⟩
  rw [State.respond_responses, hm.evolves.responses]

/-! ## The order check only flags -/

theorem State.orderCheck_eq (s : State) (dev : DevAddr) : s.orderCheck dev =
    if dev ≠ 0#3 ∧ s.haenOk = false then { s with trace := s.trace ++ [Event.orderViolation dev] } else s := rfl

/-- In READY an access finds the same bindings before and after the order check (42 R191). -/
theorem State.withBus_orderCheck {s : State} (hph : s.phase = .ready) (dev : DevAddr) (k : SpiPins → RegPins → Out) :
    (s.orderCheck dev).withBus k = s.withBus k := by
  simp only [State.withBus, State.orderCheck_phase, State.orderCheck_spi, State.orderCheck_reg, if_pos hph]

/-- A frame sends the register byte, so the masked operand sends the same frame (42 R181). -/
theorem regByte_mask (reg : Byte) : regByte ((reg.extractLsb' 0 5).zeroExtend 8) = regByte reg := by
  rw [regByte_zeroExtend, regByte_eq_zeroExtend]

/-- Settles O46: an access is the order check and then its frame, in which the operand stands masked. -/
theorem orderViolationIsFlaggedNotRefused : Obligations.OrderViolationIsFlaggedNotRefused := by
  intro s dev reg hph
  rw [← State.orderCheck_eq]
  refine ⟨fun data => ?_, ?_⟩
  · simp only [exec, execRegWrite, execFrameWr, State.withBus_orderCheck hph, writeFrame, regByte_mask]
  · simp only [exec, execRegRead, execFrameRd, State.withBus_orderCheck hph, readFrame, regByte_mask]

end Sys2Proof.Machine
end

section
/-!
The frames in simulation mode (42 R192): with `MAX_PACKET` at least 18 each byte sent is one WRITE, that of CS low and the opcode the
longest, and CS is low in every state but the last.
-/

namespace Sys2Proof.Machine

/-- From `s` to `t` only `k` more states were buffered. -/
structure State.Buffered (s t : State) (k : Nat) : Prop where
  trace : t.trace = s.trace
  txbuf : t.txbuf.length = s.txbuf.length + k
  cfg   : t.cfg = s.cfg

/-- `u` lies within a frame that began in `s`, after a byte sent: CS is low, the other outputs but CLK and MOSI are as in `s`, and
nothing is pending (42 R187). -/
structure State.MidFrame (s : State) (p : SpiPins) (r : RegPins) (u : State) : Prop where
  evolves : s.Evolves u
  wire    : ∀ c d, u.wireState p c d = (s.setValue r.cs false).wireState p c d
  clk     : u.level p.clk = false
  txbuf   : u.txbuf = []

/-- From `t` to `u` there was one WRITE of `n` bytes, answered in full, with CS low in all of them (42 R192). -/
def State.WritesSelected (r : RegPins) (t u : State) (n : Nat) : Prop :=
  ∃ w : List Byte, w.length = n ∧ (∀ b ∈ w, bitAt b r.cs = false) ∧ u.trace = t.trace ++ [.write w (some n)]

section Packets

variable {s t u : State} {p : SpiPins} {r : RegPins}

/-! ## Pushes below `MAX_PACKET` -/

theorem State.Buffered.trans {j k : Nat} (h1 : s.Buffered t j) (h2 : t.Buffered u k) : s.Buffered u (j + k) :=
  ⟨h2.trace.trans h1.trace, by rw [h2.txbuf, h1.txbuf, Nat.add_assoc], h2.cfg.trans h1.cfg⟩

theorem pushValue_buffered (i : PinIx) (b : Bool) (h : s.txbuf.length + 1 < s.cfg.maxPacket) :
    ∃ t, pushState false (s.setValue i b) = .done () t ∧ s.Buffered t 1 :=
  ⟨_, pushState_buffering (s := s.setValue i b) h, by simp, by simp, by simp⟩

theorem sendBit_buffered (p : SpiPins) (b : Bool) (h : s.txbuf.length + 2 < s.cfg.maxPacket) :
    ∃ t, sendBit p b s = .done () t ∧ s.Buffered t 2 := by
  obtain ⟨t, ht, hb⟩ := pushValue_buffered (s := s.setValue p.clk false) p.mosi b (by simp; omega)
  have hst : s.Buffered t 1 := ⟨hb.trace, hb.txbuf, hb.cfg⟩
  obtain ⟨u, hu, hb'⟩ := pushValue_buffered (s := t) p.clk true (by rw [hst.txbuf, hst.cfg]; omega)
  refine ⟨u, ?_, hst.trans hb'⟩
  rw [sendBit, ht]
  exact hu

theorem sendBits_buffered (p : SpiPins) (bs : List Bool) (h : s.txbuf.length + 2 * bs.length < s.cfg.maxPacket) :
    ∃ t, sendBits p bs s = .done () t ∧ s.Buffered t (2 * bs.length) := by
  induction bs generalizing s with
  | nil => exact ⟨s, rfl, rfl, rfl, rfl⟩
  | cons b bs ih =>
    rw [List.length_cons, Nat.mul_succ, Nat.add_comm _ 2] at h ⊢
    obtain ⟨t, ht, hb⟩ := sendBit_buffered p b (s := s) (by omega)
    obtain ⟨u, hu, hb'⟩ := ih (s := t) (by rw [hb.txbuf, hb.cfg]; omega)
    refine ⟨u, ?_, hb.trans hb'⟩
    rw [sendBits, ht]
    exact hu

/-! ## One byte, one WRITE -/

/-- A forced push is one WRITE (40 R120). -/
theorem pushState_packet (hs : s.sim = true) :
    ∃ t w, pushState true s = .done () t ∧ t.trace = s.trace ++ [.write w (some w.length)] := by
  rw [pushState_flushing (.inl rfl)]
  exact ⟨_, s.buffer.txbuf, flush_sim (by simpa using hs), by simp⟩

/-- Below `MAX_PACKET` and with the clock low, `SpiSend` is one WRITE (41 R154). -/
theorem spiSend_packet (v : Byte) (hs : s.sim = true) (hclk : s.level p.clk = false) (h : s.txbuf.length + 17 ≤ s.cfg.maxPacket) :
    ∃ t w, spiSend p v s = .done () t ∧ t.trace = s.trace ++ [.write w (some w.length)] := by
  obtain ⟨u, hu, hb⟩ := sendBits_buffered p (bitsMsb v) (s := s) (by simp [bitsMsb]; omega)
  have husim : u.sim = true := ((composed_sendBits p _).transfers hu).evolves.sim.trans hs
  obtain ⟨t, w, ht, htr⟩ := pushState_packet (s := u.setValue p.clk false) husim
  refine ⟨t, w, ?_, htr.trans (by rw [State.setValue_trace, hb.trace])⟩
  rw [spiSend, clockIdleFix_of_low hclk]
  simp only [Run.andThen, hu, ht]

/-- A single WRITE that leaves nothing pending carries what was pending and what the moves pushed (40 R122). -/
theorem State.Moves.packet {T : PinIx → Prop} {bs w : List Byte} {rs : List (Option Byte)} {k : Nat} (h : s.Moves t T bs rs k)
    (htx : t.txbuf = []) (htr : t.trace = s.trace ++ [.write w (some w.length)]) : w = s.txbuf ++ bs := by
  have hst := h.stream
  rw [State.stream, State.stream, htx, htr, sent_append, List.append_assoc, List.append_assoc] at hst
  simpa [sent] using List.append_cancel_left hst

/-! ## CS in the states of a frame -/

/-- A pin that is neither CLK nor MOSI is in `S(c, d)` as it is (41 R153). -/
theorem State.bitAt_wireState_of_ne {j : PinIx} (hclk : p.clk ≠ j) (hmosi : p.mosi ≠ j) (c d : Bool) :
    bitAt (s.wireState p c d) j = bitAt s.pinByte j := by
  simp [State.wireState, State.level_setValue_ne _ _ hclk, State.level_setValue_ne _ _ hmosi]

theorem State.mem_bitStates {b : Byte} {bs : List Bool} (h : b ∈ s.bitStates p bs) : ∃ c d, b = s.wireState p c d := by
  induction bs with
  | nil => cases h
  | cons x bs ih =>
    simp only [State.bitStates, List.mem_cons] at h
    rcases h with rfl | rfl | h
    · exact ⟨_, _, rfl⟩
    · exact ⟨_, _, rfl⟩
    · exact ih h

theorem State.mem_sendStates {b v : Byte} (h : b ∈ s.sendStates p v) : ∃ c d, b = s.wireState p c d := by
  rcases List.mem_append.1 h with h | h
  · exact State.mem_bitStates h
  · exact ⟨_, _, List.mem_singleton.1 h⟩

theorem State.bitAt_pinByte_setValue_low (s : State) (i : PinIx) : bitAt (s.setValue i false).pinByte i = false := by
  simp [State.level_setValue]

/-- CS is low in the states that follow its fall (42 R192). -/
theorem State.cs_low_wireState (hr : s.RegPinsOk p r) (c d : Bool) : bitAt ((s.setValue r.cs false).wireState p c d) r.cs = false := by
  rw [State.bitAt_wireState_of_ne hr.cs_clk.symm hr.cs_mosi.symm, State.bitAt_pinByte_setValue_low]

theorem State.cs_low_sendStates (hr : s.RegPinsOk p r) {b v : Byte} (h : b ∈ (s.setValue r.cs false).sendStates p v) :
    bitAt b r.cs = false := by
  obtain ⟨c, d, rfl⟩ := State.mem_sendStates h
  exact State.cs_low_wireState hr c d

/-! ## The pieces of a frame -/

theorem State.MidFrame.spiPinsOk (h : s.MidFrame p r u) (hp : s.SpiPinsOk p) : u.SpiPinsOk p := hp.congr h.evolves.shape

/-- CS low and the opcode byte are one WRITE (42 R192). -/
theorem frameHead_packet (hp : s.SpiPinsOk p) (hr : s.RegPinsOk p r) (op : Byte) (hs : s.sim = true) (htx : s.txbuf = [])
    (hclk : s.level p.clk = false) (hmax : 18 ≤ s.cfg.maxPacket) :
    ∃ t u, csAssert r s = .done () t ∧ spiSend p op t = .done () u ∧ t.cfg = s.cfg ∧ s.MidFrame p r u ∧
      State.WritesSelected r s u 18 := by
  obtain ⟨t, u, ht, hu, hcfg, hm, hutx, huclk, -, hw⟩ := frameHead_moves (r := r) hp op (.inl hs)
  obtain ⟨t', ht', hb⟩ := pushValue_buffered (s := s) r.cs false (by simp [htx]; omega)
  obtain ⟨-, rfl⟩ := Run.done.inj (ht.symm.trans ht')
  obtain ⟨t'', ht'', hcs, hsl⟩ := csAssert_moves r (.inl hs)
  obtain ⟨-, rfl⟩ := Run.done.inj (ht.symm.trans ht'')
  have htclk : t.level p.clk = false := (State.level_congr (hcs.pins _ hr.cs_clk.symm)).trans hclk
  obtain ⟨u', w, hu', htr⟩ := spiSend_packet op (hcs.evolves.sim.trans hs) htclk (by rw [hb.txbuf, htx, hcfg]; simpa using hmax)
  obtain ⟨-, rfl⟩ := Run.done.inj (hu.symm.trans hu')
  rw [hb.trace] at htr
  have hbytes := hm.packet hutx htr
  rw [htx, State.fixStates_low ((s.level_setValue_ne false hr.cs_clk).trans hclk), List.nil_append, List.nil_append] at hbytes
  have hlen : w.length = 18 := by simp [hbytes, State.length_sendStates]
  refine ⟨t, u, ht, hu, hcfg, ⟨hm.evolves, hw, huclk, hutx⟩, w, hlen, fun b hb => ?_, hlen ▸ htr⟩
  rw [hbytes, List.mem_append, List.mem_singleton] at hb
  rcases hb with rfl | hb
  · exact s.bitAt_pinByte_setValue_low r.cs
  · exact State.cs_low_sendStates hr hb

/-- Each further byte is one WRITE (42 R192). -/
theorem State.MidFrame.spiSend_packet (h : s.MidFrame p r u) (hp : s.SpiPinsOk p) (hr : s.RegPinsOk p r) (v : Byte) (hs : s.sim = true)
    (hmax : 17 ≤ s.cfg.maxPacket) :
    ∃ t, spiSend p v u = .done () t ∧ s.MidFrame p r t ∧ State.WritesSelected r u t 17 := by
  have hus : u.sim = true := h.evolves.sim.trans hs
  obtain ⟨t, ht, hm, htx, hclk, -, -, hw⟩ :=
    spiSend_next (hp.congr (by simp)) (fun i => (h.evolves.shape i).trans (by simp)) h.wire h.clk v (.inl hus)
  obtain ⟨t', w, ht', htr⟩ := Machine.spiSend_packet v hus h.clk (by rw [h.txbuf, h.evolves.cfg]; simpa using hmax)
  obtain ⟨-, rfl⟩ := Run.done.inj (ht.symm.trans ht')
  have hbytes := hm.packet htx htr
  rw [h.txbuf, List.nil_append] at hbytes
  have hlen : w.length = 17 := by rw [hbytes, State.length_sendStates]
  exact ⟨t, ht, ⟨h.evolves.trans hm.evolves, hw, hclk, htx⟩, w, hlen, fun b hb => State.cs_low_sendStates hr (hbytes ▸ hb),
    hlen ▸ htr⟩

/-- CS high is a one-byte WRITE (42 R192). -/
theorem csRelease_packet (hr : u.RegPinsOk p r) (hs : u.sim = true) (htx : u.txbuf = []) :
    ∃ b t, csRelease r u = .done () t ∧ t.trace = u.trace ++ [.write [b] (some 1)] ∧ bitAt b r.cs = true := by
  obtain ⟨t, ht, htr, -⟩ := pushState_forced_sim (s := u.setValue r.cs true) hs htx
  refine ⟨_, t, ht, htr, ?_⟩
  rw [State.bitAt_pinByte, State.hasDir_setValue, hr.cs, State.level_setValue, State.isSome_of_hasDir hr.cs]
  rfl

end Packets

/-- An access to device 0, or after the broadcast, raises no flag (42 R191). -/
theorem State.orderCheck_of_ok {s : State} {dev : DevAddr} (h : dev = 0#3 ∨ s.haenOk = true) : s.orderCheck dev = s :=
  if_neg fun ⟨hdev, hha⟩ => h.elim hdev fun hok => Bool.false_ne_true (hha.symm.trans hok)

/-- Settles O44: the head of the frame, its two other bytes and CS high, each in its own WRITE. -/
theorem regWriteIsFourWrites : Obligations.RegWriteIsFourWrites := by
  intro s p r dev reg data hph hspi hreg hp hr hs htx hclk hmax hok
  obtain ⟨t, u1, ht, hu1, hcfg, h1, w1, hlen1, hlow1, htr1⟩ :=
    frameHead_packet hp hr (opcode s.cfg.opcNibble dev false) hs htx hclk hmax
  obtain ⟨u2, hu2, h2, w2, hlen2, hlow2, htr2⟩ := h1.spiSend_packet hp hr (regByte reg) hs (by omega)
  obtain ⟨u3, hu3, h3, w3, hlen3, hlow3, htr3⟩ := h2.spiSend_packet hp hr data hs (by omega)
  obtain ⟨b, u4, hu4, htr4, hb⟩ := csRelease_packet (hr.congr h3.evolves.shape) (h3.evolves.sim.trans hs) h3.txbuf
  have hrun : writeFrame p r dev reg data (s.orderCheck dev) = .done () u4 := by
    rw [State.orderCheck_of_ok hok, writeFrame, ht]
    simp only [Run.andThen, hcfg, hu1, hu2, hu3, hu4]
  refine ⟨w1, w2, w3, b, _, exec_regWrite_of_run hph hspi hreg hrun, ?_, hlen1, hlen2, hlen3, ?_, hb⟩
  · simp [htr4, htr3, htr2, htr1]
  · simpa [or_imp, forall_and, and_assoc] using ⟨hlow1, hlow2, hlow3⟩

/-- Settles O45: the head of the frame and the register byte, the eight bits of the receive, and CS high. -/
theorem regReadIsNineteenWritesAndEightReads : Obligations.RegReadIsNineteenWritesAndEightReads := by
  intro s p r dev reg hph hspi hreg hp hr hs htx hclk hmax hok
  obtain ⟨t, u1, ht, hu1, hcfg, h1, w1, hlen1, hlow1, htr1⟩ :=
    frameHead_packet hp hr (opcode s.cfg.opcNibble dev true) hs htx hclk hmax
  obtain ⟨u2, hu2, h2, w2, hlen2, hlow2, htr2⟩ := h1.spiSend_packet hp hr (regByte reg) hs (by omega)
  obtain ⟨bs, d, u3, hlen, hu3, htr3⟩ := recvBits_sim (h2.spiPinsOk hp) 7 0x00#8 (h2.evolves.sim.trans hs)
  have hrecv : spiRecv p u2 = .done d u3 := by
    rw [spiRecv, clockIdleFix_of_low h2.clk]
    exact hu3
  obtain ⟨_, u3', -, hu3', hm3, htx3, -⟩ := spiRecv_moves (h2.spiPinsOk hp) (.inl (h2.evolves.sim.trans hs))
  obtain ⟨-, rfl⟩ := Run.done.inj (hrecv.symm.trans hu3')
  have he3 := h2.evolves.trans hm3.evolves
  obtain ⟨b, u4, hu4, htr4, hb⟩ := csRelease_packet (hr.congr he3.shape) (he3.sim.trans hs) htx3
  have hrun : readFrame p r dev reg (s.orderCheck dev) = .done d u4 := by
    rw [State.orderCheck_of_ok hok, readFrame, ht]
    simp only [Run.andThen, hcfg, hu1, hu2, hrecv, hu4]
  have hlow (c : Bool) : bitAt (u2.wireState p c (u2.level p.mosi)) r.cs = false := by
    rw [h2.wire]
    exact State.cs_low_wireState hr _ _
  refine ⟨w1, w2, u2.wireState p true (u2.level p.mosi), u2.wireState p false (u2.level p.mosi), b, bs, _, hlen,
    exec_regRead_of_run hph hspi hreg hrun, ?_, hlen1, hlen2, ?_, hb⟩
  · rw [State.respond_trace, htr4, htr3, State.flushedTrace_of_empty h2.txbuf, htr2, htr1, List.append_assoc s.trace]
    rfl
  · simpa [or_imp, forall_and, and_assoc, hlow] using ⟨hlow1, hlow2⟩

end Sys2Proof.Machine
end

section
/-!
The register expanders RX (95 section 1): what one device makes of a byte clocked in and of the bytes of a frame.
-/

namespace Sys2Proof.Machine

/-! ## The fields of the opcode and of the register byte -/

theorem extract_nibble_opcode (nibble : BitVec 4) (dev : DevAddr) (read : Bool) :
    (opcode nibble dev read).extractLsb' 4 4 = nibble := by
  apply BitVec.eq_of_getLsbD_eq
  intro i hi
  rw [BitVec.getLsbD_extractLsb', getLsbD_opcode]
  interval_cases i <;> rfl

theorem extract_dev_opcode (nibble : BitVec 4) (dev : DevAddr) (read : Bool) :
    (opcode nibble dev read).extractLsb' 1 3 = dev := by
  apply BitVec.eq_of_getLsbD_eq
  intro i hi
  rw [BitVec.getLsbD_extractLsb', getLsbD_opcode]
  interval_cases i <;> rfl

theorem getLsbD_zero_opcode (nibble : BitVec 4) (dev : DevAddr) (read : Bool) : (opcode nibble dev read).getLsbD 0 = read := by
  rw [getLsbD_opcode]
  cases read <;> rfl

theorem extract_regByte (reg : Byte) : (regByte reg).extractLsb' 0 5 = reg.extractLsb' 0 5 := by
  apply BitVec.eq_of_getLsbD_eq
  intro i hi
  interval_cases i <;> simp [regByte]

/-! ## One byte on the wire -/

section Device

variable {cfg : Params} {p : SpiPins} {r : RegPins} {d : RxDev} {prev x : Byte}

@[simp] theorem RxDev.strap_startFrame (d : RxDev) : d.startFrame.strap = d.strap := rfl
@[simp] theorem RxDev.strap_endFrame (d : RxDev) : d.endFrame.strap = d.strap := rfl

@[simp] theorem RxDev.strap_takeByte (cfg : Params) (n : Nat) (b : Byte) (d : RxDev) : (d.takeByte cfg n b).strap = d.strap := by
  unfold RxDev.takeByte
  dsimp only
  repeat' split
  all_goals rfl

@[simp] theorem RxDev.strap_edge (cfg : Params) (b : Bool) (d : RxDev) : (d.edge cfg b).strap = d.strap := by
  unfold RxDev.edge
  split <;> simp

@[simp] theorem RxDev.inFrame_takeByte (cfg : Params) (n : Nat) (b : Byte) (d : RxDev) :
    (d.takeByte cfg n b).inFrame = d.inFrame := by
  unfold RxDev.takeByte
  dsimp only
  repeat' split
  all_goals rfl

@[simp] theorem RxDev.inFrame_edge (cfg : Params) (b : Bool) (d : RxDev) : (d.edge cfg b).inFrame = d.inFrame := by
  unfold RxDev.edge
  split <;> simp

theorem RxDev.see_reset (h : bitAt x r.rst = false) : d.see cfg p r prev x = .powerOn d.strap := by
  simp [RxDev.see, h]

theorem RxDev.see_deselected (hrst : bitAt x r.rst = true) (hcs : bitAt x r.cs = true) : d.see cfg p r prev x = d.endFrame := by
  simp [RxDev.see, hrst, hcs]

/-- The byte `x` addresses the devices: RST is high and CS is low. -/
structure RegPins.Selects (r : RegPins) (x : Byte) : Prop where
  rst : bitAt x r.rst = true
  cs  : bitAt x r.cs = false

/-- CS falls, with no rising edge of the clock. -/
theorem RxDev.see_start (hx : r.Selects x) (hprev : bitAt prev r.cs = true)
    (hclk : bitAt prev p.clk = true ∨ bitAt x p.clk = false) : d.see cfg p r prev x = d.startFrame := by
  rcases hclk with h | h <;> simp [RxDev.see, hx.rst, hx.cs, hprev, h]

/-- Within a frame a byte with the clock low changes nothing. -/
theorem RxDev.see_low (hx : r.Selects x) (hprev : r.Selects prev) (hclk : bitAt x p.clk = false) : d.see cfg p r prev x = d := by
  simp [RxDev.see, hx.rst, hx.cs, hprev.cs, hclk]

/-- Within a frame a rising edge is the device's. -/
theorem RxDev.see_rise (hx : r.Selects x) (hprev : r.Selects prev) (hlow : bitAt prev p.clk = false)
    (hhigh : bitAt x p.clk = true) (hin : d.inFrame = true) : d.see cfg p r prev x = d.edge cfg (bitAt x p.mosi) := by
  simp [RxDev.see, hx.rst, hx.cs, hprev.cs, hlow, hhigh, hin]

theorem RxDev.strap_see (cfg : Params) (p : SpiPins) (r : RegPins) (prev x : Byte) (d : RxDev) :
    (d.see cfg p r prev x).strap = d.strap := by
  unfold RxDev.see
  dsimp only
  repeat' split
  all_goals simp [RxDev.powerOn]

/-! ## One byte clocked in -/

/-- Rising edges with these levels on MOSI. -/
def RxDev.clockIn (cfg : Params) (bits : List Bool) (d : RxDev) : RxDev := bits.foldl (fun d b => d.edge cfg b) d

theorem RxDev.clockIn_append (cfg : Params) (as bs : List Bool) (d : RxDev) :
    d.clockIn cfg (as ++ bs) = (d.clockIn cfg as).clockIn cfg bs := List.foldl_append

theorem RxDev.edge_of_presenting (h : d.presenting = true) (b : Bool) :
    d.edge cfg b = { d with edges := d.edges + 1, out := d.out <<< 1 } := if_pos h

theorem RxDev.edge_of_not_presenting (h : d.presenting = false) (b : Bool) :
    d.edge cfg b = RxDev.takeByte cfg (d.edges + 1) (shiftIn d.shift b)
      { d with edges := d.edges + 1, shift := shiftIn d.shift b } := if_neg (by simp [h])

/-- An edge that does not complete a byte only shifts MOSI in. -/
theorem RxDev.edge_of_partial (hpres : d.presenting = false) (h : (d.edges + 1) % 8 ≠ 0) (b : Bool) :
    d.edge cfg b = { d with edges := d.edges + 1, shift := shiftIn d.shift b } := by
  have h8 : d.edges + 1 ≠ 8 := by omega
  have h16 : d.edges + 1 ≠ 16 := by omega
  have h24 : d.edges + 1 ≠ 24 := by omega
  rw [RxDev.edge_of_not_presenting hpres, RxDev.takeByte, if_neg h8, if_neg h16, if_neg h24]

theorem RxDev.clockIn_of_partial (hpres : d.presenting = false) {bits : List Bool} (h : d.edges % 8 + bits.length < 8) :
    d.clockIn cfg bits = { d with edges := d.edges + bits.length, shift := bits.foldl shiftIn d.shift } := by
  induction bits generalizing d with
  | nil => rfl
  | cons b bits ih =>
    rw [List.length_cons] at h
    have hstep := RxDev.edge_of_partial (cfg := cfg) hpres (by omega) b
    rw [RxDev.clockIn, List.foldl_cons, hstep]
    refine (ih (d := { d with edges := d.edges + 1, shift := shiftIn d.shift b }) hpres ?_).trans ?_
    · dsimp only
      omega
    · simp only [List.length_cons, List.foldl_cons, Nat.add_assoc, Nat.add_comm 1]

/-- Eight edges from a byte's boundary complete the byte whose bits MOSI carried. -/
theorem RxDev.clockIn_bitsMsb {n : Nat} (hpres : d.presenting = false) (hn : d.edges = n) (h : n % 8 = 0) (v : Byte) :
    d.clockIn cfg (bitsMsb v) = RxDev.takeByte cfg (n + 8) v { d with edges := n + 8, shift := v } := by
  have hbits : bitsMsb v = (bitsMsb v).take 7 ++ [v.getLsbD 0] := rfl
  have hlast : shiftIn (((bitsMsb v).take 7).foldl shiftIn d.shift) (v.getLsbD 0) = v := by
    conv_rhs => rw [← foldl_shiftIn_bitsMsb d.shift v, hbits, List.foldl_append]
    rfl
  have hseven := RxDev.clockIn_of_partial (cfg := cfg) hpres (bits := (bitsMsb v).take 7) (by simp [bitsMsb]; omega)
  rw [hbits, RxDev.clockIn_append, hseven, RxDev.clockIn, List.foldl_cons, List.foldl_nil,
    RxDev.edge_of_not_presenting (by exact hpres)]
  dsimp only
  rw [hlast, hn]
  rfl

/-! ## Frames -/

/-- A frame begins, and these bytes are clocked in. -/
def RxDev.hear (cfg : Params) (bytes : List Byte) (d : RxDev) : RxDev :=
  bytes.foldl (fun d v => d.clockIn cfg (bitsMsb v)) d.startFrame

/-- The device answers to the address `dev`: its strap once HAEN is set, 0 before. -/
def RxDev.addressed (d : RxDev) (dev : DevAddr) : Bool := dev == if d.haen then d.strap else 0#3

/-- The device's register `a`. -/
def RxDev.register (d : RxDev) (a : BitVec 5) : Byte := d.regs[a.toNat]'a.isLt

theorem RxDev.hear_opcode (d : RxDev) (dev : DevAddr) (read : Bool) :
    d.hear cfg [opcode cfg.opcNibble dev read] =
      { d.startFrame with
        edges := 8, shift := opcode cfg.opcNibble dev read, matched := d.addressed dev, reading := read } := by
  rw [RxDev.hear, List.foldl_cons, List.foldl_nil, RxDev.clockIn_bitsMsb (n := 0) rfl rfl rfl, RxDev.takeByte,
    if_pos rfl, extract_nibble_opcode, extract_dev_opcode, getLsbD_zero_opcode, beq_self_eq_true, Bool.true_and]
  rfl

theorem RxDev.hear_append (cfg : Params) (bs cs : List Byte) (d : RxDev) :
    d.hear cfg (bs ++ cs) = cs.foldl (fun d v => d.clockIn cfg (bitsMsb v)) (d.hear cfg bs) := List.foldl_append

/-- The opcode and the register byte of a write frame: the address is taken. -/
theorem RxDev.hear_writeHead (d : RxDev) (dev : DevAddr) (reg : Byte) :
    d.hear cfg [opcode cfg.opcNibble dev false, regByte reg] =
      { d.startFrame with
        edges := 16, shift := regByte reg, matched := d.addressed dev, reading := false, addr := reg.extractLsb' 0 5 } := by
  rw [← List.singleton_append, RxDev.hear_append, RxDev.hear_opcode, List.foldl_cons, List.foldl_nil,
    RxDev.clockIn_bitsMsb (n := 8) rfl rfl rfl]
  simp [RxDev.takeByte, extract_regByte]

/-- A write frame: an addressed device writes the register, and the control register's HAEN bit with it. -/
theorem RxDev.hear_write (d : RxDev) (dev : DevAddr) (reg data : Byte) :
    d.hear cfg [opcode cfg.opcNibble dev false, regByte reg, data] =
      let e := { d.startFrame with
        edges := 24, shift := data, matched := d.addressed dev, reading := false, addr := reg.extractLsb' 0 5 }
      if d.addressed dev then
        { e with
          regs := d.regs.set (reg.extractLsb' 0 5).toNat data (reg.extractLsb' 0 5).isLt
          haen := if reg.extractLsb' 0 5 == cfg.ctrlReg then data &&& cfg.haenMask != 0#8 else d.haen }
      else e := by
  rw [show [opcode cfg.opcNibble dev false, regByte reg, data] = [opcode cfg.opcNibble dev false, regByte reg] ++ [data] from rfl,
    RxDev.hear_append, RxDev.hear_writeHead, List.foldl_cons, List.foldl_nil,
    RxDev.clockIn_bitsMsb (n := 16) rfl rfl rfl]
  cases h : d.addressed dev <;> simp [RxDev.takeByte, RxDev.startFrame]

/-- The opcode and the register byte of a read frame: an addressed device presents the register. -/
theorem RxDev.hear_read (d : RxDev) (dev : DevAddr) (reg : Byte) :
    d.hear cfg [opcode cfg.opcNibble dev true, regByte reg] =
      let e := { d.startFrame with
        edges := 16, shift := regByte reg, matched := d.addressed dev, reading := true, addr := reg.extractLsb' 0 5 }
      if d.addressed dev then
        { e with presenting := true, out := d.register (reg.extractLsb' 0 5) }
      else e := by
  rw [← List.singleton_append, RxDev.hear_append, RxDev.hear_opcode, List.foldl_cons, List.foldl_nil,
    RxDev.clockIn_bitsMsb (n := 8) rfl rfl rfl]
  cases h : d.addressed dev <;> simp [RxDev.takeByte, RxDev.startFrame, extract_regByte, RxDev.register]

end Device

end Sys2Proof.Machine
end

section
/-!
A bus of register expanders on the wire (95 section 1, 42 R194): what its devices make of the states of a frame and of the device reset,
and what MISO then presents.
-/

namespace Sys2Proof.Machine

/-! ## Bytes on the bus -/

section Bus

variable {cfg : Params} {s : State} {p : SpiPins} {r : RegPins} {u : RxBus} {x : Byte}

/-- A byte that puts every device through `f`. -/
theorem RxBus.see_eq_map {f : RxDev → RxDev} (h : ∀ d ∈ u.devs, d.see cfg p r u.prev x = f d) :
    u.see cfg p r x = ⟨x, u.devs.map f⟩ := by
  rw [RxBus.see, List.map_congr_left h]

/-- Within a frame a byte with the clock low changes no device. -/
theorem RxBus.see_low (hx : r.Selects x) (hu : r.Selects u.prev) (hclk : bitAt x p.clk = false) :
    u.see cfg p r x = ⟨x, u.devs⟩ := by
  simpa using RxBus.see_eq_map (f := id) fun d _ => RxDev.see_low hx hu hclk

/-- Within a frame a rising edge is every device's. -/
theorem RxBus.see_rise (hx : r.Selects x) (hu : r.Selects u.prev) (hlow : bitAt u.prev p.clk = false)
    (hhigh : bitAt x p.clk = true) (hin : ∀ d ∈ u.devs, d.inFrame = true) :
    u.see cfg p r x = ⟨x, u.devs.map (RxDev.edge cfg (bitAt x p.mosi))⟩ :=
  RxBus.see_eq_map fun d hd => RxDev.see_rise hx hu hlow hhigh (hin d hd)

theorem RxBus.straps_foldl_see (cfg : Params) (p : SpiPins) (r : RegPins) (bs : List Byte) (u : RxBus) :
    (bs.foldl (RxBus.see cfg p r) u).devs.map RxDev.strap = u.devs.map RxDev.strap := by
  induction bs generalizing u with
  | nil => rfl
  | cons x bs ih =>
    rw [List.foldl_cons, ih, RxBus.see, List.map_map]
    exact List.map_congr_left fun d _ => RxDev.strap_see ..

/-- The states of bits sent, each with its rising edge. -/
theorem RxBus.foldl_see_bitStates (hp : s.SpiPinsOk p) (hsel : ∀ c d, r.Selects (s.wireState p c d)) (bs : List Bool)
    (hu : r.Selects u.prev) (hin : ∀ d ∈ u.devs, d.inFrame = true) :
    ∃ y, r.Selects y ∧ (s.bitStates p bs).foldl (RxBus.see cfg p r) u = ⟨y, u.devs.map (RxDev.clockIn cfg bs)⟩ := by
  induction bs generalizing u with
  | nil => exact ⟨u.prev, hu, by rw [show RxDev.clockIn cfg [] = id from rfl, List.map_id]; rfl⟩
  | cons b bs ih =>
    obtain ⟨hlow, -⟩ := State.bitAt_wireState hp false b
    obtain ⟨hhigh, hmosi⟩ := State.bitAt_wireState hp true b
    obtain ⟨y, hy, hfold⟩ := ih (u := ⟨s.wireState p true b, u.devs.map (RxDev.edge cfg b)⟩) (hsel _ _) (by simpa using hin)
    refine ⟨y, hy, ?_⟩
    rw [State.bitStates, List.foldl_cons, List.foldl_cons, RxBus.see_low (hsel _ _) hu hlow,
      RxBus.see_rise (u := ⟨s.wireState p false b, u.devs⟩) (hsel _ _) (hsel _ _) hlow hhigh hin, hmosi, hfold, List.map_map]
    rfl

/-- The states of a byte sent clock its bits in. -/
theorem RxBus.foldl_see_sendStates (hp : s.SpiPinsOk p) (hsel : ∀ c d, r.Selects (s.wireState p c d)) (v : Byte)
    (hu : r.Selects u.prev) (hin : ∀ d ∈ u.devs, d.inFrame = true) :
    (s.sendStates p v).foldl (RxBus.see cfg p r) u =
      ⟨s.wireState p false (v.getLsbD 0), u.devs.map (RxDev.clockIn cfg (bitsMsb v))⟩ := by
  obtain ⟨y, hy, hfold⟩ := RxBus.foldl_see_bitStates (cfg := cfg) hp hsel (bitsMsb v) hu hin
  rw [State.sendStates, List.foldl_append, hfold, List.foldl_cons, List.foldl_nil,
    RxBus.see_low (hsel _ _) hy (State.bitAt_wireState hp false _).1]

theorem RxDev.inFrame_clockIn (cfg : Params) (bs : List Bool) (d : RxDev) : (d.clockIn cfg bs).inFrame = d.inFrame := by
  induction bs generalizing d with
  | nil => rfl
  | cons b bs ih => rw [RxDev.clockIn, List.foldl_cons, ← RxDev.clockIn, ih, RxDev.inFrame_edge]

theorem RxDev.inFrame_hear (cfg : Params) (bytes : List Byte) (d : RxDev) : (d.hear cfg bytes).inFrame = true := by
  induction bytes using List.reverseRecOn with
  | nil => rfl
  | append_singleton bytes v ih => rw [RxDev.hear_append, List.foldl_cons, List.foldl_nil, RxDev.inFrame_clockIn, ih]

/-! ## The states of a frame -/

/-- With RST high, the states that follow the fall of CS address the devices. -/
theorem State.selects_wireState (hr : s.RegPinsOk p r) (hrst : s.level r.rst = true) (c d : Bool) :
    r.Selects ((s.setValue r.cs false).wireState p c d) where
  rst := by
    rw [State.bitAt_wireState_of_ne hr.rst_clk.symm hr.rst_mosi.symm, State.bitAt_pinByte, State.hasDir_setValue, hr.rst,
      State.level_setValue_ne _ _ hr.cs_rst, hrst]
    rfl
  cs := State.cs_low_wireState hr c d

theorem State.selects_pinByte (hr : s.RegPinsOk p r) (hrst : s.level r.rst = true) : r.Selects (s.setValue r.cs false).pinByte where
  rst := by simp [hr.rst, State.level_setValue_ne _ _ hr.cs_rst, hrst]
  cs := s.bitAt_pinByte_setValue_low r.cs

/-- The fall of CS, with the clock as it was on the wire, and the clock's correction begin a frame on every device. -/
theorem RxBus.foldl_see_frameStart (hr : s.RegPinsOk p r) (hrst : s.level r.rst = true)
    (hcs : bitAt u.prev r.cs = true) (hclk : bitAt u.prev p.clk = s.level p.clk) :
    ∃ y, r.Selects y ∧ ([(s.setValue r.cs false).pinByte] ++ (s.setValue r.cs false).fixStates p).foldl (RxBus.see cfg p r) u =
      ⟨y, u.devs.map (RxDev.hear cfg [])⟩ := by
  have hfall : u.see cfg p r (s.setValue r.cs false).pinByte = ⟨(s.setValue r.cs false).pinByte, u.devs.map (RxDev.hear cfg [])⟩ :=
    RxBus.see_eq_map fun d _ => RxDev.see_start (State.selects_pinByte hr hrst) hcs (by
      rw [hclk, State.bitAt_pinByte, State.level_setValue_ne _ _ hr.cs_clk]
      cases s.level p.clk <;> simp)
  rw [List.singleton_append, List.foldl_cons, hfall]
  unfold State.fixStates
  split
  · have hfix : r.Selects ((s.setValue r.cs false).setValue p.clk false).pinByte := by
      constructor
      · simp [hr.rst, State.level_setValue_ne _ _ hr.rst_clk.symm, State.level_setValue_ne _ _ hr.cs_rst, hrst]
      · simp [State.level_setValue_ne _ _ hr.cs_clk.symm, State.level_setValue]
    refine ⟨_, hfix, ?_⟩
    rw [List.foldl_cons, List.foldl_nil,
      RxBus.see_low hfix (State.selects_pinByte hr hrst) (State.bitAt_pinByte_setValue_low _ _)]
  · exact ⟨_, State.selects_pinByte hr hrst, rfl⟩

/-- A byte of a frame, heard by every device behind the bytes before it. -/
theorem RxBus.foldl_see_frameNext (hp : s.SpiPinsOk p) (hr : s.RegPinsOk p r) (hrst : s.level r.rst = true) (bytes : List Byte)
    (hx : r.Selects x) (devs : List RxDev) (v : Byte) :
    ((s.setValue r.cs false).sendStates p v).foldl (RxBus.see cfg p r) ⟨x, devs.map (RxDev.hear cfg bytes)⟩ =
      ⟨(s.setValue r.cs false).wireState p false (v.getLsbD 0), devs.map (RxDev.hear cfg (bytes ++ [v]))⟩ := by
  have hcomp : RxDev.clockIn cfg (bitsMsb v) ∘ RxDev.hear cfg bytes = RxDev.hear cfg (bytes ++ [v]) :=
    funext fun d => (RxDev.hear_append cfg bytes [v] d).symm
  rw [RxBus.foldl_see_sendStates (hp.congr (by simp)) (State.selects_wireState hr hrst) v hx (by simp [RxDev.inFrame_hear]),
    List.map_map, hcomp]

/-- CS low and the opcode byte. -/
theorem RxBus.foldl_see_frameHead (hp : s.SpiPinsOk p) (hr : s.RegPinsOk p r) (hrst : s.level r.rst = true)
    (hcs : bitAt u.prev r.cs = true) (hclk : bitAt u.prev p.clk = s.level p.clk) (op : Byte) :
    ([(s.setValue r.cs false).pinByte] ++ ((s.setValue r.cs false).fixStates p ++ (s.setValue r.cs false).sendStates p op)).foldl
        (RxBus.see cfg p r) u =
      ⟨(s.setValue r.cs false).wireState p false (op.getLsbD 0), u.devs.map (RxDev.hear cfg [op])⟩ := by
  obtain ⟨y, hy, hstart⟩ := RxBus.foldl_see_frameStart (cfg := cfg) (p := p) hr hrst hcs hclk
  rw [← List.append_assoc, List.foldl_append, hstart, RxBus.foldl_see_frameNext hp hr hrst [] hy]
  rfl

/-- CS high, at the end of a frame (42 R187). -/
theorem State.bits_released (hp : s.SpiPinsOk p) (hr : s.RegPinsOk p r) (hrst : s.level r.rst = true) (b : Bool) :
    bitAt ((s.setValue r.cs true).wireState p false b) r.rst = true ∧
      bitAt ((s.setValue r.cs true).wireState p false b) r.cs = true ∧
      bitAt ((s.setValue r.cs true).wireState p false b) p.clk = false := by
  refine ⟨?_, ?_, (State.bitAt_wireState (hp.congr (by simp)) false b).1⟩
  · rw [State.bitAt_wireState_of_ne hr.rst_clk.symm hr.rst_mosi.symm]
    simp [hr.rst, State.level_setValue_ne _ _ hr.cs_rst, hrst]
  · rw [State.bitAt_wireState_of_ne hr.cs_clk.symm hr.cs_mosi.symm]
    simp [hr.cs, State.level_setValue, State.isSome_of_hasDir hr.cs]

/-- The states of a write frame: every device hears its three bytes (42 R188). -/
theorem RxBus.foldl_see_writeFrameStates (hp : s.SpiPinsOk p) (hr : s.RegPinsOk p r) (hrst : s.level r.rst = true)
    (hcs : bitAt u.prev r.cs = true) (hclk : bitAt u.prev p.clk = s.level p.clk) (op reg data : Byte) :
    (s.writeFrameStates p r op reg data).foldl (RxBus.see cfg p r) u =
      ⟨(s.setValue r.cs true).wireState p false (data.getLsbD 0),
        u.devs.map fun d => (d.hear cfg [op, reg, data]).endFrame⟩ := by
  obtain ⟨hrst', hcs', -⟩ := State.bits_released hp hr hrst (data.getLsbD 0)
  rw [State.writeFrameStates, List.foldl_append, List.foldl_append, List.foldl_append,
    RxBus.foldl_see_frameHead hp hr hrst hcs hclk op, RxBus.foldl_see_frameNext hp hr hrst _ (State.selects_wireState hr hrst _ _),
    RxBus.foldl_see_frameNext hp hr hrst _ (State.selects_wireState hr hrst _ _), List.foldl_cons, List.foldl_nil,
    RxBus.see_eq_map fun d _ => RxDev.see_deselected hrst' hcs', List.map_map]
  rfl

/-- After the device reset CS and RST are high on the wire (42 R184). -/
theorem State.bits_reset (hr : s.RegPinsOk p r) :
    bitAt ((s.setValue r.cs true).setValue r.rst true).pinByte r.rst = true ∧
      bitAt ((s.setValue r.cs true).setValue r.rst true).pinByte r.cs = true := by
  have hdir : (s.setValue r.cs true).hasDir r.rst .output = true := by simpa using hr.rst
  constructor
  · simp [hr.rst, State.level_setValue, State.isSome_of_hasDir hdir]
  · simp [hr.cs, State.level_setValue_ne _ _ hr.cs_rst.symm, State.level_setValue, State.isSome_of_hasDir hr.cs]

/-- The states of the device reset: every device is at power-on (42 R184). -/
theorem RxBus.foldl_see_resetStates (hr : s.RegPinsOk p r) :
    (s.resetStates r).foldl (RxBus.see cfg p r) u =
      ⟨((s.setValue r.cs true).setValue r.rst true).pinByte, (u.devs.map RxDev.strap).map RxDev.powerOn⟩ := by
  obtain ⟨hrst, hcs⟩ := State.bits_reset hr
  rw [State.resetStates, List.foldl_cons, List.foldl_cons, List.foldl_nil,
    RxBus.see_eq_map fun d _ => RxDev.see_reset (State.bitAt_pinByte_setValue_low _ _),
    RxBus.see_eq_map fun d _ => RxDev.see_deselected hrst hcs, List.map_map, List.map_map]
  rfl

/-- The states of REG_BIND: the device reset, then the broadcast's frame on devices at power-on (42 R184, R185). -/
theorem RxBus.foldl_see_bindStates (hp : s.SpiPinsOk p) (hr : s.RegPinsOk p r) (op reg data : Byte) :
    ∃ y, bitAt y r.cs = true ∧ bitAt y p.clk = false ∧
      (s.resetStates r ++ ((s.setValue r.cs true).setValue r.rst true).writeFrameStates p r op reg data).foldl
          (RxBus.see cfg p r) u =
        ⟨y, ((u.devs.map RxDev.strap).map RxDev.powerOn).map fun d => (d.hear cfg [op, reg, data]).endFrame⟩ := by
  obtain ⟨hrst, hcs⟩ := State.bits_reset hr
  have hlevel : ((s.setValue r.cs true).setValue r.rst true).level r.rst = true := by
    rw [State.bitAt_pinByte, Bool.and_eq_true] at hrst
    exact hrst.2
  have hp' : ((s.setValue r.cs true).setValue r.rst true).SpiPinsOk p := hp.congr (by simp)
  have hr' : ((s.setValue r.cs true).setValue r.rst true).RegPinsOk p r := hr.congr (by simp)
  obtain ⟨-, hrcs, hrclk⟩ := State.bits_released hp' hr' hlevel (data.getLsbD 0)
  refine ⟨_, hrcs, hrclk, ?_⟩
  rw [List.foldl_append, RxBus.foldl_see_resetStates hr]
  exact RxBus.foldl_see_writeFrameStates (u := ⟨((s.setValue r.cs true).setValue r.rst true).pinByte, _⟩) hp' hr' hlevel hcs
    (by simp [hp.clk]) op reg data

/-! ## MISO -/

/-- The bus presents `v`: every device is in its frame, those that present hold `v`, at least one does, and the others have their
register byte behind them. -/
structure RxBus.Presents (u : RxBus) (v : Byte) : Prop where
  inFrame    : ∀ d ∈ u.devs, d.inFrame = true
  presenting : ∀ d ∈ u.devs, d.presenting = true → d.out = v
  silent     : ∀ d ∈ u.devs, d.presenting = false → 16 ≤ d.edges
  nonempty   : ∃ d ∈ u.devs, d.presenting = true

theorem RxBus.Presents.miso {v : Byte} (h : u.Presents v) : u.miso = v.getLsbD 7 := by
  obtain ⟨d, hd, hpres⟩ := h.nonempty
  rw [Bool.eq_iff_iff, RxBus.miso, List.any_eq_true]
  constructor
  · rintro ⟨e, he, hmiso⟩
    rw [Bool.and_eq_true] at hmiso
    rw [← h.presenting e he hmiso.1]
    exact hmiso.2
  · intro hv
    exact ⟨d, hd, by rw [hpres, h.presenting d hd hpres, hv]; rfl⟩

/-- After the register byte no byte makes a device present. -/
theorem RxDev.takeByte_of_gt {n : Nat} (h : 16 < n) (b : Byte) (d : RxDev) :
    (d.takeByte cfg n b).presenting = d.presenting ∧ (d.takeByte cfg n b).edges = d.edges := by
  rw [RxDev.takeByte, if_neg (by omega), if_neg (by omega)]
  repeat' split
  all_goals exact ⟨rfl, rfl⟩

theorem RxDev.presenting_edge_of_silent {d : RxDev} (hpres : d.presenting = false) (h : 16 ≤ d.edges) (b : Bool) :
    (d.edge cfg b).presenting = false ∧ 16 ≤ (d.edge cfg b).edges := by
  obtain ⟨hp, he⟩ := RxDev.takeByte_of_gt (cfg := cfg) (show 16 < d.edges + 1 by omega) (shiftIn d.shift b)
    { d with edges := d.edges + 1, shift := shiftIn d.shift b }
  rw [RxDev.edge_of_not_presenting hpres]
  exact ⟨hp.trans hpres, he ▸ Nat.le_succ_of_le h⟩

/-- A rising edge shifts what the bus presents. -/
theorem RxBus.Presents.edge {v : Byte} (h : u.Presents v) (b : Bool) (y : Byte) :
    RxBus.Presents ⟨y, u.devs.map (RxDev.edge cfg b)⟩ (v <<< 1) where
  inFrame := by simpa using h.inFrame
  presenting := by
    simp only [List.forall_mem_map]
    intro d hd hpres
    cases hp : d.presenting with
    | false =>
      rw [(RxDev.presenting_edge_of_silent hp (h.silent d hd hp) b).1] at hpres
      cases hpres
    | true => rw [RxDev.edge_of_presenting hp, ← h.presenting d hd hp]
  silent := by
    simp only [List.forall_mem_map]
    intro d hd hpres
    cases hp : d.presenting with
    | false => exact (RxDev.presenting_edge_of_silent hp (h.silent d hd hp) b).2
    | true =>
      rw [RxDev.edge_of_presenting hp] at hpres
      exact absurd (hp.symm.trans hpres) (by decide)
  nonempty := by
    obtain ⟨d, hd, hp⟩ := h.nonempty
    exact ⟨_, List.mem_map_of_mem hd, by rw [RxDev.edge_of_presenting hp]; exact hp⟩

end Bus

end Sys2Proof.Machine
end

section
/-!
The round trip over register expanders (42 R194): REG_BIND sets HAEN on every device, REG_WRITE leaves the datum in the devices it
addresses, and REG_READ clocks it out of them.
-/

namespace Sys2Proof.Machine

/-! ## The frames write in full -/

theorem csAssert_writesInFull (r : RegPins) (s : State) : (csAssert r s).WritesInFull s := pushValue_writesInFull false s r.cs false

theorem csRelease_writesInFull (r : RegPins) (s : State) : (csRelease r s).WritesInFull s := pushValue_writesInFull true s r.cs true

theorem writeFrame_writesInFull (p : SpiPins) (r : RegPins) (dev : DevAddr) (reg data : Byte) (s : State) :
    (writeFrame p r dev reg data s).WritesInFull s :=
  (csAssert_writesInFull r s).andThen fun _ t => (spiSend_writesInFull p _ t).andThen fun _ t =>
    (spiSend_writesInFull p _ t).andThen fun _ t => (spiSend_writesInFull p _ t).andThen fun _ t => csRelease_writesInFull r t

theorem deviceReset_writesInFull (r : RegPins) (s : State) : (deviceReset r s).WritesInFull s := by
  have hlow : (pushState true ((s.setValue r.cs true).setValue r.rst false)).WritesInFull s :=
    (pushValue_writesInFull true (s.setValue r.cs true) r.rst false).after (.of_quiet rfl rfl rfl)
  exact hlow.andThen fun _ t => pushValue_writesInFull true t r.rst true

theorem bindTransfer_writesInFull (p : SpiPins) (r : RegPins) (s : State) : (bindTransfer p r s).WritesInFull s :=
  (deviceReset_writesInFull r s).andThen fun _ t => writeFrame_writesInFull p r _ _ _ t

theorem bindAndBroadcast_writesInFull (p : SpiPins) (r : RegPins) (s : State) :
    (bindAndBroadcast p r s).WritesInFull { s with spi := some p, reg := some r } := by
  rw [bindAndBroadcast_eq]
  refine (bindTransfer_writesInFull p r _).andThen fun _ u => ?_
  rintro _ _ ⟨⟩
  exact .of_quiet rfl rfl rfl

/-- The order check puts nothing on the wire (42 R191). -/
theorem State.wire_orderCheck (s : State) (dev : DevAddr) : (s.orderCheck dev).wire = s.wire := by
  unfold State.orderCheck
  split
  · simp [State.wire, wireBytes_append, wireBytes]
  · rfl

theorem State.writesInFull_orderCheck (s : State) (dev : DevAddr) : s.WritesInFull (s.orderCheck dev) :=
  .of_quiet (by simp) (by simpa using (s.moves_orderCheck dev fun _ => False).stream) (s.wire_orderCheck dev)

/-! ## The bus in a state -/

/-- The bus of register expanders after what is on the wire. -/
def State.bus (s : State) (p : SpiPins) (r : RegPins) (straps : List DevAddr) : RxBus := RxBus.run s.cfg p r straps s.wire

/-- Register expanders strapped at `straps` answer the READs (20 R66). -/
structure State.Expanded (s : State) (p : SpiPins) (r : RegPins) (straps : List DevAddr) : Prop where
  sim    : s.sim = true
  source : s.cfg.simSource = .expanders p.clk p.mosi p.miso r.cs r.rst straps
  spiOk  : s.SpiPinsOk p
  regOk  : s.RegPinsOk p r

/-- Between two register commands: both links are bound, no device is selected, and the clock is low on the pins and on the wire. -/
structure State.BusReady (s : State) (p : SpiPins) (r : RegPins) (straps : List DevAddr) : Prop where
  expanded : s.Expanded p r straps
  phase    : s.phase = .ready
  spi      : s.spi = some p
  reg      : s.reg = some r
  rst      : s.level r.rst = true
  clk      : s.level p.clk = false
  wireCs   : bitAt (s.bus p r straps).prev r.cs = true
  wireClk  : bitAt (s.bus p r straps).prev p.clk = false

/-- Within the receive of a read frame: the devices are selected, the clock is low on the wire, and the bus presents `v`. -/
structure State.Receiving (s : State) (p : SpiPins) (r : RegPins) (straps : List DevAddr) (v : Byte) : Prop where
  expanded : s.Expanded p r straps
  selects  : ∀ c d, r.Selects (s.wireState p c d)
  wire     : r.Selects (s.bus p r straps).prev
  wireClk  : bitAt (s.bus p r straps).prev p.clk = false
  presents : (s.bus p r straps).Presents v

section RoundTrip

variable {s t : State} {p : SpiPins} {r : RegPins} {straps : List DevAddr} {d : DevAddr} {v : Byte}

theorem State.bus_of_wire {bs : List Byte} (hcfg : t.cfg = s.cfg) (h : t.wire = s.wire ++ bs) :
    t.bus p r straps = bs.foldl (RxBus.see s.cfg p r) (s.bus p r straps) := by
  rw [State.bus, h, hcfg, RxBus.run, List.foldl_append, State.bus, RxBus.run]

theorem State.straps_bus (s : State) (p : SpiPins) (r : RegPins) (straps : List DevAddr) :
    (s.bus p r straps).devs.map RxDev.strap = straps := by
  rw [State.bus, RxBus.run, RxBus.straps_foldl_see, List.map_map]
  exact List.map_id straps

theorem State.bus_congr (hcfg : t.cfg = s.cfg) (hw : t.wire = s.wire) : t.bus p r straps = s.bus p r straps := by
  rw [State.bus, hcfg, hw, State.bus]

/-- A device is strapped at each address of the list. -/
theorem State.exists_dev_bus (s : State) (p : SpiPins) (r : RegPins) (h : d ∈ straps) :
    ∃ e ∈ (s.bus p r straps).devs, e.strap = d := by
  rwa [← s.straps_bus p r straps, List.mem_map] at h

theorem State.Expanded.congr (h : s.Expanded p r straps) (hsim : t.sim = s.sim) (hcfg : t.cfg = s.cfg)
    (hshape : ∀ i, t.shape i = s.shape i) : t.Expanded p r straps :=
  ⟨hsim.trans h.sim, by rw [hcfg]; exact h.source, h.spiOk.congr hshape, h.regOk.congr hshape⟩

theorem State.Expanded.evolves (h : s.Expanded p r straps) (he : s.Evolves t) : t.Expanded p r straps :=
  h.congr he.sim he.cfg he.shape

/-! ## The receive -/

/-- A bit received is the first that the bus presents. -/
theorem recvBit_expanders (h : s.Receiving p r straps v) (acc : Byte) :
    ∃ t, recvBit p acc s = .done (shiftIn acc (v.getLsbD 7)) t ∧ t.Receiving p r straps (v <<< 1) := by
  obtain ⟨hx, hsel, hwire, hwclk, hpres⟩ := h
  obtain ⟨b, t, hb, ht, htr, he, htx, hw, -⟩ := recvBit_sim hx.spiOk acc hx.sim
  obtain ⟨hhigh, hmosi⟩ := State.bitAt_wireState hx.spiOk true (s.level p.mosi)
  obtain ⟨hlow, -⟩ := State.bitAt_wireState hx.spiOk false (s.level p.mosi)
  have hsample : bitAt b p.miso = v.getLsbD 7 := by
    have hmiso := hpres.miso
    rw [State.bus] at hmiso
    rw [hb, simRead, hx.source]
    simp [bitOnly, State.wireBytes_flushedTrace, hmiso]
  have hbytes : t.wire = s.wire ++ [s.wireState p true (s.level p.mosi), s.wireState p false (s.level p.mosi)] := by
    rw [State.wire, htx, List.append_nil, htr, wireBytes_append, State.wireBytes_flushedTrace]
    rfl
  have hbus : t.bus p r straps =
      ⟨s.wireState p false (s.level p.mosi), (s.bus p r straps).devs.map (RxDev.edge s.cfg (s.level p.mosi))⟩ := by
    rw [State.bus_of_wire he.cfg hbytes, List.foldl_cons, List.foldl_cons, List.foldl_nil,
      RxBus.see_rise (hsel _ _) hwire hwclk hhigh hpres.inFrame, hmosi,
      RxBus.see_low (u := ⟨s.wireState p true _, _⟩) (hsel _ _) (hsel _ _) hlow]
  rw [hsample] at ht
  exact ⟨t, ht, hx.evolves he, fun c d => hw c d ▸ hsel c d, by rw [hbus]; exact hsel _ _, by rw [hbus]; exact hlow,
    by rw [hbus]; exact hpres.edge _ _⟩

/-- `k` bits received are the first `k` that the bus presents. -/
theorem recvBits_expanders {k : Nat} (hk : k ≤ 8) (h : s.Receiving p r straps v) (acc : Byte) :
    ∃ t, recvBits p k acc s = .done (((bitsMsb v).take k).foldl shiftIn acc) t := by
  induction k generalizing acc s v with
  | zero => exact ⟨s, rfl⟩
  | succ k ih =>
    obtain ⟨t, ht, h'⟩ := recvBit_expanders h acc
    obtain ⟨u, hu⟩ := ih (by omega) h' (shiftIn acc (v.getLsbD 7))
    have hshift : bitsMsb (v <<< 1) = (bitsMsb v).tail ++ [false] := by simp [bitsMsb]
    have htake : (bitsMsb v).take (k + 1) = v.getLsbD 7 :: (bitsMsb (v <<< 1)).take k := by
      rw [hshift, List.take_append_of_le_length (by simp [bitsMsb]; omega)]
      rfl
    refine ⟨u, ?_⟩
    rw [recvBits, ht, htake]
    exact hu

/-- `SpiRecv()` returns what the bus presents. -/
theorem spiRecv_expanders (h : s.Receiving p r straps v) (hclk : s.level p.clk = false) : ∃ t, spiRecv p s = .done v t := by
  obtain ⟨t, ht⟩ := recvBits_expanders le_rfl h 0x00#8
  refine ⟨t, ?_⟩
  rw [spiRecv, clockIdleFix_of_low hclk]
  rwa [List.take_of_length_le (by rfl), foldl_shiftIn_bitsMsb] at ht

/-! ## What the devices hold -/

/-- Every device has HAEN set, and one is strapped at `d`. -/
structure RxBus.Enabled (u : RxBus) (d : DevAddr) : Prop where
  haen  : ∀ e ∈ u.devs, e.haen = true
  strap : ∃ e ∈ u.devs, e.strap = d

/-- The devices strapped at `d` hold `v` in the register `a`. -/
def RxBus.Holds (u : RxBus) (d : DevAddr) (a : BitVec 5) (v : Byte) : Prop := ∀ e ∈ u.devs, e.strap = d → e.register a = v

theorem RxDev.addressed_of_haen {e : RxDev} (h : e.haen = true) {dev : DevAddr} : e.addressed dev = true ↔ e.strap = dev := by
  rw [RxDev.addressed, if_pos h, beq_iff_eq, eq_comm]

/-- A device after a write frame to `dev`. -/
def RxDev.written (cfg : Params) (dev : DevAddr) (reg data : Byte) (e : RxDev) : RxDev :=
  (e.hear cfg [opcode cfg.opcNibble dev false, regByte reg, data]).endFrame

theorem RxDev.strap_written (cfg : Params) (dev : DevAddr) (reg data : Byte) (e : RxDev) :
    (e.written cfg dev reg data).strap = e.strap := by
  rw [RxDev.written, RxDev.hear_write]
  cases e.addressed dev <;> rfl

theorem RxDev.haen_written (cfg : Params) (dev : DevAddr) (reg data : Byte) (e : RxDev) :
    (e.written cfg dev reg data).haen =
      if e.addressed dev && reg.extractLsb' 0 5 == cfg.ctrlReg then data &&& cfg.haenMask != 0#8 else e.haen := by
  rw [RxDev.written, RxDev.hear_write]
  cases e.addressed dev <;> rfl

theorem RxDev.register_written (cfg : Params) {dev : DevAddr} (reg data : Byte) {e : RxDev} (h : e.addressed dev = true) :
    (e.written cfg dev reg data).register (reg.extractLsb' 0 5) = data := by
  rw [RxDev.written, RxDev.hear_write, if_pos h]
  simp [RxDev.register, RxDev.endFrame]

/-- After the opcode and the register byte of a read frame just the addressed devices present, each its register. -/
theorem RxDev.hear_read_presents (cfg : Params) (dev : DevAddr) (reg : Byte) (e : RxDev) :
    (e.hear cfg [opcode cfg.opcNibble dev true, regByte reg]).presenting = e.addressed dev ∧
      (e.hear cfg [opcode cfg.opcNibble dev true, regByte reg]).edges = 16 ∧
      (e.addressed dev = true →
        (e.hear cfg [opcode cfg.opcNibble dev true, regByte reg]).out = e.register (reg.extractLsb' 0 5)) := by
  rw [RxDev.hear_read]
  cases e.addressed dev <;> simp [RxDev.startFrame]

/-- After the opcode and the register byte of a read frame the bus presents what the addressed devices hold. -/
theorem RxBus.Enabled.presents {u : RxBus} (h : u.Enabled d) {reg : Byte} (hv : u.Holds d (reg.extractLsb' 0 5) v) (cfg : Params)
    (x : Byte) : RxBus.Presents ⟨x, u.devs.map (RxDev.hear cfg [opcode cfg.opcNibble d true, regByte reg])⟩ v where
  inFrame := by simp [RxDev.inFrame_hear]
  presenting := by
    simp only [List.forall_mem_map]
    intro e he hpres
    obtain ⟨haddr, -, hout⟩ := RxDev.hear_read_presents cfg d reg e
    rw [haddr] at hpres
    rw [hout hpres]
    exact hv e he ((RxDev.addressed_of_haen (h.haen e he)).1 hpres)
  silent := by
    simp only [List.forall_mem_map]
    intro e _ _
    exact (RxDev.hear_read_presents cfg d reg e).2.1.ge
  nonempty := by
    obtain ⟨e, he, hstrap⟩ := h.strap
    refine ⟨_, List.mem_map_of_mem he, ?_⟩
    rw [(RxDev.hear_read_presents cfg d reg e).1]
    exact (RxDev.addressed_of_haen (h.haen e he)).2 hstrap

/-! ## The commands -/

theorem State.BusReady.respond (h : s.BusReady p r straps) (c : Status) (b : Byte) : (s.respond c b).BusReady p r straps :=
  { h with
    expanded := h.expanded.congr rfl rfl fun _ => rfl
    wireCs := (State.bus_congr (s := s) rfl rfl).symm ▸ h.wireCs
    wireClk := (State.bus_congr (s := s) rfl rfl).symm ▸ h.wireClk }

theorem State.BusReady.orderCheck (h : s.BusReady p r straps) (dev : DevAddr) : (s.orderCheck dev).BusReady p r straps := by
  have hbus := State.bus_congr (p := p) (r := r) (straps := straps) (s.orderCheck_cfg dev) (s.wire_orderCheck dev)
  exact
    { expanded := h.expanded.evolves (s.evolves_orderCheck dev)
      phase := by simpa using h.phase
      spi := by simpa using h.spi
      reg := by simpa using h.reg
      rst := (State.level_congr (by simp)).trans h.rst
      clk := (State.level_congr (by simp)).trans h.clk
      wireCs := by rw [hbus]; exact h.wireCs
      wireClk := by rw [hbus]; exact h.wireClk }

/-- REG_BIND: the devices are reset, and all of them hear the broadcast (42 R184, R185). -/
theorem regBind_expanders (hph : s.phase ≠ .idle) (hx : s.Expanded p r straps) :
    ∃ t, exec (.regBind p.clk p.mosi p.miso r.cs r.rst) s = .next t ∧ t.BusReady p r straps ∧
      t.responses = s.responses ++ [⟨.ok, 0x00#8⟩] ∧ t.cfg = s.cfg ∧
      (t.bus p r straps).devs = (straps.map RxDev.powerOn).map
        (RxDev.written s.cfg 0#3 (s.cfg.ctrlReg.zeroExtend 8) (s.cfg.ctrlDefault ||| s.cfg.haenMask)) := by
  obtain ⟨t, ht, hm, -, hclk, -, hcs, hrst⟩ := bindAndBroadcast_moves hx.spiOk hx.regOk (.inl hx.sim)
  have hfull := bindAndBroadcast_writesInFull p r s _ _ ht
  have hwire := hm.wire ⟨hfull.sim, hfull.full⟩ hx.sim
  obtain ⟨y, hycs, hyclk, hfold⟩ := RxBus.foldl_see_bindStates (cfg := s.cfg) (u := s.bus p r straps) hx.spiOk hx.regOk
    (opcode s.cfg.opcNibble 0#3 false) (regByte (s.cfg.ctrlReg.zeroExtend 8)) (s.cfg.ctrlDefault ||| s.cfg.haenMask)
  have hbus := (State.bus_of_wire (s := s) (p := p) (r := r) (straps := straps) hm.evolves.cfg hwire).trans hfold
  rw [State.straps_bus] at hbus
  have hbus' : (State.respond { t with haenOk := true, phase := .ready } .ok 0x00#8).bus p r straps = _ :=
    (State.bus_congr rfl rfl).trans hbus
  refine ⟨_, exec_regBind_of_run hph hx.spiOk hx.regOk ht, ?_, ?_, hm.evolves.cfg, congrArg RxBus.devs hbus'⟩
  · exact
      { expanded := hx.congr hm.evolves.sim hm.evolves.cfg hm.evolves.shape
        phase := rfl, spi := hm.evolves.spi, reg := hm.evolves.reg, rst := hrst, clk := hclk
        wireCs := by rw [hbus']; exact hycs
        wireClk := by rw [hbus']; exact hyclk }
  · exact congrArg (· ++ [(⟨.ok, 0x00#8⟩ : Response)]) hm.evolves.responses

/-- REG_WRITE: every device hears the frame (42 R188). -/
theorem regWrite_expanders (h : s.BusReady p r straps) (dev : DevAddr) (reg data : Byte) :
    ∃ t, exec (.regWrite dev reg data) s = .next t ∧ t.BusReady p r straps ∧ t.responses = s.responses ++ [⟨.ok, 0x00#8⟩] ∧
      t.cfg = s.cfg ∧ (t.bus p r straps).devs = (s.bus p r straps).devs.map (RxDev.written s.cfg dev reg data) := by
  obtain ⟨hx, hph, hspi, hreg, hrst, hclk, hwcs, hwclk⟩ := h
  obtain ⟨t, ht, hm, -, hclk', -, -⟩ := checkedWriteFrame_moves hx.spiOk hx.regOk dev reg data (.inl hx.sim)
  have he := hm.evolves
  have hfull := (s.writesInFull_orderCheck dev).trans (writeFrame_writesInFull p r dev reg data _ _ _ ht)
  have hbus : t.bus p r straps = _ := State.bus_of_wire he.cfg (hm.wire hfull hx.sim)
  rw [RxBus.foldl_see_writeFrameStates hx.spiOk hx.regOk hrst hwcs (hwclk.trans hclk.symm)] at hbus
  obtain ⟨-, hrcs, hrclk⟩ := State.bits_released hx.spiOk hx.regOk hrst (data.getLsbD 0)
  have hready : t.BusReady p r straps :=
    { expanded := hx.evolves he
      phase := he.phase.trans hph, spi := he.spi.trans hspi, reg := he.reg.trans hreg
      rst := (State.level_congr (hm.pins _ hx.regOk.rst_not_driven)).trans hrst
      clk := hclk'
      wireCs := by rw [hbus]; exact hrcs
      wireClk := by rw [hbus]; exact hrclk }
  refine ⟨_, exec_regWrite_of_run hph hspi hreg ht, hready.respond _ _, ?_, he.cfg, congrArg RxBus.devs hbus⟩
  rw [State.respond_responses, he.responses]

/-- The read frame returns what the devices of the address hold (42 R189). -/
theorem readFrame_expanders (h : s.BusReady p r straps) {reg : Byte} (hen : (s.bus p r straps).Enabled d)
    (hv : (s.bus p r straps).Holds d (reg.extractLsb' 0 5) v) : ∃ t, readFrame p r d reg s = .done v t := by
  obtain ⟨hx, -, -, -, hrst, hclk, hwcs, hwclk⟩ := h
  have hsel := State.selects_wireState hx.regOk hrst
  obtain ⟨t, u1, ht, hu1, hcfg, hm1, -, hc1, hs1, hw1⟩ :=
    frameHead_moves (r := r) hx.spiOk (opcode s.cfg.opcNibble d true) (.inl hx.sim)
  have hx1 := hx.evolves hm1.evolves
  have hfull1 := (csAssert_writesInFull r s _ _ ht).trans (spiSend_writesInFull p _ t _ _ hu1)
  have hbus1 : u1.bus p r straps = _ := State.bus_of_wire hm1.evolves.cfg (hm1.wire hfull1 hx.sim)
  rw [RxBus.foldl_see_frameHead hx.spiOk hx.regOk hrst hwcs (hwclk.trans hclk.symm)] at hbus1
  obtain ⟨u2, hu2, hm2, -, hc2, -, -, hw2⟩ :=
    spiSend_next (hx.spiOk.congr (by simp)) (fun i => by simpa using hs1 i) hw1 hc1 (regByte reg) (.inl hx1.sim)
  have hbus2 : u2.bus p r straps = _ :=
    State.bus_of_wire hm2.evolves.cfg (hm2.wire (spiSend_writesInFull p _ u1 _ _ hu2) hx1.sim)
  rw [hm1.evolves.cfg, hbus1, RxBus.foldl_see_frameNext hx.spiOk hx.regOk hrst _ (hsel _ _)] at hbus2
  have hrecv : u2.Receiving p r straps v :=
    { expanded := hx1.evolves hm2.evolves
      selects := fun c d => hw2 c d ▸ hsel c d
      wire := by rw [hbus2]; exact hsel _ _
      wireClk := by rw [hbus2]; exact (State.bitAt_wireState (hx.spiOk.congr (by simp)) false _).1
      presents := by rw [hbus2]; exact hen.presents hv s.cfg _ }
  obtain ⟨u3, hu3⟩ := spiRecv_expanders hrecv hc2
  have hs3 : u3.sim = true := ((composed_spiRecv p).transfers hu3).evolves.sim.trans hrecv.expanded.sim
  obtain ⟨u4, hu4, -⟩ := pushState_moves (s := u3.setValue r.cs true) true (.inl hs3) fun _ => False
  refine ⟨u4, ?_⟩
  rw [readFrame, ht]
  simp only [Run.andThen, hcfg, hu1, hu2, hu3, csRelease, hu4]

/-- REG_READ returns what the devices of the address hold (42 R189). -/
theorem regRead_expanders (h : s.BusReady p r straps) {reg : Byte} (hen : (s.bus p r straps).Enabled d)
    (hv : (s.bus p r straps).Holds d (reg.extractLsb' 0 5) v) :
    ∃ t, exec (.regRead d reg) s = .next t ∧ t.responses = s.responses ++ [⟨.ok, v⟩] := by
  have hbus : (s.orderCheck d).bus p r straps = s.bus p r straps := State.bus_congr (s.orderCheck_cfg d) (s.wire_orderCheck d)
  obtain ⟨t, ht⟩ := readFrame_expanders (h.orderCheck d) (hbus ▸ hen) (hbus ▸ hv)
  refine ⟨_, exec_regRead_of_run h.phase h.spi h.reg ht, ?_⟩
  rw [State.respond_responses, ((composed_regRead p r d reg).transfers ht).evolves.responses]

/-! ## The devices after each command -/

theorem haenMask_ne_zero (cfg : Params) : cfg.haenMask ≠ 0#8 := by
  have h : ∀ i : BitVec 3, 1#8 <<< i.toNat ≠ 0#8 := by decide
  exact h cfg.haenBit

/-- The broadcast sets HAEN on a device at power-on: it hears address 0, and the datum carries the HAEN bit (42 R185). -/
theorem RxDev.haen_broadcast (cfg : Params) (strap : DevAddr) :
    ((RxDev.powerOn strap).written cfg 0#3 (cfg.ctrlReg.zeroExtend 8) (cfg.ctrlDefault ||| cfg.haenMask)).haen = true := by
  have hreg : (cfg.ctrlReg.zeroExtend 8).extractLsb' 0 5 = cfg.ctrlReg := by
    apply BitVec.eq_of_getLsbD_eq
    intro i hi
    interval_cases i <;> simp
  have hmask : (cfg.ctrlDefault ||| cfg.haenMask) &&& cfg.haenMask = cfg.haenMask := byte_ext fun i => by
    simpa using Or.inr
  rw [RxDev.haen_written, hreg, hmask]
  simpa [RxDev.addressed, RxDev.powerOn] using haenMask_ne_zero cfg

/-- A write that does not clear HAEN leaves every device enabled, and the devices of its address hold the datum. -/
theorem RxBus.Enabled.written {u u' : RxBus} (h : u.Enabled d) {cfg : Params} {reg : Byte}
    (hkeep : reg.extractLsb' 0 5 = cfg.ctrlReg → v &&& cfg.haenMask ≠ 0#8)
    (hu : u'.devs = u.devs.map (RxDev.written cfg d reg v)) : u'.Enabled d ∧ u'.Holds d (reg.extractLsb' 0 5) v := by
  refine ⟨⟨?_, ?_⟩, ?_⟩
  · rw [hu, List.forall_mem_map]
    intro e he
    rw [RxDev.haen_written]
    split
    · next hc =>
      rw [Bool.and_eq_true, beq_iff_eq] at hc
      simpa using hkeep hc.2
    · exact h.haen e he
  · obtain ⟨e, he, hstrap⟩ := h.strap
    exact ⟨_, hu ▸ List.mem_map_of_mem he, (RxDev.strap_written ..).trans hstrap⟩
  · rw [RxBus.Holds, hu, List.forall_mem_map]
    intro e he hstrap
    rw [RxDev.strap_written] at hstrap
    exact RxDev.register_written cfg reg v ((RxDev.addressed_of_haen (h.haen e he)).2 hstrap)

/-- Settles O47: the broadcast enables the devices, the write leaves `v` in those strapped at `d`, and the read returns it. -/
theorem registerRoundTrip : Obligations.RegisterRoundTrip := by
  intro s p r straps d reg v hph hp hr hs hsrc hd hreg
  obtain ⟨t, ht, htready, htresp, htcfg, htdevs⟩ := regBind_expanders hph ⟨hs, hsrc, hp, hr⟩
  obtain ⟨u, hu, huready, huresp, -, hudevs⟩ := regWrite_expanders htready d reg v
  have hen : (t.bus p r straps).Enabled d := by
    refine ⟨?_, t.exists_dev_bus p r hd⟩
    simp only [htdevs, List.forall_mem_map]
    exact fun strap _ => RxDev.haen_broadcast s.cfg strap
  have hkeep : reg.extractLsb' 0 5 = t.cfg.ctrlReg → v &&& t.cfg.haenMask ≠ 0#8 := by
    rw [htcfg]
    intro hctrl
    exact hreg.resolve_left fun hne => hne (by rw [regByte_eq_zeroExtend, hctrl])
  obtain ⟨hen', hv⟩ := hen.written hkeep hudevs
  obtain ⟨w, hw, hwresp⟩ := regRead_expanders huready hen' hv
  exact ⟨t, u, w, ht, hu, hw, by rw [hwresp, huresp, htresp, List.append_assoc, List.append_assoc]; rfl⟩

end RoundTrip

end Sys2Proof.Machine
end

section
/-!
Phases and stops (60 R215, R219, R229): a command that the phase does not accept, a step with nothing to take, and that under the
invariant every instruction and every step has a next state.
-/

namespace Sys2Proof.Machine

variable {s : State}

/-! ## Refusals -/

/-- What the phase does not accept is refused, the bus frames included (60 R215, log 10). -/
theorem exec_of_not_accepted {i : Instr} (h : accepts i s = false) : exec i s = refuseState s := by
  have hne : ¬ accepts i s = true := by simp [h]
  cases i with
  | planeInit es sim => exact if_neg fun hp => hne (by simp [accepts, hp])
  | spiBind clk mosi miso => exact if_neg fun hp => hne (by simpa [accepts] using hp)
  | regWrite | regRead | frameWr | frameRd => exact if_neg fun hp => hne (by simp [accepts, hp])
  | planeInitEntry => cases h
  | _ => exact if_neg hne

/-- Settles O9: every guard of `exec` is the phase table. -/
theorem commandInWrongPhaseIsRefused : Obligations.CommandInWrongPhaseIsRefused :=
  fun _ _ _ _ h => exec_of_not_accepted h

/-- Settles O8: the fetch finds the port empty. -/
theorem idleBlockHoldsItsState : Obligations.IdleBlockHoldsItsState := by
  intro s hs hp
  rw [step, fetch_command hs, fetchCommand, hp]

/-! ## Next states -/

/-- The machine does not stop. -/
def HasNext (o : Out) : Prop := ∃ t, o = .next t

theorem finish_hasNext (c : Status) (r : Run Byte) : HasNext (finish c r) := by
  cases r <;> exact ⟨_, rfl⟩

theorem bringUp_hasNext (s : State) : HasNext (bringUp s) := by
  unfold bringUp
  split
  · exact ⟨_, rfl⟩
  · split <;> exact ⟨_, rfl⟩

/-- A guarded command, which is refused elsewhere (60 R215). -/
theorem hasNext_guarded {c : Prop} [Decidable c] {o : Out} (h : c → HasNext o) : HasNext (if c then o else refuseState s) := by
  split
  · next hc => exact h hc
  · exact ⟨_, rfl⟩

theorem execPlaneInit_hasNext (es : List Entry) (sim : Bool) (s : State) : HasNext (execPlaneInit es sim s) := by
  refine hasNext_guarded fun _ => ?_
  split
  · exact ⟨_, rfl⟩
  · unfold construct
    split
    · exact ⟨_, rfl⟩
    · exact bringUp_hasNext _

theorem execPlaneInitEntry_hasNext (index : Byte) (dir : Dir) (init : Bool) (name : Byte) (s : State) :
    HasNext (execPlaneInitEntry index dir init name s) := by
  unfold execPlaneInitEntry
  split
  · exact ⟨_, rfl⟩
  · split <;> exact ⟨_, rfl⟩

/-- A transfer finds the SPI Link that the phase says is bound (10 R29). -/
theorem State.Inv.withLink_hasNext (h : s.Inv) (f : SpiPins → Run Byte) : HasNext
    (if s.linked then match s.spi with | none => .fault .spiUnbound | some p => finish .ioErr (f p) else refuseState s) := by
  refine hasNext_guarded fun hl => ?_
  obtain ⟨p, hs⟩ := h.exists_spi (State.linked_iff.1 hl)
  rw [hs]
  exact finish_hasNext _ _

/-- An access in READY finds both bindings (10 R29, R30). -/
theorem State.Inv.withBus_hasNext (h : s.Inv) (f : SpiPins → RegPins → Run Byte) :
    HasNext (s.withBus fun p r => finish .regAccessErr (f p r)) := by
  refine hasNext_guarded fun hp => ?_
  obtain ⟨p, hs⟩ := h.exists_spi (.inr hp)
  obtain ⟨r, hr⟩ := Option.isSome_iff_exists.1 (h.reg_iff.2 hp)
  rw [hs, hr]
  exact finish_hasNext _ _

/-- Under the invariant every instruction has a next state. -/
theorem State.Inv.exec_hasNext (h : s.Inv) (i : Instr) : HasNext (exec i s) := by
  cases i with
  | planeInit es sim => exact execPlaneInit_hasNext es sim s
  | planeInitEntry index dir init name => exact execPlaneInitEntry_hasNext index dir init name s
  | close | getPin | inject => exact hasNext_guarded fun _ => ⟨_, rfl⟩
  | setPin => exact hasNext_guarded fun _ => by split <;> exact ⟨_, rfl⟩
  | setPins | getPins => exact hasNext_guarded fun _ => finish_hasNext _ _
  | spiBind => exact hasNext_guarded fun _ => by split <;> exact ⟨_, rfl⟩
  | regBind =>
    refine hasNext_guarded fun _ => ?_
    split
    · exact ⟨_, rfl⟩
    · exact finish_hasNext _ _
  | spiSend v => exact h.withLink_hasNext fun p => (spiSend p v s).andThen fun _ t => .done 0x00#8 t
  | spiRecv => exact h.withLink_hasNext fun p => spiRecv p s
  | regWrite | regRead | frameWr | frameRd => exact h.withBus_hasNext _

/-- A fetch that finds no frame of the block finds foreign bytes at the framer (30 R104, log 15). -/
theorem foreign_of_fetch_stop {r : Refusal} (h : fetch s = .stop r) : decodeBus s.cfg.opcNibble s.busIn = .foreign := by
  unfold fetch at h
  split at h
  · unfold fetchFrame at h
    split at h
    · cases h
    · cases h
    · assumption
  · unfold fetchPayload at h
    repeat' split at h
    all_goals cases h
  · unfold fetchCommand at h
    repeat' split at h
    all_goals cases h

/-- Settles O55: a step runs an instruction in a state that meets the invariant, and no instruction stops there. -/
theorem noInstructionStopsTheMachine : Obligations.NoInstructionStopsTheMachine := by
  refine ⟨fun i s h => h.exec_hasNext i, fun s h hf => ?_⟩
  have htook := fetch_took s
  unfold step
  cases hs : fetch s with
  | idle => exact ⟨s, rfl⟩
  | run i u =>
    rw [hs] at htook
    exact (h.took htook).exec_hasNext i
  | receive u => exact ⟨u, rfl⟩
  | refuse u => exact ⟨_, rfl⟩
  | stop r => exact absurd (foreign_of_fetch_stop hs) hf

end Sys2Proof.Machine
end

section
/-!
The responses (60 R210): `Ends` lists how an instruction ends, with the status that its row of R210 allows it; which of these ends are
fatal (R220) is read off it.
-/

namespace Sys2Proof.Machine

/-- The error of a command whose READ or WRITE fails (60 R213, R214; of the frames: log 10). -/
def linkError : Instr → Option Status
  | .setPins _ | .getPins | .spiSend _ | .spiRecv => some .ioErr
  | .regBind _ _ _ _ _ | .regWrite _ _ _ | .regRead _ _ | .frameWr _ _ _ | .frameRd _ _ => some .regAccessErr
  | _ => none

/-- The fatal errors of each command (60 R210, R212 to R214). -/
inductive FatalError : Instr → Status → Byte → Prop
  | spiPins (clk mosi miso : PinIx) (reason : CfgReason) : FatalError (.spiBind clk mosi miso) .cfgErr reason.code
  | regPins (clk mosi miso cs rst : PinIx) (reason : CfgReason) : FatalError (.regBind clk mosi miso cs rst) .cfgErr reason.code
  | configure (es : List Entry) (sim : Bool) : FatalError (.planeInit es sim) .fatalIo fatalConfigure
  | firstPush (es : List Entry) (sim : Bool) : FatalError (.planeInit es sim) .fatalIo fatalFirstPush
  | link {i : Instr} {c : Status} (k : LinkOp) : linkError i = some c → FatalError i c k.code

/-- How an instruction run in `s` ends: with which response, and what that says of its next state. -/
inductive Ends (s : State) : Instr → State → Prop
  | replied {i : Instr} {u : State} (d : Byte) : u.responses = s.responses → Ends s i (u.respond .ok d)
  | refused {i : Instr} : Ends s i (s.respond .refusedState 0x00#8)
  | noPin (n : PinIx) (v : Bool) : Ends s (.setPin n v) (s.respond .noPin (n.zeroExtend 8))
  | badEntries (es : List Entry) (sim : Bool) (reason : CfgReason) : Ends s (.planeInit es sim) (s.respond .cfgErr reason.code)
  | unopened (es : List Entry) (sim : Bool) {u : State} : u.responses = s.responses →
      Ends s (.planeInit es sim) (u.powerOn.respond .fatalIo fatalOpen)
  | died {i : Instr} {c : Status} {d : Byte} {u : State} : FatalError i c d → u.responses = s.responses →
      Ends s i (u.closeDown.respond c d)
  | strayEntry (index : Byte) (dir : Dir) (init : Bool) (name : Byte) :
      Ends s (.planeInitEntry index dir init name) (s.respond .refusedEnc 0x00#8)
  | entry (index : Byte) (dir : Dir) (init : Bool) (name : Byte) {t : State} : t.responses = s.responses →
      Ends s (.planeInitEntry index dir init name) t

section Ends

variable {s t : State} {i : Instr}

/-- A guarded command ends as its body does, or is refused (60 R215). -/
theorem ends_guarded {c : Prop} [Decidable c] {o : Out} (ho : o = .next t → Ends s i t)
    (h : (if c then o else refuseState s) = .next t) : Ends s i t := by
  split at h
  · exact ho h
  · cases h
    exact .refused

/-- A command that ends with its procedure. -/
theorem finish_ends {c : Status} {r : Run Byte} (hc : linkError i = some c) (hr : r.state.responses = s.responses)
    (h : finish c r = .next t) : Ends s i t := by
  cases r with
  | done v u =>
    cases h
    exact .replied v hr
  | failed k u =>
    cases h
    exact .died (.link k hc) hr

/-- A transfer of the SPI Link. -/
theorem withLink_ends {f : SpiPins → State → Run Byte} (hi : linkError i = some .ioErr) (hf : ∀ p, Composed (f p))
    (h : (if s.linked then match s.spi with | none => .fault .spiUnbound | some p => finish .ioErr (f p s) else refuseState s) =
      (.next t : Out)) : Ends s i t := by
  refine ends_guarded (fun h => ?_) h
  split at h
  · cases h
  · exact finish_ends hi ((hf _).evolves s).responses h

/-- An access over the bus. -/
theorem withBus_ends {f : SpiPins → RegPins → State → Run Byte} (hi : linkError i = some .regAccessErr)
    (hf : ∀ p r, Composed (f p r)) (h : (s.withBus fun p r => finish .regAccessErr (f p r s)) = .next t) : Ends s i t := by
  refine ends_guarded (fun h => ?_) h
  split at h
  · cases h
  · cases h
  · exact finish_ends hi ((hf _ _).evolves s).responses h

theorem bringUp_ends {u : State} {es : List Entry} {sim : Bool} (hu : u.responses = s.responses) (h : bringUp u = .next t) :
    Ends s (.planeInit es sim) t := by
  have hconf := (configureLink_transfers u).evolves.responses.trans hu
  unfold bringUp at h
  generalize configureLink u = r at hconf h
  obtain ⟨_ | _, v⟩ := r
  · cases h
    exact .died (.configure es sim) hconf
  have hpush := (pushState_evolves true (v.record (.delaySettle v.cfg.settleDelay))).responses.trans hconf
  dsimp only at h
  generalize pushState true (v.record (.delaySettle v.cfg.settleDelay)) = r at hpush h
  cases r with
  | done _ w =>
    cases h
    exact .replied _ hpush
  | failed _ w =>
    cases h
    exact .died (.firstPush es sim) hpush

theorem construct_ends {es : List Entry} {sim : Bool} (h : construct es sim s = .next t) : Ends s (.planeInit es sim) t := by
  have hresp : (openLink s.cfg.openAttempts (s.buildArena es sim)).2.responses = s.responses := by
    rw [(openLink_dialled _ _).fields]
    rfl
  unfold construct at h
  generalize openLink s.cfg.openAttempts (s.buildArena es sim) = r at hresp h
  obtain ⟨_ | _, b⟩ := r
  · cases h
    exact .unopened es sim hresp
  · exact bringUp_ends (u := { b with phase := .plane }) hresp h

theorem execPlaneInitEntry_ends {index : Byte} {dir : Dir} {init : Bool} {name : Byte}
    (h : execPlaneInitEntry index dir init name s = .next t) : Ends s (.planeInitEntry index dir init name) t := by
  unfold execPlaneInitEntry at h
  split at h
  · cases h
    exact .strayEntry index dir init name
  · split at h
    · cases h
      exact .strayEntry index dir init name
    · cases h
      exact .entry index dir init name rfl

theorem execRegBind_ends {clk mosi miso cs rst : PinIx} (h : execRegBind clk mosi miso cs rst s = .next t) :
    Ends s (.regBind clk mosi miso cs rst) t := by
  refine ends_guarded (fun h => ?_) h
  split at h
  · cases h
    exact .died (.regPins clk mosi miso cs rst _) rfl
  · rw [bindAndBroadcast_eq] at h
    refine finish_ends rfl ?_ h
    have hf := (composed_bindTransfer ⟨clk, mosi, miso⟩ ⟨cs, rst⟩).evolves
      { s with spi := some ⟨clk, mosi, miso⟩, reg := some ⟨cs, rst⟩ }
    generalize bindTransfer _ _ _ = r at hf ⊢
    cases r <;> exact hf.responses

/-- Every next state of an instruction is one of its ends. -/
theorem exec_ends (h : exec i s = .next t) : Ends s i t := by
  cases i with
  | planeInit es sim =>
    refine ends_guarded (fun h => ?_) h
    split at h
    · cases h
      exact .badEntries es sim _
    · exact construct_ends h
  | planeInitEntry index dir init name => exact execPlaneInitEntry_ends h
  | close =>
    refine ends_guarded (fun h => ?_) h
    cases h
    exact .replied _ (by rw [State.closeDown_eq_closed]; rfl)
  | setPin n v =>
    refine ends_guarded (fun h => ?_) h
    split at h
    · cases h
      exact .replied _ rfl
    · cases h
      exact .noPin n v
  | getPin | inject =>
    refine ends_guarded (fun h => ?_) h
    cases h
    exact .replied _ rfl
  | spiBind clk mosi miso =>
    refine ends_guarded (fun h => ?_) h
    split at h
    · cases h
      exact .died (.spiPins clk mosi miso _) rfl
    · cases h
      exact .replied _ rfl
  | regBind clk mosi miso cs rst => exact execRegBind_ends h
  | setPins force =>
    exact ends_guarded (finish_ends rfl ((composed_setPins force).evolves s).responses) h
  | getPins => exact ends_guarded (finish_ends rfl (composed_getPins.evolves s).responses) h
  | spiSend v => exact withLink_ends rfl (fun p => composed_spiSendCommand p v) h
  | spiRecv => exact withLink_ends rfl composed_spiRecv h
  | regWrite dev reg data => exact withBus_ends rfl (fun p r => composed_regWrite p r dev reg data) h
  | regRead dev reg => exact withBus_ends rfl (fun p r => composed_regRead p r dev reg) h
  | frameWr dev reg data => exact withBus_ends rfl (fun p r => composed_frameWr p r dev _ data) h
  | frameRd dev reg => exact withBus_ends rfl (fun p r => composed_readFrame p r dev _) h

theorem State.closeDown_responses (s : State) : s.closeDown.responses = s.responses := by
  rw [State.closeDown_eq_closed]
  rfl

/-- The two causes of a link failure (60 R213). -/
theorem LinkOp.code_cases (k : LinkOp) : k.code = 0x01#8 ∨ k.code = 0x02#8 := by
  cases k
  · exact .inl rfl
  · exact .inr rfl

end Ends

/-- Settles O10, an end at a time. -/
theorem responseIsOneOfItsCommand : Obligations.ResponseIsOneOfItsCommand := by
  intro i s t h hentry
  cases exec_ends h with
  | replied d hu => exact ⟨⟨.ok, d⟩, congrArg (· ++ [_]) hu, trivial⟩
  | refused => exact ⟨⟨.refusedState, 0x00#8⟩, rfl, rfl, rfl⟩
  | noPin n v => exact ⟨⟨.noPin, _⟩, rfl, n, v, rfl, rfl⟩
  | badEntries es sim reason => exact ⟨⟨.cfgErr, _⟩, rfl, .inl ⟨es, sim, rfl⟩⟩
  | unopened es sim hu => exact ⟨⟨.fatalIo, _⟩, congrArg (· ++ [_]) hu, ⟨es, sim, rfl⟩, .inl rfl⟩
  | strayEntry index dir init name => exact absurd rfl (hentry index dir init name)
  | entry index dir init name => exact absurd rfl (hentry index dir init name)
  | @died _ c d u hf hu =>
    refine ⟨⟨c, d⟩, congrArg (· ++ [_]) (u.closeDown_responses.trans hu), ?_⟩
    cases hf with
    | spiPins clk mosi miso reason => exact .inr (.inl ⟨clk, mosi, miso, rfl⟩)
    | regPins clk mosi miso cs rst reason => exact .inr (.inr ⟨clk, mosi, miso, cs, rst, rfl⟩)
    | configure es sim => exact ⟨⟨es, sim, rfl⟩, .inr (.inl rfl)⟩
    | firstPush es sim => exact ⟨⟨es, sim, rfl⟩, .inr (.inr rfl)⟩
    | link k hi =>
      have hk := k.code_cases
      cases i <;> cases hi <;> exact ⟨hk, by simp⟩

/-- At power-on no command but PLANE_INIT is accepted (60 R215, R220). -/
theorem State.AtPowerOn.accepts_only_planeInit {s : State} (h : s.AtPowerOn) {j : Instr} (hj : accepts j s = true) :
    (∃ es sim, j = .planeInit es sim) ∨ ∃ index dir init name, j = .planeInitEntry index dir init name := by
  obtain ⟨hp, -⟩ := h
  cases j with
  | planeInit es sim => exact .inl ⟨es, sim, rfl⟩
  | planeInitEntry index dir init name => exact .inr ⟨index, dir, init, name, rfl⟩
  | _ => simp [accepts, hp] at hj

theorem State.closeDown_trace_last (s : State) : ∃ ok, s.closeDown.trace.getLast? = some (.closeLink ok) := by
  rw [State.closeDown_eq_closed]
  exact ⟨_, List.getLast?_concat⟩

/-- Settles O11: of the ends with a fatal response, each is a teardown. -/
theorem fatalErrorTearsDown : Obligations.FatalErrorTearsDown := by
  intro i s t r h hr hfatal
  have response {u : State} {c : Status} {d : Byte} (hu : u.responses = s.responses)
      (ht : (u.respond c d).responses = s.responses ++ [r]) : r = ⟨c, d⟩ := by
    simpa [hu] using ht.symm
  cases exec_ends h with
  | @died _ c d u hf hu =>
    have hoff := u.closeDown_atPowerOn c d
    exact ⟨hoff, (exec_effect h).grows.1, u.closeDown_trace_last, fun j => hoff.accepts_only_planeInit⟩
  | replied d hu => simp [response hu hr] at hfatal
  | refused => simp [response rfl hr] at hfatal
  | noPin n v => simp [response rfl hr] at hfatal
  | badEntries es sim reason => simp [response rfl hr] at hfatal
  | unopened es sim hu => simp [response hu hr, fatalOpen] at hfatal
  | strayEntry index dir init name => simp [response rfl hr] at hfatal
  | entry index dir init name ht => simp [ht] at hr

end Sys2Proof.Machine
end

section
/-!
A link call that fails (60 R213, R214): a run whose link answers fail at some call is the run of better answers, cut off at that call
(`Run.CutOf`). Every procedure cuts so (`Cuts`), as it is composed of single link calls, link-free updates and reads of what is not the
answers.
-/

namespace Sys2Proof.Machine

/-! ## What a run records -/

/-- From `s` to `t` the events `es` were recorded and, in real mode, a link answer used for each READ and WRITE among them; outside the
block nothing else changed. -/
structure State.Records (s t : State) (es : List Event) : Prop where
  sim     : t.sim = s.sim
  outside : t.powerOn = (s.called (linkOps es).length es).powerOn

/-- A link call, recorded as failed. -/
def Event.failed : Event → Event
  | .write bytes _ => .write bytes none
  | .read _ => .read none
  | e => e

section Records

variable {s t u : State} {es fs : List Event}

/-- Outside the block a state after link calls is determined by the mode and what was outside the block before. -/
theorem State.called_powerOn_congr (hsim : t.sim = u.sim) (h : t.powerOn = u.powerOn) (n : Nat) (es : List Event) :
    (t.called n es).powerOn = (u.called n es).powerOn := by
  have key (v : State) : (v.called n es).powerOn =
      { v.powerOn with
        trace := v.powerOn.trace ++ es
        answers := if v.sim then v.powerOn.answers else v.powerOn.answers.drop n
        draws := if v.sim then v.powerOn.draws else v.powerOn.draws + n } := rfl
  rw [key, key, hsim, h]

/-- The teardown erases the block, and keeps what is outside it (60 R220). -/
theorem State.closed_congr (hsim : t.sim = u.sim) (h : t.powerOn = u.powerOn) : t.closed = u.closed := by
  have key (v : State) : v.closed =
      { v.powerOn with
        trace := v.powerOn.trace ++ [.closeLink (v.sim || v.powerOn.answerAt 0 != .fail)]
        answers := if v.sim then v.powerOn.answers else v.powerOn.answers.tail
        draws := if v.sim then v.powerOn.draws else v.powerOn.draws + 1 } := rfl
  rw [key, key, hsim, h]

theorem State.records_called {n : Nat} (s : State) (h : (linkOps es).length = n) : s.Records (s.called n es) es := ⟨rfl, by rw [h]⟩

theorem State.Records.of_silent (hsim : t.sim = s.sim) (h : t.powerOn = s.powerOn) : s.Records t [] :=
  ⟨hsim, by simp [h, State.called, linkOps]⟩

theorem State.records_record (s : State) {e : Event} (h : linkOps [e] = []) : s.Records (s.record e) [e] :=
  ⟨rfl, by rw [h, State.record_eq_called]; rfl⟩

theorem State.Records.trans (h1 : s.Records t es) (h2 : t.Records u fs) : s.Records u (es ++ fs) where
  sim := h2.sim.trans h1.sim
  outside := by
    rw [h2.outside, State.called_powerOn_congr (u := s.called _ es) h1.sim h1.outside, State.called_called, linkOps_append,
      List.length_append]

theorem State.Records.trace (h : s.Records t es) : t.trace = s.trace ++ es := (congrArg State.trace h.outside :)

theorem State.Records.responses (h : s.Records t es) : t.responses = s.responses := (congrArg State.responses h.outside :)

theorem State.Records.answerAt (h : s.Records t es) (hreal : s.sim = false) (m : Nat) :
    t.answerAt m = s.answerAt ((linkOps es).length + m) := by
  have hout : t.powerOn.answerAt m = (s.called (linkOps es).length es).powerOn.answerAt m := by rw [h.outside]
  exact hout.trans (State.answerAt_called hreal _ es m)

/-- Error entry after one failed link call (60 R220). -/
theorem State.Records.fatal_first {e : Event} {op : LinkOp} (h : s.Records t [e]) (hreal : s.sim = false) (hop : linkOps [e] = [op])
    (c : Status) (d : Byte) : fatal c d t = .next (State.answered
      (State.closed { s with trace := s.trace ++ [e], answers := s.answers.tail, draws := s.draws + 1 }) c d) := by
  have hout := h.outside
  rw [hop] at hout
  rw [fatal_eq, State.closed_congr (u := s.called 1 [e]) h.sim hout]
  simp [State.called, hreal]

end Records

/-! ## Cut runs -/

/-- `s` with other link answers ready (20 R66, log 6). -/
def State.answering (s : State) (answers : List Answer) (draws : Nat) : State := { s with answers := answers, draws := draws }

/-- `s'` is `s` with other link answers: the next `k` calls are answered alike and do not fail, and the one after them fails in `s`. -/
structure State.FailsAt (s s' : State) (k : Nat) : Prop where
  same  : s' = s.answering s'.answers s'.draws
  real  : s.sim = false
  agree : ∀ m < k, s'.answerAt m = s.answerAt m ∧ s.answerAt m ≠ .fail
  fails : s.answerAt k = .fail

/-- A run `r` from `s`, of whose link calls the one after `k` fails, beside the run `r'` of better answers: `r` ends as `r'` before that
call, or it ends with that call. -/
inductive Run.CutOf {α : Type} (s : State) (k : Nat) : Run α → Run α → Prop
  | done (a : α) {t t' : State} {es : List Event} {m : Nat} : s.Records t es → t.FailsAt t' m → k = (linkOps es).length + m →
      Run.CutOf s k (.done a t) (.done a t')
  | failed {op : LinkOp} {t : State} {r' : Run α} {es : List Event} (e : Event) : s.Records t (es ++ [Event.failed e]) →
      linkOps [e] = [op] → k = (linkOps es).length → s.trace ++ (es ++ [e]) <+: r'.state.trace → Run.CutOf s k (.failed op t) r'

/-- A procedure that a failing link call cuts off. -/
structure Cuts {α : Type} (f : State → Run α) : Prop where
  grows : ∀ s : State, s.sim = false → (f s).state.sim = false ∧ s.trace <+: (f s).state.trace
  cut   : ∀ (s s' : State) (k : Nat), s.FailsAt s' k → (f s).CutOf s k (f s')

/-- An update that makes no link call and does not look at the answers. -/
structure LinkFree (g : State → State) : Prop where
  blind   : ∀ (s : State) a d, g (s.answering a d) = (g s).answering a d
  records : ∀ s : State, ∃ es, linkOps es = [] ∧ s.Records (g s) es

theorem State.FailsAt.real' {s s' : State} {k : Nat} (h : s.FailsAt s' k) : s'.sim = false := by
  rw [h.same]
  exact h.real

theorem State.FailsAt.trace {s s' : State} {k : Nat} (h : s.FailsAt s' k) : s'.trace = s.trace := by
  rw [h.same]
  rfl

theorem State.FailsAt.called {s s' : State} {k : Nat} (h : s.FailsAt s' (k + 1)) (es : List Event) :
    (s.called 1 es).FailsAt (s'.called 1 es) k where
  same := by rw [h.same]; rfl
  real := h.real
  agree m hm := by
    rw [State.answerAt_called h.real, State.answerAt_called h.real', Nat.add_comm]
    exact h.agree _ (by omega)
  fails := by rw [State.answerAt_called h.real, Nat.add_comm, h.fails]

theorem LinkFree.failsAt {g : State → State} (hg : LinkFree g) {s s' : State} {k : Nat} (h : s.FailsAt s' k) :
    (g s).FailsAt (g s') k := by
  have hans (u : State) (hu : u.sim = false) (m : Nat) : (g u).answerAt m = u.answerAt m := by
    obtain ⟨es, hops, hr⟩ := hg.records u
    rw [hr.answerAt hu, hops, List.length_nil, Nat.zero_add]
  have hblind := hg.blind s s'.answers s'.draws
  rw [← h.same] at hblind
  refine ⟨by rw [hblind]; rfl, ?_, fun m hm => ?_, ?_⟩
  · obtain ⟨es, -, hr⟩ := hg.records s
    exact hr.sim.trans h.real
  · rw [hans s h.real, hans s' h.real']
    exact h.agree m hm
  · rw [hans s h.real, h.fails]

/-! ## How procedures are composed -/

section Compose

variable {α β : Type}

theorem Cuts.done (a : α) : Cuts (Run.done a) where
  grows _ hs := ⟨hs, List.prefix_rfl⟩
  cut _ _ k h := .done a (.of_silent rfl rfl) h (Nat.zero_add k).symm

theorem Cuts.after {g : State → State} {f : State → Run α} (hg : LinkFree g) (hf : Cuts f) : Cuts fun s => f (g s) where
  grows s hs := by
    obtain ⟨es, -, hr⟩ := hg.records s
    obtain ⟨hsim, htr⟩ := hf.grows (g s) (hr.sim.trans hs)
    exact ⟨hsim, (hr.trace ▸ List.prefix_append _ _).trans htr⟩
  cut s s' k h := by
    obtain ⟨es, hops, hr⟩ := hg.records s
    have hc := hf.cut _ _ k (hg.failsAt h)
    generalize f (g s) = r at hc ⊢
    generalize f (g s') = r' at hc ⊢
    cases hc with
    | done a hr' hf' hk => exact .done a (hr.trans hr') hf' (by simpa [linkOps_append, hops] using hk)
    | failed e hr' hop hk hpre =>
      rw [hr.trace, List.append_assoc, ← List.append_assoc es] at hpre
      refine .failed e ?_ hop (by simpa [linkOps_append, hops] using hk) hpre
      simpa using hr.trans hr'

theorem Cuts.reads (view : State → β) {f : β → State → Run α}
    (hview : ∀ (s : State) a d, view (s.answering a d) = view s) (hf : ∀ b, Cuts (f b)) :
    Cuts fun s => f (view s) s where
  grows s := (hf (view s)).grows s
  cut s s' k h := by
    have hv : view s' = view s := by rw [h.same, hview]
    rw [hv]
    exact (hf (view s)).cut s s' k h

theorem Run.grows_andThen {s : State} {r : Run α} {f : α → State → Run β} (hr : r.state.sim = false ∧ s.trace <+: r.state.trace)
    (hf : ∀ a, Cuts (f a)) : (r.andThen f).state.sim = false ∧ r.state.trace <+: (r.andThen f).state.trace := by
  cases r with
  | done a t => exact (hf a).grows t hr.1
  | failed k t => exact ⟨hr.1, List.prefix_rfl⟩

theorem Cuts.andThen {f : State → Run α} {g : α → State → Run β} (hf : Cuts f) (hg : ∀ a, Cuts (g a)) :
    Cuts fun s => (f s).andThen g where
  grows s hs := by
    obtain ⟨hsim, htr⟩ := Run.grows_andThen (hf.grows s hs) hg
    exact ⟨hsim, (hf.grows s hs).2.trans htr⟩
  cut s s' k h := by
    have hc := hf.cut s s' k h
    have hgrow := (Run.grows_andThen (hf.grows s' h.real') hg).2
    generalize f s = r at hc ⊢
    generalize f s' = r' at hc hgrow ⊢
    cases hc with
    | failed e hr hop hk hpre => exact .failed e hr hop hk (hpre.trans hgrow)
    | @done a t t' es m hr hft hk =>
      have hc' := (hg a).cut t t' m hft
      simp only [Run.andThen]
      generalize g a t = q at hc' ⊢
      generalize g a t' = q' at hc' ⊢
      cases hc' with
      | done b hr' hf' hm => exact .done b (hr.trans hr') hf' (by rw [hk, hm, linkOps_append, List.length_append, Nat.add_assoc])
      | @failed op u _ fs e hr' hop hm hpre =>
        rw [hr.trace, List.append_assoc, ← List.append_assoc es] at hpre
        refine .failed e ?_ hop (by rw [hk, hm, linkOps_append, List.length_append]) hpre
        simpa using hr.trans hr'

/-- A single link call over the buffer, answered with the next answer. -/
theorem Cuts.of_call {f : State → Run Unit} {op : LinkOp} {call : List Byte → Answer → Event}
    {g : List Byte → Nat → State → State}
    (hop : ∀ bytes a, linkOps [call bytes a] = [op]) (hcall : ∀ bytes a, Event.failed (call bytes a) = call bytes .fail)
    (hg : ∀ bytes n, LinkFree (g bytes n))
    (hfail : ∀ s : State, s.sim = false → s.answerAt 0 = .fail → f s = .failed op (s.called 1 [call s.txbuf .fail]))
    (hok : ∀ (s : State) n, s.sim = false → s.answerAt 0 = .ok n →
      f s = .done () (g s.txbuf n (s.called 1 [call s.txbuf (.ok n)]))) : Cuts f := by
  have hcalled (s : State) (a : Answer) : s.Records (s.called 1 [call s.txbuf a]) [call s.txbuf a] :=
    s.records_called (by rw [hop]; rfl)
  have hrun (s : State) (hs : s.sim = false) : ∃ es, s.Records (f s).state (call s.txbuf (s.answerAt 0) :: es) := by
    cases ha : s.answerAt 0 with
    | fail =>
      rw [hfail s hs ha]
      exact ⟨[], hcalled s .fail⟩
    | ok n =>
      rw [hok s n hs ha]
      obtain ⟨es, -, hr⟩ := (hg s.txbuf n).records (s.called 1 [call s.txbuf (.ok n)])
      exact ⟨es, (hcalled s (.ok n)).trans hr⟩
  refine ⟨fun s hs => ?_, fun s s' k h => ?_⟩
  · obtain ⟨es, hr⟩ := hrun s hs
    exact ⟨hr.sim.trans hs, hr.trace ▸ List.prefix_append _ _⟩
  have htx : s'.txbuf = s.txbuf := by
    rw [h.same]
    rfl
  cases k with
  | zero =>
    obtain ⟨es, hr⟩ := hrun s' h.real'
    rw [htx] at hr
    rw [hfail s h.real h.fails]
    refine .failed (es := []) (call s.txbuf (s'.answerAt 0)) ?_ (hop _ _) rfl ?_
    · rw [hcall]
      exact hcalled s .fail
    · rw [hr.trace, h.trace]
      exact ⟨es, by simp⟩
  | succ k =>
    obtain ⟨hagree, hne⟩ := h.agree 0 (Nat.succ_pos k)
    obtain ⟨n, ha⟩ : ∃ n, s.answerAt 0 = .ok n := by
      cases ha : s.answerAt 0 with
      | fail => exact absurd ha hne
      | ok n => exact ⟨n, rfl⟩
    obtain ⟨es, hops, hr⟩ := (hg s.txbuf n).records (s.called 1 [call s.txbuf (.ok n)])
    rw [hok s n h.real ha, hok s' n h.real' (hagree.trans ha), htx]
    refine .done () ((hcalled s (.ok n)).trans hr) ((hg s.txbuf n).failsAt (h.called _)) ?_
    rw [linkOps_append, hop, hops]
    exact Nat.add_comm k 1

end Compose

/-! ## Link-free updates -/

theorem LinkFree.of_silent {g : State → State} (hb : ∀ (s : State) a d, g (s.answering a d) = (g s).answering a d)
    (hsim : ∀ s : State, (g s).sim = s.sim) (h : ∀ s : State, (g s).powerOn = s.powerOn) : LinkFree g :=
  ⟨hb, fun s => ⟨[], rfl, .of_silent (hsim s) (h s)⟩⟩

theorem linkFree_setValue (i : PinIx) (b : Bool) : LinkFree (·.setValue i b) :=
  .of_silent (fun _ _ _ => rfl) (fun _ => rfl) fun _ => rfl

theorem State.buffer_powerOn (s : State) : s.buffer.powerOn = s.powerOn := by
  rw [State.buffer_eq]
  rfl

theorem linkFree_buffer : LinkFree State.buffer :=
  .of_silent (fun s a d => by rw [State.buffer_eq, State.buffer_eq]; rfl) State.buffer_sim State.buffer_powerOn

theorem linkFree_clkNotIdle : LinkFree (·.record .clkNotIdle) := ⟨fun _ _ _ => rfl, fun s => ⟨[_], rfl, s.records_record rfl⟩⟩

theorem linkFree_orderCheck (dev : DevAddr) : LinkFree (·.orderCheck dev) where
  blind s a d := by
    have hflag : (s.answering a d).haenOk = s.haenOk := rfl
    rw [State.orderCheck, State.orderCheck, hflag]
    split <;> rfl
  records s := by
    unfold State.orderCheck
    split
    · exact ⟨[_], rfl, s.records_record rfl⟩
    · exact ⟨[], rfl, .of_silent rfl rfl⟩

theorem linkFree_takeSnapshot (b : Byte) : LinkFree (·.takeSnapshot b) :=
  .of_silent (fun _ _ _ => rfl) (fun _ => rfl) fun _ => rfl

/-- What a flush makes of its answered WRITE (40 R122, R123). -/
def State.flushed (bytes : List Byte) (n : Nat) (s : State) : State :=
  { (s.appendHistory bytes).noteShortWrite n bytes.length with txbuf := [] }

theorem linkFree_flushed (bytes : List Byte) (n : Nat) : LinkFree (State.flushed bytes n) where
  blind s a d := by
    unfold State.flushed State.noteShortWrite
    split <;> rfl
  records s := by
    unfold State.flushed State.noteShortWrite
    split
    · exact ⟨[.shortWrite n bytes.length], rfl, rfl, by simp [State.called, linkOps, State.powerOn]⟩
    · exact ⟨[], rfl, .of_silent rfl rfl⟩

/-! ## The procedures -/

/-- A flush whose WRITE fails (40 R122). -/
theorem flush_of_failed {s : State} (hs : s.sim = false) (ha : s.answerAt 0 = .fail) :
    flush s = .failed .write (s.called 1 [.write s.txbuf none]) :=
  flush_of_failure (State.countOf_failed (State.callOk_real hs ha) _)

theorem cuts_flush : Cuts flush := by
  refine Cuts.of_call (op := .write)
    (call := fun bytes a => .write bytes (match a with | .fail => none | .ok n => some (min n bytes.length)))
    (g := fun bytes n => State.flushed bytes (min n bytes.length)) (fun _ _ => rfl) (fun _ _ => rfl)
    (fun _ _ => linkFree_flushed _ _) (fun s hs ha => flush_of_failed hs ha) fun s n hs ha => ?_
  rw [flush_of_answer (State.countOf_real hs ha _), State.afterFlush, State.takeAnswer_eq_called, State.record_eq_called,
    State.called_called]
  rfl

/-- A READ that fails (10 R40). -/
theorem linkRead_of_failed {s : State} (hs : s.sim = false) (ha : s.answerAt 0 = .fail) :
    linkRead s = (none, s.called 1 [.read none]) := by
  simp [linkRead, State.takeAnswer_real hs, ha, State.record, State.drawn, State.called, hs]

/-- A READ that is answered (10 R40). -/
theorem linkRead_of_answer {s : State} {n : Nat} (hs : s.sim = false) (ha : s.answerAt 0 = .ok n) :
    linkRead s = (some (BitVec.ofNat 8 n), s.called 1 [.read (some (BitVec.ofNat 8 n))]) := by
  simp [linkRead, State.takeAnswer_real hs, ha, State.record, State.drawn, State.called, hs]

theorem cuts_refresh : Cuts refresh := by
  refine .andThen
    (.reads State.txbuf (f := fun bytes s => if bytes = [] then .done () s else flush s) (fun _ _ _ => rfl) fun bytes => ?_)
    fun _ => Cuts.of_call (op := .read)
      (call := fun _ a => .read (match a with | .fail => none | .ok n => some (BitVec.ofNat 8 n)))
      (g := fun _ n => (·.takeSnapshot (BitVec.ofNat 8 n))) (fun _ _ => rfl) (fun _ _ => rfl) (fun _ _ => linkFree_takeSnapshot _)
      (fun s hs ha => ?_) fun s n hs ha => ?_
  · split
    · exact .done ()
    · exact cuts_flush
  · rw [linkRead_of_failed hs ha]
  · rw [linkRead_of_answer hs ha]

theorem cuts_pushState (force : Bool) : Cuts (pushState force) :=
  .reads (fun s : State => force || decide (s.cfg.maxPacket ≤ s.buffer.txbuf.length))
    (f := fun full s => if full then flush s.buffer else .done () s.buffer) (fun _ _ _ => by simp [State.answering])
    fun full => match full with
      | true => .after linkFree_buffer cuts_flush
      | false => .after linkFree_buffer (.done ())

theorem cuts_pushValue (force : Bool) (i : PinIx) (b : Bool) : Cuts fun s => pushState force (s.setValue i b) :=
  .after (linkFree_setValue i b) (cuts_pushState force)

theorem cuts_pushValues (force : Bool) (i j : PinIx) (b c : Bool) : Cuts fun s => pushState force ((s.setValue i b).setValue j c) :=
  .after (f := fun s => pushState force (s.setValue j c)) (linkFree_setValue i b) (cuts_pushValue force j c)

theorem Cuts.readsLevel {α : Type} (i : PinIx) {f : Bool → State → Run α} (h : ∀ b, Cuts (f b)) : Cuts fun s => f (s.level i) s :=
  .reads (·.level i) (fun _ _ _ => rfl) h

theorem Cuts.readsCfg {α : Type} {f : Params → State → Run α} (h : ∀ c, Cuts (f c)) : Cuts fun s => f s.cfg s :=
  .reads State.cfg (fun _ _ _ => rfl) h

theorem cuts_clockIdleFix (p : SpiPins) : Cuts (clockIdleFix p) :=
  .readsLevel p.clk
    (f := fun high s => if high then pushState false ((s.record .clkNotIdle).setValue p.clk false) else .done () s) fun high =>
    match high with
    | true => .after linkFree_clkNotIdle (cuts_pushValue false p.clk false)
    | false => .done ()

theorem cuts_sendBits (p : SpiPins) (bs : List Bool) : Cuts (sendBits p bs) := by
  induction bs with
  | nil => exact .done ()
  | cons b bs ih =>
    exact .andThen (.andThen (cuts_pushValues false p.clk p.mosi false b) fun _ => cuts_pushValue false p.clk true) fun _ => ih

theorem cuts_spiSend (p : SpiPins) (v : Byte) : Cuts (spiSend p v) :=
  .andThen (cuts_clockIdleFix p) fun _ => .andThen (cuts_sendBits p _) fun _ => cuts_pushValue true p.clk false

theorem cuts_recvBit (p : SpiPins) (acc : Byte) : Cuts (recvBit p acc) :=
  .andThen cuts_refresh fun _ => .readsLevel p.miso
    (f := fun miso t => (pushState true (t.setValue p.clk true)).andThen fun _ u =>
      (pushState true (u.setValue p.clk false)).andThen fun _ w => .done (shiftIn acc miso) w)
    fun _ => .andThen (cuts_pushValue true p.clk true) fun _ => .andThen (cuts_pushValue true p.clk false) fun _ => .done _

theorem cuts_recvBits (p : SpiPins) (k : Nat) (acc : Byte) : Cuts (recvBits p k acc) := by
  induction k generalizing acc with
  | zero => exact .done acc
  | succ k ih => exact .andThen (cuts_recvBit p acc) ih

theorem cuts_spiRecv (p : SpiPins) : Cuts (spiRecv p) := .andThen (cuts_clockIdleFix p) fun _ => cuts_recvBits p 8 _

/-- CS low and an opcode byte, then the rest of the frame (42 R187). -/
theorem cuts_frame {α : Type} (p : SpiPins) (r : RegPins) (dev : DevAddr) (read : Bool) {rest : State → Run α} (h : Cuts rest) :
    Cuts fun s => (csAssert r s).andThen fun _ s1 =>
      (spiSend p (opcode s1.cfg.opcNibble dev read) s1).andThen fun _ s2 => rest s2 :=
  .andThen (cuts_pushValue false r.cs false) fun _ =>
    .readsCfg (f := fun c s1 => (spiSend p (opcode c.opcNibble dev read) s1).andThen fun _ s2 => rest s2)
      fun _ => .andThen (cuts_spiSend p _) fun _ => h

theorem cuts_writeFrame (p : SpiPins) (r : RegPins) (dev : DevAddr) (reg data : Byte) : Cuts (writeFrame p r dev reg data) :=
  cuts_frame p r dev false (.andThen (cuts_spiSend p _) fun _ => .andThen (cuts_spiSend p _) fun _ => cuts_pushValue true r.cs true)

theorem cuts_readFrame (p : SpiPins) (r : RegPins) (dev : DevAddr) (reg : Byte) : Cuts (readFrame p r dev reg) :=
  cuts_frame p r dev true (.andThen (cuts_spiSend p _) fun _ => .andThen (cuts_spiRecv p) fun v =>
    .andThen (cuts_pushValue true r.cs true) fun _ => .done v)

theorem cuts_bindTransfer (p : SpiPins) (r : RegPins) : Cuts (bindTransfer p r) :=
  .andThen (.andThen (cuts_pushValues true r.cs r.rst true false) fun _ => cuts_pushValue true r.rst true)
    fun _ => .readsCfg (f := fun c => writeFrame p r 0#3 (c.ctrlReg.zeroExtend 8) (c.ctrlDefault ||| c.haenMask))
      fun _ => cuts_writeFrame p r _ _ _

theorem cuts_bindAndBroadcast (p : SpiPins) (r : RegPins) : Cuts (bindAndBroadcast p r) := by
  have hbound : LinkFree fun s => { s with spi := some p, reg := some r } :=
    .of_silent (fun _ _ _ => rfl) (fun _ => rfl) fun _ => rfl
  have hready : LinkFree fun s => { s with haenOk := true, phase := .ready } :=
    .of_silent (fun _ _ _ => rfl) (fun _ => rfl) fun _ => rfl
  rw [funext (bindAndBroadcast_eq p r)]
  exact .andThen (.after hbound (cuts_bindTransfer p r)) fun _ => .after hready (.done _)

end Sys2Proof.Machine
end

section
/-!
The commands whose link call fails (60 R213, R214, R220): which call it is decides the cause, and the teardown follows.
-/

namespace Sys2Proof.Machine

/-! ## Better answers -/

/-- `s` with an answer ready for each of the next `n` calls: its own, or a success in place of a failure. -/
def State.mended (s : State) (n : Nat) : State :=
  s.answering ((List.range n).map fun m => if s.answerAt m = .fail then .ok 0 else s.answerAt m) s.draws

section Mended

variable {s : State} {n k m : Nat}

theorem State.answerAt_mended (h : m < n) : (s.mended n).answerAt m = if s.answerAt m = .fail then .ok 0 else s.answerAt m := by
  apply State.answerAt_of_getElem?
  simp [State.mended, State.answering, h]

theorem State.linkGood_mended (s : State) (n : Nat) : (s.mended n).linkGood n := by
  refine .inr fun m hm => ?_
  rw [State.answerAt_mended hm]
  split
  · nofun
  · assumption

theorem State.failsAt_mended (hreal : s.sim = false) (hgood : ∀ m < k, s.answerAt m ≠ .fail) (hfail : s.answerAt k = .fail)
    (hk : k ≤ n) : s.FailsAt (s.mended n) k where
  same := rfl
  real := hreal
  agree m hm := ⟨by rw [State.answerAt_mended (by omega), if_neg (hgood m hm)], hgood m hm⟩
  fails := hfail

/-- The invariant does not look at the link answers. -/
theorem State.Inv.mended (h : s.Inv) (n : Nat) : (s.mended n).Inv :=
  { h with
    idle := fun hp => congrArg (fun u : State => { u with answers := (s.mended n).answers }) (h.idle hp)
    spi_ok := fun p hs => (h.spi_ok p hs).congr fun _ => rfl
    reg_ok := fun p r hs hr => (h.reg_ok p r hs hr).congr fun _ => rfl }

end Mended

/-! ## Where a cut run ends -/

section CutOf

variable {α : Type} {s : State} {r r' : Run α} {k : Nat} {ops : List LinkOp} {op : LinkOp} {e : Event} {rest : List Event}

/-- A run whose better counterpart makes more than `k` calls ends with the call that fails. -/
theorem Run.CutOf.failed_call (h : r.CutOf s k r') (hops : linkOps r'.state.trace = linkOps s.trace ++ ops) (hk : k < ops.length) :
    ∃ op t es e, r = .failed op t ∧ s.Records t (es ++ [Event.failed e]) ∧ linkOps [e] = [op] ∧
      linkOps es ++ [op] = ops.take (k + 1) := by
  cases h with
  | @done a t t' es m hr hf hm =>
    have htr : (Run.done a t').state.trace = s.trace ++ es := hf.trace.trans hr.trace
    rw [htr, linkOps_append, List.append_cancel_left_eq] at hops
    rw [hops] at hm
    omega
  | @failed op t _ es e hr hop hlen hpre =>
    obtain ⟨rest, hrest⟩ := hpre
    rw [← hrest, List.append_assoc, linkOps_append, List.append_cancel_left_eq, linkOps_append, linkOps_append, hop] at hops
    exact ⟨op, t, es, e, rfl, hr, hop, by rw [← hops, List.take_left' (by simp [hlen])]⟩

/-- A run whose better counterpart begins with the call `e`, which fails, is that call alone. -/
theorem Run.CutOf.first_call (h : r.CutOf s 0 r') (htr : r'.state.trace = s.trace ++ e :: rest) (hop : linkOps [e] = [op]) :
    ∃ t, r = .failed op t ∧ s.Records t [Event.failed e] := by
  have hcall (es : List Event) : linkOps (e :: es) = op :: linkOps es := by
    rw [← List.singleton_append, linkOps_append, hop]
    rfl
  cases h with
  | @done a t t' es m hr hf hm =>
    obtain rfl : es = e :: rest := List.append_cancel_left ((hf.trace.trans hr.trace).symm.trans htr)
    rw [hcall, List.length_cons] at hm
    omega
  | @failed op' t _ es e' hr hop' hlen hpre =>
    rw [htr, List.prefix_append_right_inj] at hpre
    cases es with
    | nil =>
      obtain ⟨rfl, -⟩ := List.cons_prefix_cons.1 hpre
      obtain rfl : op' = op := List.head_eq_of_cons_eq (hop'.symm.trans hop)
      exact ⟨t, rfl, hr⟩
    | cons x xs =>
      obtain ⟨rfl, -⟩ := List.cons_prefix_cons.1 hpre
      rw [hcall] at hlen
      cases hlen

end CutOf

/-! ## The commands as cut procedures -/

section Commands

variable {s : State} {p : SpiPins} {clk : PinIx} {i : Instr}

theorem exec_spiSend_bound (hl : s.linked = true) (hs : s.spi = some p) (v : Byte) :
    exec (.spiSend v) s = finish .ioErr ((spiSend p v s).andThen fun _ t => .done 0x00#8 t) := by
  rw [exec, execSpiSend, if_pos hl, hs]

theorem exec_spiRecv_bound (hl : s.linked = true) (hs : s.spi = some p) : exec .spiRecv s = finish .ioErr (spiRecv p s) := by
  rw [exec, execSpiRecv, if_pos hl, hs]

theorem exec_regBind_checked {r : RegPins} (ho : s.open = true) (hp : s.SpiPinsOk p) (hr : s.RegPinsOk p r) :
    exec (.regBind p.clk p.mosi p.miso r.cs r.rst) s = finish .regAccessErr (bindAndBroadcast p r s) := by
  rw [exec, execRegBind, if_pos ho, State.checkRegPins_of_ok hp hr]

/-- An accepted command that calls the link ends with a procedure that a failing call cuts off, the same for all link answers. -/
theorem exec_cuts (hinv : s.Inv) (hacc : accepts i s = true)
    (hbind : ∀ c mo mi cs rst, i = .regBind c mo mi cs rst → s.SpiPinsOk ⟨c, mo, mi⟩ ∧ s.RegPinsOk ⟨c, mo, mi⟩ ⟨cs, rst⟩)
    (hne : s.linkCalls clk i ≠ []) : ∃ f : State → Run Byte, Cuts f ∧ ∀ a d, exec i (s.answering a d) =
      finish (if ofRegisterLayer i then .regAccessErr else .ioErr) (f (s.answering a d)) := by
  have bus (hp : s.phase = .ready) : ∃ p r, ∀ a d k, (s.answering a d).withBus k = k p r := by
    obtain ⟨p, hs⟩ := hinv.exists_spi (.inr hp)
    obtain ⟨r, hr⟩ := Option.isSome_iff_exists.1 (hinv.reg_iff.2 hp)
    exact ⟨p, r, fun a d k => State.withBus_bound (s := s.answering a d) hp hs hr k⟩
  cases i with
  | planeInit | close | setPin | getPin | inject | spiBind | planeInitEntry => exact absurd rfl hne
  | setPins force => exact ⟨_, .andThen (cuts_pushState force) fun _ => .done 0x00#8, fun a d => if_pos hacc⟩
  | getPins =>
    exact ⟨_, .andThen cuts_refresh fun _ => .reads State.pinValues (f := fun v t => .done v t) (fun _ _ _ => rfl) fun v => .done v,
      fun a d => if_pos hacc⟩
  | spiSend v =>
    obtain ⟨p, hs⟩ := hinv.exists_spi (State.linked_iff.1 hacc)
    exact ⟨_, .andThen (cuts_spiSend p v) fun _ => .done 0x00#8, fun a d => exec_spiSend_bound (s := s.answering a d) hacc hs v⟩
  | spiRecv =>
    obtain ⟨p, hs⟩ := hinv.exists_spi (State.linked_iff.1 hacc)
    exact ⟨_, cuts_spiRecv p, fun a d => exec_spiRecv_bound (s := s.answering a d) hacc hs⟩
  | regBind c mo mi cs rst =>
    obtain ⟨hp, hr⟩ := hbind c mo mi cs rst rfl
    exact ⟨_, cuts_bindAndBroadcast ⟨c, mo, mi⟩ ⟨cs, rst⟩, fun a d =>
      exec_regBind_checked (s := s.answering a d) (p := ⟨c, mo, mi⟩) (r := ⟨cs, rst⟩) hacc (hp.congr fun _ => rfl)
        (hr.congr fun _ => rfl)⟩
  | regWrite dev reg data =>
    obtain ⟨p, r, hbus⟩ := bus (eq_of_beq hacc)
    exact ⟨_, .after (linkFree_orderCheck dev) (.andThen (cuts_writeFrame p r dev reg data) fun _ => .done 0x00#8),
      fun a d => hbus a d _⟩
  | regRead dev reg =>
    obtain ⟨p, r, hbus⟩ := bus (eq_of_beq hacc)
    exact ⟨_, .after (linkFree_orderCheck dev) (cuts_readFrame p r dev reg), fun a d => hbus a d _⟩
  | frameWr dev reg data =>
    obtain ⟨p, r, hbus⟩ := bus (eq_of_beq hacc)
    exact ⟨_, .andThen (cuts_writeFrame p r dev (reg.zeroExtend 8) data) fun _ => .done 0x00#8, fun a d => hbus a d _⟩
  | frameRd dev reg =>
    obtain ⟨p, r, hbus⟩ := bus (eq_of_beq hacc)
    exact ⟨_, cuts_readFrame p r dev (reg.zeroExtend 8), fun a d => hbus a d _⟩

/-- A response and a teardown add no READ or WRITE to the trace of a procedure. -/
theorem linkOps_of_finish {c : Status} {r : Run Byte} {t : State} (h : finish c r = .next t) :
    linkOps t.trace = linkOps r.state.trace := by
  cases r with
  | done v u =>
    cases h
    rfl
  | failed k u =>
    rw [finish, fatal_eq] at h
    cases h
    simp [State.answered, State.closed, Run.state, linkOps_append, linkOps]

theorem linkOps_failed (e : Event) : linkOps [Event.failed e] = linkOps [e] := by cases e <;> rfl

theorem isFailed_failed {e : Event} {op : LinkOp} (h : linkOps [e] = [op]) : Event.isFailed op (Event.failed e) = true := by
  cases e <;> cases h <;> rfl

/-- What error entry leaves after a run that ended with the failed call `e` (60 R220). -/
theorem State.Records.tornDown {t : State} {es : List Event} {e : Event} {op : LinkOp} (h : s.Records t (es ++ [Event.failed e]))
    (he : linkOps [e] = [op]) (c : Status) :
    ∃ (u : State) (event : Event) (ok : Bool), fatal c op.code t = .next u ∧ u.AtPowerOn ∧
      u.responses = s.responses ++ [⟨c, op.code⟩] ∧ Event.isFailed op event = true ∧ [event, .closeLink ok] <:+ u.trace ∧
      s.trace <+: u.trace ∧ linkOps u.trace = linkOps s.trace ++ (linkOps es ++ [op]) := by
  obtain ⟨ok, htr⟩ : ∃ ok, t.closed.trace = s.trace ++ (es ++ [Event.failed e, .closeLink ok]) :=
    ⟨t.sim || t.answerAt 0 != .fail, by simp [State.closed, h.trace]⟩
  refine ⟨t.closed.answered c op.code, Event.failed e, ok, fatal_eq _ _ t, ⟨rfl, rfl, rfl, rfl, rfl, rfl, rfl, rfl, rfl⟩,
    congrArg (· ++ [_]) h.responses, isFailed_failed he, ⟨s.trace ++ es, ?_⟩, ⟨_, htr.symm⟩, ?_⟩
  · rw [List.append_assoc]
    exact htr.symm
  · have hclose : linkOps [Event.failed e, .closeLink ok] = [op] :=
      (linkOps_append [Event.failed e] [.closeLink ok]).trans (by rw [linkOps_failed, he]; rfl)
    exact (congrArg linkOps htr).trans (by rw [linkOps_append, linkOps_append, hclose])

/-- With better answers an accepted command makes all its calls, and its invariant and its guards do not notice (40 R120 to 42 R192). -/
theorem exec_mended (hinv : s.Inv) (hacc : accepts i s = true) (hclk : ∀ p, s.spi = some p → p.clk = clk)
    (hbind : ∀ c mo mi cs rst, i = .regBind c mo mi cs rst → s.SpiPinsOk ⟨c, mo, mi⟩ ∧ s.RegPinsOk ⟨c, mo, mi⟩ ⟨cs, rst⟩)
    (hne : s.linkCalls clk i ≠ []) : ∃ t, exec i (s.mended (s.linkCalls clk i).length) = .next t ∧
      linkOps t.trace = linkOps s.trace ++ s.linkCalls clk i := by
  generalize hn : (s.linkCalls clk i).length = n
  have hcalls : (s.mended n).linkCalls clk i = s.linkCalls clk i := by cases i <;> rfl
  have haccepts : accepts i (s.mended n) = accepts i s := by cases i <;> rfl
  obtain ⟨t, _, ht, -, -, htrace⟩ := transferMakesItsLinkCalls (s.mended n) clk i (hinv.mended n) (haccepts.trans hacc) hclk
    (fun c mo mi cs rst hi => (hbind c mo mi cs rst hi).imp (·.congr fun _ => rfl) (·.congr fun _ => rfl))
    (by rwa [hcalls]) (by rw [hcalls, hn]; exact s.linkGood_mended n)
  exact ⟨t, ht, by rw [htrace, hcalls]; rfl⟩

end Commands

/-- Settles O49: with better answers the command makes all its calls, and the failing answer cuts that run off at its own. -/
theorem failedLinkCallDecidesTheCause : Obligations.FailedLinkCallDecidesTheCause := by
  intro s clk i k op hinv hreal hacc hclk hbind hop hgood hfail
  obtain ⟨hk, -⟩ := List.getElem?_eq_some_iff.1 hop
  have hne : s.linkCalls clk i ≠ [] := List.ne_nil_of_length_pos (by omega)
  obtain ⟨f, hf, hexec⟩ := exec_cuts hinv hacc hbind hne
  obtain ⟨t', ht', htrace⟩ := exec_mended hinv hacc hclk hbind hne
  obtain ⟨op', t, es, e, hrun, hrec, he, htake⟩ := (hf.cut _ _ k (State.failsAt_mended hreal hgood hfail hk.le)).failed_call
    ((linkOps_of_finish ((hexec _ _).symm.trans ht')).symm.trans htrace) hk
  rw [List.take_add_one, hop] at htake
  obtain ⟨-, hlast⟩ := List.append_inj' htake rfl
  cases hlast
  obtain ⟨u, event, ok, hu, hoff, hresp, hfailed, hend, hgrows, hops⟩ :=
    hrec.tornDown he (if ofRegisterLayer i then .regAccessErr else .ioErr)
  refine ⟨u, event, ok, ?_, hoff, hresp, hfailed, hend, hgrows, ?_⟩
  · exact (hexec s.answers s.draws).trans ((congrArg (finish _) hrun).trans hu)
  · rw [hops, htake, List.take_add_one, hop]

end Sys2Proof.Machine
end

section
/-!
The first link call of a command fails, with the events and the state after the teardown exactly (60 R213, R214, R220; 42 R190).
-/

namespace Sys2Proof.Machine

section FirstCall

variable {s : State} {p : SpiPins} {r : RegPins}

/-! ## Pushes and reads -/

/-- A push whose WRITE fails: the bytes pending and the byte pushed (40 R120, R122). -/
theorem pushState_of_failed {force : Bool} (hs : s.sim = false) (ha : s.answerAt 0 = .fail)
    (hf : force = true ∨ s.cfg.maxPacket ≤ s.txbuf.length + 1) :
    ∃ t, pushState force s = .failed .write t ∧ s.Records t [.write (s.txbuf ++ [s.pinByte]) none] := by
  rw [pushState_flushing hf, flush_of_failed (by simpa using hs) (by simpa [State.answerAt] using ha), State.buffer_txbuf]
  exact ⟨_, rfl, (State.Records.of_silent s.buffer_sim s.buffer_powerOn).trans (s.buffer.records_called rfl)⟩

/-- A refresh with nothing pending whose READ fails (40 R125). -/
theorem refresh_of_failed (hs : s.sim = false) (ha : s.answerAt 0 = .fail) (htx : s.txbuf = []) :
    ∃ t, refresh s = .failed .read t ∧ s.Records t [.read none] := by
  rw [refresh, if_pos htx]
  simp only [Run.andThen, linkRead_of_failed hs ha]
  exact ⟨_, rfl, s.records_called rfl⟩

/-! ## A byte sent -/

/-- Below `MAX_PACKET` and with the clock low, `SpiSend` makes one WRITE, and its events are those of a flush (41 R154). -/
theorem spiSend_flushEvents {v : Byte} {t : State} (hclk : s.level p.clk = false) (hroom : s.txbuf.length + 17 ≤ s.cfg.maxPacket)
    (h : spiSend p v s = .done () t) : ∃ bytes n, t.trace = s.trace ++ flushEvents bytes n := by
  obtain ⟨u, hu, hb⟩ := sendBits_buffered p (bitsMsb v) (s := s) (by simp [bitsMsb]; omega)
  rw [spiSend, clockIdleFix_of_low hclk] at h
  simp only [Run.andThen, hu] at h
  rw [pushState_flushing (.inl rfl)] at h
  rcases flush_cases (u.setValue p.clk false).buffer with hf | ⟨n, -, hf⟩
  · rw [hf] at h
    cases h
  · rw [hf] at h
    cases h
    exact ⟨_, n, by rw [State.afterFlush_trace, State.buffer_trace, State.setValue_trace, hb.trace]⟩

/-- A byte sent whose WRITE fails: what was pending and the 17 states (41 R154). -/
theorem spiSend_of_failed (hp : s.SpiPinsOk p) (v : Byte) (hs : s.sim = false) (ha : s.answerAt 0 = .fail)
    (hclk : s.level p.clk = false) (hroom : s.txbuf.length + 17 ≤ s.cfg.maxPacket) :
    ∃ t, spiSend p v s = .failed .write t ∧ s.Records t [.write (s.txbuf ++ s.sendStates p v) none] := by
  obtain ⟨t, ht, hm, htx, -⟩ := spiSend_moves (s := s.mended 18) (hp.congr fun _ => rfl) v (s.linkGood_mended 18)
  obtain ⟨bytes, n, htr⟩ := spiSend_flushEvents (s := s.mended 18) hclk hroom ht
  have hbytes : bytes = s.txbuf ++ s.sendStates p v := by
    have hst := hm.stream
    rw [State.stream, State.stream, htx, htr, sent_append, sent_flushEvents, State.fixStates_low (s := s.mended 18) hclk,
      List.append_nil, List.append_assoc] at hst
    exact List.append_cancel_left hst
  have hcut := (cuts_spiSend p v).cut s (s.mended 18) 0 (State.failsAt_mended hs nofun ha (Nat.zero_le _))
  rw [ht] at hcut
  rw [← hbytes]
  exact hcut.first_call htr rfl

/-- The head of a frame whose WRITE fails: CS low and the opcode's states (42 R187, R188, R192). -/
theorem frame_of_failed {α : Type} (hp : s.SpiPinsOk p) (hr : s.RegPinsOk p r) (dev : DevAddr) (read : Bool) (hs : s.sim = false)
    (ha : s.answerAt 0 = .fail) (htx : s.txbuf = []) (hclk : s.level p.clk = false) (hmax : 18 ≤ s.cfg.maxPacket)
    (rest : State → Run α) :
    ∃ t, ((csAssert r s).andThen fun _ s1 =>
        (spiSend p (opcode s1.cfg.opcNibble dev read) s1).andThen fun _ s2 => rest s2) = .failed .write t ∧
      s.Records t [.write ((s.setValue r.cs false).pinByte ::
        (s.setValue r.cs false).sendStates p (opcode s.cfg.opcNibble dev read)) none] := by
  let a := s.setValue r.cs false
  have hcs : csAssert r s = .done () a.buffer := pushState_buffering (s := a) (by simp [a, htx]; omega)
  have hbuf : a.buffer.txbuf = [a.pinByte] := by simp [a, htx]
  have hclk' : a.buffer.level p.clk = false := by
    rw [State.level_congr (a.slot_buffer _), State.level_setValue_ne _ _ hr.cs_clk, hclk]
  have hpa : a.SpiPinsOk p := hp.congr fun i => s.shape_setValue r.cs i false
  have hshape (i : PinIx) : a.buffer.shape i = a.shape i := State.shape_congr (a.slot_buffer i)
  have hstates (v : Byte) : a.buffer.sendStates p v = a.sendStates p v :=
    State.sendStates_congr (State.wireState_congr hpa hshape fun i _ _ _ => State.level_congr (a.slot_buffer i)) v
  obtain ⟨t, ht, hrec⟩ := spiSend_of_failed (s := a.buffer) (hpa.congr hshape)
    (opcode s.cfg.opcNibble dev read) (by simpa [a] using hs) (by simpa [a, State.answerAt] using ha) hclk'
    (by rw [hbuf]; simpa [a] using hmax)
  refine ⟨t, ?_, ?_⟩
  · rw [hcs]
    simp only [Run.andThen, State.buffer_cfg, a, State.setValue_cfg] at ht ⊢
    rw [ht]
  · rw [hbuf, hstates] at hrec
    exact (State.Records.of_silent a.buffer_sim a.buffer_powerOn : s.Records a.buffer []).trans hrec

theorem writeFrame_of_failed (hp : s.SpiPinsOk p) (hr : s.RegPinsOk p r) (dev : DevAddr) (reg data : Byte) (hs : s.sim = false)
    (ha : s.answerAt 0 = .fail) (htx : s.txbuf = []) (hclk : s.level p.clk = false) (hmax : 18 ≤ s.cfg.maxPacket) :
    ∃ t, writeFrame p r dev reg data s = .failed .write t ∧ s.Records t [.write ((s.setValue r.cs false).pinByte ::
      (s.setValue r.cs false).sendStates p (opcode s.cfg.opcNibble dev false)) none] :=
  frame_of_failed hp hr dev false hs ha htx hclk hmax _

theorem readFrame_of_failed (hp : s.SpiPinsOk p) (hr : s.RegPinsOk p r) (dev : DevAddr) (reg : Byte) (hs : s.sim = false)
    (ha : s.answerAt 0 = .fail) (htx : s.txbuf = []) (hclk : s.level p.clk = false) (hmax : 18 ≤ s.cfg.maxPacket) :
    ∃ t, readFrame p r dev reg s = .failed .write t ∧ s.Records t [.write ((s.setValue r.cs false).pinByte ::
      (s.setValue r.cs false).sendStates p (opcode s.cfg.opcNibble dev true)) none] :=
  frame_of_failed hp hr dev true hs ha htx hclk hmax _

/-! ## A byte received, and the binding -/

/-- A byte received with nothing pending and the clock low: the first READ fails (41 R155). -/
theorem spiRecv_of_failed (hs : s.sim = false) (ha : s.answerAt 0 = .fail) (htx : s.txbuf = []) (hclk : s.level p.clk = false) :
    ∃ t, spiRecv p s = .failed .read t ∧ s.Records t [.read none] := by
  obtain ⟨t, ht, hrec⟩ := refresh_of_failed hs ha htx
  refine ⟨t, ?_, hrec⟩
  rw [spiRecv, clockIdleFix_of_low hclk]
  simp only [Run.andThen, recvBits, recvBit, ht]

/-- REG_BIND with nothing pending: the first WRITE of the device reset fails (42 R184). -/
theorem bindAndBroadcast_of_failed (hs : s.sim = false) (ha : s.answerAt 0 = .fail) (htx : s.txbuf = []) :
    ∃ t, bindAndBroadcast p r s = .failed .write t ∧
      s.Records t [.write [((s.setValue r.cs true).setValue r.rst false).pinByte] none] := by
  let a := ({ s with spi := some p, reg := some r } : State).setValue r.cs true |>.setValue r.rst false
  obtain ⟨t, ht, hrec⟩ := pushState_of_failed (s := a) (force := true) hs ha (.inl rfl)
  refine ⟨t, by rw [bindAndBroadcast, deviceReset, ht]; rfl, ?_⟩
  rw [show a.txbuf = [] from htx] at hrec
  exact (State.Records.of_silent rfl rfl : s.Records a []).trans hrec

end FirstCall

/-- Settles O19: the push's WRITE is the command's only call. -/
theorem failedWriteInSetPinsIsIoErr : Obligations.FailedWriteInSetPinsIsIoErr := by
  intro s force hp hs hf ha
  obtain ⟨t, ht, hrec⟩ := pushState_of_failed hs ha hf
  rw [exec, execSetPins, if_pos (State.open_iff.2 hp), ht]
  exact hrec.fatal_first hs rfl _ _

/-- Settles O21: with nothing pending the READ is the first call. -/
theorem failedReadInGetPinsIsIoErr : Obligations.FailedReadInGetPinsIsIoErr := by
  intro s hp hs htx ha
  obtain ⟨t, ht, hrec⟩ := refresh_of_failed hs ha htx
  rw [exec, execGetPins, if_pos (State.open_iff.2 hp), ht]
  exact hrec.fatal_first hs rfl _ _

/-- Settles O48: the transfers of the SPI Link, the register accesses, and REG_BIND. -/
theorem failedTransferIsFatal : Obligations.FailedTransferIsFatal := by
  intro s p r event status cause i hp hs htx ha h
  rcases h with ⟨hl, hspi, hclk, hmax, rfl, ⟨v, rfl, rfl, rfl⟩ | ⟨rfl, rfl, rfl⟩⟩ |
    ⟨hph, hspi, hreg, hr, hclk, hmax, rfl, rfl, dev, read, hok, ⟨reg, data, rfl, rfl⟩ | ⟨reg, rfl, rfl⟩, rfl⟩ |
    ⟨hph, hr, rfl, rfl, rfl, rfl⟩
  · obtain ⟨t, ht, hrec⟩ := spiSend_of_failed hp v hs ha hclk (by simpa [htx] using hmax)
    rw [htx] at hrec
    rw [exec_spiSend_bound (State.linked_iff.2 hl) hspi, ht]
    exact hrec.fatal_first hs rfl _ _
  · obtain ⟨t, ht, hrec⟩ := spiRecv_of_failed (p := p) hs ha htx hclk
    rw [exec_spiRecv_bound (State.linked_iff.2 hl) hspi, ht]
    exact hrec.fatal_first hs rfl _ _
  · obtain ⟨t, ht, hrec⟩ := writeFrame_of_failed hp hr dev reg data hs ha htx hclk hmax
    rw [exec, execRegWrite, State.withBus_bound hph hspi hreg, State.orderCheck_of_ok hok, ht]
    exact hrec.fatal_first hs rfl _ _
  · obtain ⟨t, ht, hrec⟩ := readFrame_of_failed hp hr dev reg hs ha htx hclk hmax
    rw [exec, execRegRead, State.withBus_bound hph hspi hreg, State.orderCheck_of_ok hok, ht]
    exact hrec.fatal_first hs rfl _ _
  · obtain ⟨t, ht, hrec⟩ := bindAndBroadcast_of_failed (p := p) (r := r) hs ha htx
    rw [exec_regBind_checked (State.open_iff.2 hph) hp hr, ht]
    exact hrec.fatal_first hs rfl _ _

end Sys2Proof.Machine
end
